-- ==== Sys2Proof/Word.lean ====
section
/-! DEFINITION. The word types of SPRINTZ-CORE. -/

namespace Sys2Proof

/-- The addressable unit of both memories and the width of one data element (R7, R61). -/
abbrev Byte := BitVec 8

/-- The width of a command word, of a response word and of a stripe's eight bytes (R105, R112, R66). -/
abbrev Word := BitVec 64

/-- An address in either memory space: `ADDR_W = 48` (R10, R61). -/
abbrev Addr := BitVec 48

end Sys2Proof
end

