-- ==== Sys2Proof/Syntax.lean ====
section
/-! DEFINITION. The commands of SPRINTZ-CORE: one constructor for each row of the opcode map (R107). -/

namespace Sys2Proof

/-- A command with its operands (R105 to R107). -/
inductive Instr where
  /-- INIT (R143): the number of dimensions and the two mode bits. -/
  | init (d : BitVec 16) (delta rle : Bool)
  /-- SETSRC (R144): the byte address of the next input byte. -/
  | setsrc (addr : Addr)
  /-- SETDST (R145): the byte address of the next output byte. -/
  | setdst (addr : Addr)
  /-- RDREG (R146): the index of the register read (R37). -/
  | rdreg (idx : BitVec 8)
  /-- ANLZ (R161): the bit-width analyzer. -/
  | anlz
  /-- PACK (R172): the stripe packer. -/
  | pack
  /-- UNPACK (R178): the stripe unpacker. -/
  | unpack
  /-- GRPBEG (R192): opens a group on encode. -/
  | grpbeg
  /-- HDRPUT (R195): deposits one block's width codes. -/
  | hdrput
  /-- HDRDEC (R198): decodes a group header. -/
  | hdrdec
  /-- ZZENC (R212): delta and zig-zag encode. -/
  | zzenc
  /-- ZZDEC (R215): zig-zag and delta decode. -/
  | zzdec
  /-- RLE (R222): one step of the run detector. -/
  | rle
  /-- RLEFLUSH (R226): the boundary rule at the end of input. -/
  | rleflush
  /-- RLEDEC (R228): expands one run. -/
  | rledec
deriving DecidableEq, Repr

end Sys2Proof
end

