-- ==== Sys2Proof/WellFormed.lean ====
section
/-! DEFINITION. Which commands have an encoding. The operand types already bound `D`, the addresses and the
mode bits to their fields; the one check left is RDREG's index. -/

namespace Sys2Proof

/-- The largest register index RDREG may name (R37, R116 (c)). -/
def maxRegIndex : Nat := 10

/-- The command has a legal word: RDREG names one of the eleven registers (R116 (c)). INIT with operand values
that fault is a legal word (R116). -/
def Instr.wellFormed : Instr → Bool
  | .init _ _ _ => true
  | .setsrc _ => true
  | .setdst _ => true
  | .rdreg idx => idx.toNat ≤ maxRegIndex
  | .anlz => true
  | .pack => true
  | .unpack => true
  | .grpbeg => true
  | .hdrput => true
  | .hdrdec => true
  | .zzenc => true
  | .zzdec => true
  | .rle => true
  | .rleflush => true
  | .rledec => true

end Sys2Proof
end

