-- ==== Sys2Proof/Decode.lean ====
section
/-! DEFINITION. The decoder of 64-bit command words, total, rejecting by name, and the encoder (R105 to R107,
R116). -/

namespace Sys2Proof

/-- Why a word is illegal (R116). -/
inductive DecodeError where
  /-- R116 (a): `op` is not in the opcode map. -/
  | unknownOp
  /-- R116 (b): a bit that must be 0 is 1. -/
  | reservedBits
  /-- R116 (c): RDREG with an index above 10. -/
  | badRegister
deriving DecidableEq, Repr

/-- `op = cmd[7:0]` (R105). -/
def opField (w : Word) : BitVec 8 := w.extractLsb' 0 8

/-- `flags = cmd[15:8]` (R105). -/
def flagsField (w : Word) : BitVec 8 := w.extractLsb' 8 8

/-- `arg = cmd[63:16]` (R105). -/
def argField (w : Word) : BitVec 48 := w.extractLsb' 16 48

/-- Format N: everything above `op` is 0 (R106). -/
def decodeN (w : Word) (i : Instr) : Except DecodeError Instr :=
  if flagsField w = 0 ∧ argField w = 0 then .ok i else .error .reservedBits

/-- Format C: `D` in bits 31:16, `RLE` in bit 9, `DELTA` in bit 8 (R106). -/
def decodeC (w : Word) : Except DecodeError Instr :=
  if w.extractLsb' 10 6 = 0 ∧ w.extractLsb' 32 32 = 0 then
    .ok (.init (w.extractLsb' 16 16) (w.getLsbD 8) (w.getLsbD 9))
  else .error .reservedBits

/-- Format A: a 48-bit address in bits 63:16 (R106). -/
def decodeA (w : Word) (i : Addr → Instr) : Except DecodeError Instr :=
  if flagsField w = 0 then .ok (i (argField w)) else .error .reservedBits

/-- Format R: a register index in bits 23:16 (R106). -/
def decodeR (w : Word) : Except DecodeError Instr :=
  if flagsField w = 0 ∧ w.extractLsb' 24 40 = 0 then
    if (w.extractLsb' 16 8).toNat ≤ maxRegIndex then .ok (.rdreg (w.extractLsb' 16 8))
    else .error .badRegister
  else .error .reservedBits

/-- The command a 64-bit word stands for (R107), or why it is illegal (R116). -/
def decode (w : Word) : Except DecodeError Instr :=
  match (opField w).toNat with
  | 0x01 => decodeC w
  | 0x02 => decodeA w .setsrc
  | 0x03 => decodeA w .setdst
  | 0x04 => decodeR w
  | 0x10 => decodeN w .anlz
  | 0x20 => decodeN w .pack
  | 0x21 => decodeN w .unpack
  | 0x30 => decodeN w .grpbeg
  | 0x31 => decodeN w .hdrput
  | 0x32 => decodeN w .hdrdec
  | 0x40 => decodeN w .zzenc
  | 0x41 => decodeN w .zzdec
  | 0x50 => decodeN w .rle
  | 0x51 => decodeN w .rleflush
  | 0x52 => decodeN w .rledec
  | _ => .error .unknownOp

/-- A format N word (R106). -/
def encodeN (op : BitVec 8) : Word := 0#48 ++ 0#8 ++ op

/-- A format A word (R106). -/
def encodeA (op : BitVec 8) (a : Addr) : Word := a ++ 0#8 ++ op

/-- The word of a command, from the formats of R106 and the opcode map of R107. -/
def encode : Instr → Word
  | .init d delta rle => 0#32 ++ d ++ 0#6 ++ BitVec.ofBool rle ++ BitVec.ofBool delta ++ 0x01#8
  | .setsrc a => encodeA 0x02 a
  | .setdst a => encodeA 0x03 a
  | .rdreg idx => 0#40 ++ idx ++ 0#8 ++ 0x04#8
  | .anlz => encodeN 0x10
  | .pack => encodeN 0x20
  | .unpack => encodeN 0x21
  | .grpbeg => encodeN 0x30
  | .hdrput => encodeN 0x31
  | .hdrdec => encodeN 0x32
  | .zzenc => encodeN 0x40
  | .zzdec => encodeN 0x41
  | .rle => encodeN 0x50
  | .rleflush => encodeN 0x51
  | .rledec => encodeN 0x52

/-- The command word whose low `nbits` bits are `w` and whose other bits are 0. A command is one 64-bit word
(R105), so nothing is laid out in bytes. -/
def tableWord (nbits w : Nat) : Word := BitVec.ofNat 64 (w % 2 ^ nbits)

/-- What the decoder reads from a word of the opcode table. -/
def decodeTableWord (nbits w : Nat) : Option Instr :=
  match decode (tableWord nbits w) with
  | .ok i => some i
  | .error _ => none

end Sys2Proof
end

