-- ==== Sys2Proof/Config.lean ====
section
/-! DEFINITION. What is fixed for the machine: the constants of the stream format (R7), the implementation
parameters with their spec values (R10), and the free values, which no rule of spec/ fixes. -/

namespace Sys2Proof.Config

/-- Records per block (R7). -/
def blockSz : Nat := 8

/-- Dimensions per stripe (R7). -/
def stripeSz : Nat := 8

/-- Blocks per group (R7). -/
def groupSzBlocks : Nat := 2

/-- Header bits per dimension and slot (R7). -/
def nbitsSzBits : Nat := 3

/-- One more than the largest address: no space maps more than `2^48` bytes (R10, R62). -/
def addrLimit : Nat := 2 ^ 48

/-- `D` of rowmajor-delta-rle stays below this (R8, R22). -/
def rleDimLimit : Nat := 1024

/-- The default of the parameter `MAX_RUN_NBLOCKS` (R10). -/
def maxRunDefault : BitVec 15 := 0x7FFF

/-- The byte an address that nothing has written reads as. DESIGN CHOICE, unsafe: the spec leaves it to the
host's memory (R39); see notes/assumptions/2.md. -/
def unlistedByte : Byte := 0

/-- DESIGN CHOICE, safe: the value `SRCP` takes when its advance reaches `2^48`, which does not fit 48 bits
and for which no rule states a value (R26 says the case does not arise; a window of exactly `2^48` bytes read up
to its last byte is the one case where it does). The argument is the step counter of the state. See
notes/assumptions/4.md. -/
opaque freeSrcp : Nat → Addr

/-- DESIGN CHOICE, safe: as `freeSrcp`, for `DSTP`. See notes/assumptions/4.md. -/
opaque freeDstp : Nat → Addr

end Sys2Proof.Config
end

