-- ==== Sys2Proof/Machine/State.lean ====
section
/-! DEFINITION. The state of SPRINTZ-CORE as plain data (10_state.md), its two memories (20_memory.md), its
command and response ports, and the state after reset (R38). -/

namespace Sys2Proof.Machine

/-- Why a step stops the model. A fault of the core (R271) is no such stop: the command answers with a status
and the core goes on (R270). -/
inductive Fault where
  /-- Raised by `step` for a host write to an address that its space does not map (R62). The spec gives the
  host no such access. DESIGN CHOICE (notes/assumptions/3.md). Safe: the model stops. -/
  | hostOutsideWindow
deriving DecidableEq, Repr

/-- Why an instruction has no meaning. -/
inductive Refusal where
  /-- An instruction without a meaning. Raised by no arm: every command has its meaning. Safe. -/
  | notModelled (mnemonic : String)
deriving DecidableEq, Repr

/-- `GRP`: which command opened the group (R23, R26). The code that never occurs has no constructor (DEDUCED, safe,
notes/assumptions/12.md). -/
inductive Grp where
  | none | enc | dec
deriving DecidableEq, Repr

/-- `PH`: the phase of the block in hand (R27). As for `Grp` (DEDUCED, safe, notes/assumptions/12.md). -/
inductive Phase where
  | idle | loaded | analyzed | headered | unpacked
deriving DecidableEq, Repr

/-- The fault codes of R271, OK left out. -/
inductive FaultCode where
  | illcmd | faulted | notcfg | mode | seq | dim | dimrange | bus
deriving DecidableEq, Repr

/-- The outcome codes of a successful response (R113). -/
inductive RspOutcome where
  | none | absorb | close | pass
deriving DecidableEq, Repr

/-- The two memory spaces (R60). -/
inductive SpaceId where
  | src | dst
deriving DecidableEq, Repr

/-- A memory space: the window `0 .. size - 1` it maps (R62) and the bytes in it that differ from
`Config.unlistedByte`, by rising address. -/
structure Memory where
  size : Nat
  cells : List Host.Cell
deriving DecidableEq, Repr

/-- The encoder analysis tables, written by ANLZ (R32). Indices are dimensions for `w`, `h`, `weff` and
stripes for `sbw`, `smask`, `shdr`. A table has as many entries as `D` gives it (DEDUCED, safe,
notes/assumptions/10.md). -/
structure Analysis where
  w : List (BitVec 4)
  h : List (BitVec 3)
  weff : List (BitVec 4)
  sbw : List (BitVec 7)
  smask : List Word
  shdr : List (BitVec 24)
  rowbits : BitVec 20
  rowbytes : BitVec 16
  zb : Bool
deriving DecidableEq, Repr

/-- The decoder tables of one slot, written by HDRDEC (R33). -/
structure SlotTables where
  gh : List (BitVec 3)
  gw : List (BitVec 4)
  gsbw : List (BitVec 7)
  gmask : List Word
  growbits : BitVec 20
  growbytes : BitVec 16
  zbs : Bool
deriving DecidableEq, Repr

/-- What the host, the only other actor (R20), does at the ports and, between commands, to the memories. Held in the
state as a list (DESIGN CHOICE, safe, notes/assumptions/5.md); nothing of it falls within a command (DESIGN CHOICE,
notes/assumptions/7.md, 17.md). -/
inductive HostEvent where
  /-- A command word on the command port (R21, R105). -/
  | command (w : Word)
  /-- The input `rst`, between commands (R300). -/
  | reset
  /-- The host writes bytes of SRC (R60). -/
  | writeSrc (a : Addr) (bs : List Byte)
  /-- The host writes bytes of DST (R60). -/
  | writeDst (a : Addr) (bs : List Byte)
deriving DecidableEq, Repr

/-- The whole machine: the registers of 10_state.md, the two memories, the ports, and the model's own
`tick`. -/
structure State where
  /-- `CFG.D` (R22). -/
  cfgD : BitVec 16
  /-- `CFG.DELTA` (R22). -/
  cfgDelta : Bool
  /-- `CFG.RLE` (R22). -/
  cfgRle : Bool
  /-- `STATUS.CFGD` (R23). -/
  cfgd : Bool
  /-- `STATUS.FAULT`, sticky (R23, R276). -/
  fault : Bool
  /-- `ECODE` (R24). -/
  ecode : BitVec 8
  /-- `SRCP` (R26). -/
  srcp : Addr
  /-- `DSTP` (R26). -/
  dstp : Addr
  /-- `HDRP` (R26). -/
  hdrp : Addr
  /-- `HCUR` (R26). -/
  hcur : BitVec 19
  /-- `BLK` (R26). -/
  blk : BitVec 2
  /-- `GRP` (R23, R26). -/
  grp : Grp
  /-- `PH` (R27). -/
  ph : Phase
  /-- `RUN` (R28). -/
  run : BitVec 15
  /-- `FIRST` (R29). -/
  first : Bool
  /-- `BLKBUF`, eight rows of `8 * NSTRIPES` bytes (R30). -/
  blkbuf : List (List Byte)
  /-- `PREV`, `D` bytes (R31). -/
  prev : List Byte
  /-- The encoder analysis tables (R32). -/
  an : Analysis
  /-- The decoder tables of slot 0 (R33). -/
  g0 : SlotTables
  /-- The decoder tables of slot 1 (R33). -/
  g1 : SlotTables
  /-- The space SRC (R60). -/
  src : Memory
  /-- The space DST (R60). -/
  dst : Memory
  /-- The parameter `MAX_RUN_NBLOCKS` of the instance (R10). No step changes it (DESIGN CHOICE, unsafe,
  notes/assumptions/9.md). -/
  maxRun : BitVec 15
  /-- What the host does next, in order (R16: a program is a sequence of command words issued by the host).
  DESIGN CHOICE, safe, notes/assumptions/5.md. -/
  host : List HostEvent
  /-- The response port: the answer to the latest command, none since reset (R112, R300). DESIGN CHOICE, safe,
  notes/assumptions/8.md. -/
  rsp : Option Word
  /-- The model's own: counts host events, so that each step draws a fresh free value. DESIGN CHOICE, safe,
  notes/assumptions/11.md. -/
  tick : Nat
deriving DecidableEq, Repr

/-- The machine right after reset (R38, R301). The tables have `D = 0` dimensions, so no entry. The windows
are the largest the spec allows (DESIGN CHOICE, notes/assumptions/1.md), the cap is its default (R10), the host
has nothing to do yet. -/
def State.reset : State :=
  { cfgD := 0, cfgDelta := false, cfgRle := false, cfgd := false, fault := false, ecode := 0,
    srcp := 0, dstp := 0, hdrp := 0, hcur := 0, blk := 2, grp := .none, ph := .idle, run := 0, first := true,
    blkbuf := [[], [], [], [], [], [], [], []], prev := [],
    an := { w := [], h := [], weff := [], sbw := [], smask := [], shdr := [], rowbits := 0, rowbytes := 0, zb := false },
    g0 := { gh := [], gw := [], gsbw := [], gmask := [], growbits := 0, growbytes := 0, zbs := false },
    g1 := { gh := [], gw := [], gsbw := [], gmask := [], growbits := 0, growbytes := 0, zbs := false },
    src := { size := Config.addrLimit, cells := [] }, dst := { size := Config.addrLimit, cells := [] },
    maxRun := Config.maxRunDefault, host := [], rsp := none, tick := 0 }

end Sys2Proof.Machine
end

