-- ==== Sys2Proof/Machine/Flags.lean ====
section
/-! DEFINITION. Codes, flags and the registers assembled from them: STATUS (R23), CFG (R22), the response word
(R112). -/

namespace Sys2Proof.Machine

/-- The two bits of `GRP` in STATUS (R23). -/
def Grp.code : Grp → BitVec 2
  | .none => 0
  | .enc => 1
  | .dec => 2

/-- The three bits of `PH` in STATUS (R27). -/
def Phase.code : Phase → BitVec 3
  | .idle => 0
  | .loaded => 1
  | .analyzed => 2
  | .headered => 3
  | .unpacked => 4

/-- The status code of a fault (R271). -/
def FaultCode.code : FaultCode → BitVec 8
  | .illcmd => 1
  | .faulted => 2
  | .notcfg => 3
  | .mode => 4
  | .seq => 5
  | .dim => 6
  | .dimrange => 7
  | .bus => 8

/-- The outcome code of a response (R113). -/
def RspOutcome.code : RspOutcome → BitVec 8
  | .none => 0
  | .absorb => 1
  | .close => 2
  | .pass => 3

/-- The response word: `status` in bits 7:0, `outcome` in bits 15:8, `value` in bits 63:16 (R112). -/
def rspWord (status outcome : BitVec 8) (value : BitVec 48) : Word := value ++ outcome ++ status

/-- `ZB` and `ZBS`: the row has no bits (R165, R202). -/
def zeroRow (rowbits : BitVec 20) : Bool := rowbits == 0

/-- STATUS, with its reserved bits 0 (R23). -/
def statusWord (s : State) : BitVec 48 :=
  0#37 ++ BitVec.ofBool s.g1.zbs ++ BitVec.ofBool s.g0.zbs ++ s.ph.code ++ s.grp.code ++
    BitVec.ofBool s.first ++ BitVec.ofBool s.an.zb ++ BitVec.ofBool s.fault ++ BitVec.ofBool s.cfgd

/-- CFG: `D` in bits 15:0, `DELTA` in bit 16, `RLE` in bit 17 (R22). -/
def cfgWord (s : State) : BitVec 48 :=
  0#30 ++ BitVec.ofBool s.cfgRle ++ BitVec.ofBool s.cfgDelta ++ s.cfgD

end Sys2Proof.Machine
end

