-- ==== Sys2Proof/Machine/Primitives.lean ====
section
/-! DEFINITION. The pure functions every unit is built from (40_primitives_control.md part 1) and the byte order
of R12 and R66. -/

namespace Sys2Proof.Machine

/-- The integer of a little-endian byte string (R12, R63). -/
def bytesToNat : List Byte → Nat
  | [] => 0
  | b :: bs => b.toNat + 256 * bytesToNat bs

/-- The low `8 * n` bits of `v` as `n` bytes, little-endian (R12, R64). -/
def natToBytes (n v : Nat) : List Byte :=
  (List.range n).map fun k => BitVec.ofNat 8 (v >>> (8 * k))

/-- The integer whose bit `k` is the `k`-th entry. -/
def bitsToNat : List Bool → Nat
  | [] => 0
  | b :: bs => b.toNat + 2 * bitsToNat bs

/-- The positions `p_0 < p_1 < ..` of the set bits of a mask (R130). -/
def maskPositions (m : Word) : List Nat :=
  (List.range 64).filter fun p => m.getLsbD p

/-- `popcount(m)` (R11). -/
def popcount (m : Word) : Nat := (maskPositions m).length

/-- How many set bits of `m` lie below position `p`: the `k` for which `p = p_k` where bit `p` is set (R130). -/
def rank (m : Word) (p : Nat) : Nat :=
  ((List.range p).filter fun q => m.getLsbD q).length

/-- Parallel bit extract: bit `k` of the result is bit `p_k` of `x` (R130). PRESUMED by the spec itself, unsafe,
notes/assumptions/16.md. -/
def pext (x m : Word) : Word :=
  BitVec.ofNat 64 (bitsToNat ((maskPositions m).map fun p => x.getLsbD p))

/-- Parallel bit deposit: bit `p_k` of the result is bit `k` of `x`, every other bit is 0 (R131).
PRESUMED by the spec itself, unsafe, notes/assumptions/16.md. -/
def pdep (x m : Word) : Word :=
  BitVec.ofNat 64 (bitsToNat ((List.range 64).map fun p => m.getLsbD p && x.getLsbD (rank m p)))

/-- Zig-zag encode of one byte: `(δ << 1) ^ (δ >>a 7)` on 8 bits (R132). -/
def zz (b : Byte) : Byte := (b <<< 1) ^^^ b.sshiftRight 7

/-- Zig-zag decode of one byte: `(u >> 1) ^ -(u & 1)` on 8 bits (R133). -/
def unzz (u : Byte) : Byte := (u >>> 1) ^^^ (-(u &&& 1))

/-- The OR of the bytes, whose highest set bit gives the width (R134). -/
def orBytes : List Byte → Byte
  | [] => 0
  | b :: bs => b ||| orBytes bs

/-- The position of the highest set bit plus one, 0 for 0 (R134). -/
def bitLength (m : Byte) : Nat := if m = 0 then 0 else m.toNat.log2 + 1

/-- The smallest width every one of the values fits in (R134). -/
def neededNbits (vs : List Byte) : Nat := bitLength (orBytes vs)

/-- The table `NBITS_MASKS_U8`: the smallest mask `2^k - 1` that covers `b` (R135). -/
def nbitsMaskU8 (b : Byte) : Byte := BitVec.ofNat 8 (2 ^ bitLength b - 1)

/-- The table `NBITS_MASK`, by width code (R34, R136). -/
def nbitsMaskTable : List Byte := [0x00, 0x01, 0x03, 0x07, 0x0f, 0x1f, 0x3f, 0xff]

/-- `NBITS_MASK[c]` (R136). -/
def nbitsMask (c : BitVec 3) : Byte := nbitsMaskTable.getD c.toNat 0

/-- `TILE7`: the low three bits of each byte (R137). -/
def tile7 : Word := 0x0707070707070707

/-- The header code of a minimum width: `w - [w = 8]` (R91, R163). -/
def widthCode (w : Nat) : BitVec 3 := BitVec.ofNat 3 (if w = 8 then 7 else w)

/-- The width a code packs with: `c + [c = 7]` (R91, R163, R201). -/
def codeWidth (c : BitVec 3) : BitVec 4 := if c = 7 then 8 else c.setWidth 4

/-- The bytes of a run-length field (R97, R221). -/
def lenfield (n : Nat) : List Byte :=
  if n ≤ 0x7F then [BitVec.ofNat 8 n] else [BitVec.ofNat 8 (0x80 ||| (n &&& 0x7F)), BitVec.ofNat 8 (n >>> 7)]

/-- Whether a length field that starts with `b0` has a second byte (R225). -/
def lenfieldLong (b0 : Byte) : Bool := b0.getLsbD 7

/-- The length a field stands for; the second byte counts only if the first says so (R225). -/
def lenfieldValue (b0 b1 : Byte) : Nat :=
  if lenfieldLong b0 then (b0 &&& 0x7F).toNat ||| b1.toNat <<< 7 else (b0 &&& 0x7F).toNat

end Sys2Proof.Machine
end

