-- ==== Sys2Proof/Machine/Ops.lean ====
section
/-! DEFINITION. The named operations over the memories (20_memory.md), the response, taking a fault (R276), the
two ways out of one (R281), the check order of R141, and the host's own actions (R60, R300). -/

namespace Sys2Proof.Machine

/-- The canonical form of a memory: the window is legal (R62), the listed addresses rise strictly and lie in the
window, and no listed byte is the one an unlisted address reads as. -/
abbrev Memory.wf (m : Memory) : Prop :=
  m.size ≤ Config.addrLimit ∧ m.cells.Pairwise (fun x y => x.1 < y.1) ∧
    ∀ c ∈ m.cells, c.1 < m.size ∧ c.2 ≠ Config.unlistedByte

/-- The byte at an address (R61). -/
def Memory.byte (m : Memory) (a : Nat) : Byte := (m.cells.lookup a).getD Config.unlistedByte

/-- The bytes `a .. a + n - 1`, lowest address first. -/
def Memory.bytes (m : Memory) (a n : Nat) : List Byte := (List.range n).map fun k => m.byte (a + k)

/-- `MemRead`: the bytes `a .. a + n - 1` as a little-endian integer (R63). -/
def Memory.read (m : Memory) (a n : Nat) : Nat := bytesToNat (m.bytes a n)

/-- The cells of a byte string placed at `a`: its bytes that an unlisted address does not read as. -/
def cellsFrom : Nat → List Byte → List Host.Cell
  | _, [] => []
  | a, b :: bs => if b = Config.unlistedByte then cellsFrom (a + 1) bs else (a, b) :: cellsFrom (a + 1) bs

/-- Bytes written at `a`, `a + 1`, .. (R64); keeps the canonical form. A command's run of writes is one `put`
(DEDUCED, safe, notes/assumptions/14.md). -/
def Memory.put (m : Memory) (a : Nat) (bs : List Byte) : Memory :=
  { m with cells := m.cells.filter (fun c => decide (c.1 < a)) ++ cellsFrom a bs ++
      m.cells.filter (fun c => decide (a + bs.length ≤ c.1)) }

/-- `MemWrite`: the low `8 * n` bits of `v`, little-endian, at `a .. a + n - 1` (R64). -/
def Memory.write (m : Memory) (a n v : Nat) : Memory := m.put a (natToBytes n v)

/-- `MemOr`: a read and a write of the same bytes (R65). -/
def Memory.or (m : Memory) (a n v : Nat) : Memory := m.write a n (m.read a n ||| v)

/-- `n` bytes 0 at `a` (the zero fills of R177, R192, R229). -/
def Memory.zero (m : Memory) (a n : Nat) : Memory := m.put a (List.replicate n 0)

/-- `memrep`: `n` copies, one after the other, of the `size` bytes at `src`, which are read first (R138). -/
def Memory.memrep (m : Memory) (dst src size n : Nat) : Memory :=
  m.put dst (List.replicate n (m.bytes src size)).flatten

/-- One access of a footprint (R68): its space, its first address, which RLEDEC can put below 0 (R228), and
its length in bytes. -/
structure Access where
  space : SpaceId
  addr : Int
  len : Nat
deriving DecidableEq, Repr

/-- The window of a space (R62). -/
def State.space (s : State) : SpaceId → Memory
  | .src => s.src
  | .dst => s.dst

/-- Every byte of the access lies in its window and in `0 .. 2^48 - 1` (R62, R279). -/
def Access.inWindow (s : State) (a : Access) : Bool :=
  a.len == 0 || (decide (0 ≤ a.addr) && decide (a.addr + a.len ≤ (s.space a.space).size) &&
    decide (a.addr + a.len ≤ Config.addrLimit))

/-- Ending without fault: the response carries an outcome and a value (R13, R112). -/
def State.respond (s : State) (o : RspOutcome) (value : BitVec 48) : State :=
  { s with rsp := some (rspWord 0 o.code value) }

/-- Taking a fault: `FAULT` is set, `ECODE` keeps the first code, the response is the code, and nothing else
changes (R276). -/
def State.raise (s : State) (c : FaultCode) : State :=
  { s with fault := true, ecode := if s.fault then s.ecode else c.code, rsp := some (rspWord c.code 0 0) }

/-- Analysis tables of `ns` stripes that hold 0 (R38). -/
def Analysis.zero (ns : Nat) : Analysis :=
  { w := List.replicate (8 * ns) 0, h := List.replicate (8 * ns) 0, weff := List.replicate (8 * ns) 0,
    sbw := List.replicate ns 0, smask := List.replicate ns 0, shdr := List.replicate ns 0,
    rowbits := 0, rowbytes := 0, zb := false }

/-- Decoder tables of `ns` stripes that hold 0 (R38). -/
def SlotTables.zero (ns : Nat) : SlotTables :=
  { gh := List.replicate (8 * ns) 0, gw := List.replicate (8 * ns) 0, gsbw := List.replicate ns 0,
    gmask := List.replicate ns 0, growbits := 0, growbytes := 0, zbs := false }

/-- Reset between commands: every register takes its reset value, no response is pending, the memories stay
(R300). One of the two ways out of a fault (R281). DESIGN CHOICE, unsafe: it falls between commands only
(notes/assumptions/7.md). -/
def State.rst (s : State) : State :=
  { State.reset with src := s.src, dst := s.dst, maxRun := s.maxRun, host := s.host, tick := s.tick }

/-- The number of stripes of `d` dimensions (R9). -/
def stripesOf (d : Nat) : Nat := (d + 7) / 8

/-- The state INIT leaves: every register at its reset value, the tables with the shape of `D`, `CFG` loaded,
`CFGD` set (R38, R143). The other way out of a fault (R281). -/
def State.configure (s : State) (d : BitVec 16) (delta rle : Bool) : State :=
  { s.rst with
    cfgD := d, cfgDelta := delta, cfgRle := rle, cfgd := true, rsp := s.rsp,
    blkbuf := List.replicate 8 (List.replicate (8 * stripesOf d.toNat) 0), prev := List.replicate d.toNat 0,
    an := Analysis.zero (stripesOf d.toNat), g0 := SlotTables.zero (stripesOf d.toNat),
    g1 := SlotTables.zero (stripesOf d.toNat) }

/-- The checks 2 to 5 and 7 of R141 in their order, then the effect: `modeOk` says that the command exists in the
configured mode, `seqOk` that the table R274 admits it, `fp` is its footprint. -/
def State.checked (s : State) (modeOk seqOk : Bool) (fp : List Access) (effect : State) : State :=
  if s.fault then s.raise .faulted
  else if !s.cfgd then s.raise .notcfg
  else if !modeOk then s.raise .mode
  else if !seqOk then s.raise .seq
  else if !fp.all (Access.inWindow s) then s.raise .bus
  else effect

/-- `SRCP` moved up by `n` (R26). Where the sum does not fit 48 bits the value is free (DESIGN CHOICE, safe,
notes/assumptions/4.md). -/
def State.advanceSrcp (s : State) (n : Nat) : Addr :=
  if s.srcp.toNat + n < Config.addrLimit then BitVec.ofNat 48 (s.srcp.toNat + n) else Config.freeSrcp s.tick

/-- `DSTP` moved up by `n` (R26). Where the sum does not fit 48 bits the value is free (DESIGN CHOICE, safe,
notes/assumptions/4.md). -/
def State.advanceDstp (s : State) (n : Nat) : Addr :=
  if s.dstp.toNat + n < Config.addrLimit then BitVec.ofNat 48 (s.dstp.toNat + n) else Config.freeDstp s.tick

/-- `HCUR` moved up by `n` (R26). Wraps in states no run reaches (DESIGN CHOICE, safe, notes/assumptions/19.md). -/
def State.advanceHcur (s : State) (n : Nat) : BitVec 19 := BitVec.ofNat 19 (s.hcur.toNat + n)

/-- The host's next action is taken from its list, and the step counter moves on. -/
def State.accept (s : State) (rest : List HostEvent) : State :=
  { s with host := rest, tick := s.tick + 1 }

/-- The bytes lie in a window (R62). -/
def Memory.maps (m : Memory) (a : Addr) (bs : List Byte) : Bool := decide (a.toNat + bs.length ≤ m.size)

/-- The host writes SRC between commands (R60). -/
def State.hostWriteSrc (s : State) (a : Addr) (bs : List Byte) : Host.Outcome State Fault Refusal :=
  if s.src.maps a bs then .next { s with src := s.src.put a.toNat bs } else .fault .hostOutsideWindow

/-- The host writes DST between commands (R60). -/
def State.hostWriteDst (s : State) (a : Addr) (bs : List Byte) : Host.Outcome State Fault Refusal :=
  if s.dst.maps a bs then .next { s with dst := s.dst.put a.toNat bs } else .fault .hostOutsideWindow

end Sys2Proof.Machine
end

