-- ==== Sys2Proof/Machine/Operands.lean ====
section
/-! DEFINITION. The operands of the commands: the quantities derived from `D` (R9), the block in hand (R160),
the slot in hand, the packed-row geometry (R171), the stripe tables (R164, R202) and the registers RDREG reads
(R37). -/

namespace Sys2Proof.Machine

/-- `D` (R8). -/
def State.D (s : State) : Nat := s.cfgD.toNat

/-- `NSTRIPES` (R9). -/
def State.nstripes (s : State) : Nat := stripesOf s.D

/-- `ND(st)`: the dimensions of a stripe (R9). -/
def State.nd (s : State) (st : Nat) : Nat := if st + 1 < s.nstripes then 8 else s.D - 8 * st

/-- `BLOCK_BYTES` (R9). -/
def State.blockBytes (s : State) : Nat := 8 * s.D

/-- `GROUP_BYTES` (R9). -/
def State.groupBytes (s : State) : Nat := 16 * s.D

/-- `HEADER_BITS` (R9). -/
def State.headerBits (s : State) : Nat := 6 * s.D

/-- `HEADER_BYTES` (R9). -/
def State.headerBytes (s : State) : Nat := (s.headerBits + 7) / 8

/-- `D_PADDED` (R9): named by the spec, read by no command (R30). -/
def State.dPadded (s : State) : Nat := 32 * ((s.D + 31) / 32)

/-- `WLEN` (R9): the length of the source's flat width array (R200). -/
def State.wlen (s : State) : Nat := s.nstripes * 8 * Config.groupSzBlocks

/-- `BLKBUF[i][j]` (R30). -/
def State.blkAt (s : State) (i j : Nat) : Byte := (s.blkbuf.getD i []).getD j 0

/-- `PREV[d]` (R31). -/
def State.prevAt (s : State) (d : Nat) : Byte := s.prev.getD d 0

/-- The input byte of record `i` and dimension `d` of the block at `SRCP` (R160, R212). -/
def State.srcAt (s : State) (i d : Nat) : Byte := s.src.byte (s.srcp.toNat + i * s.D + d)

/-- `val(i, d)`: the byte the analyzer and the packer take (R160). -/
def State.val (s : State) (i d : Nat) : Byte := if s.cfgDelta then s.blkAt i d else s.srcAt i d

/-- The decoder tables of the slot in hand (R178). -/
def State.slot (s : State) : SlotTables := if s.blk = 0 then s.g0 else s.g1

/-- `off[st]`: the bit offset of a stripe in a packed row (R171). -/
def bitOff (sbw : List (BitVec 7)) (st : Nat) : Nat := ((List.range st).map fun t => (sbw.getD t 0).toNat).sum

/-- `bo[st]` (R171). -/
def byteOff (sbw : List (BitVec 7)) (st : Nat) : Nat := bitOff sbw st / 8

/-- `sh[st]` (R171). -/
def bitShift (sbw : List (BitVec 7)) (st : Nat) : Nat := bitOff sbw st % 8

/-- The stripe spans nine bytes: the 9B variant (R171). -/
def nineBytes (sbw : List (BitVec 7)) (st : Nat) : Bool := decide (64 < (sbw.getD st 0).toNat + bitShift sbw st)

/-- The width of a stripe: the sum of the widths of its dimensions (R164, R202). -/
def stripeWidth (ws : List (BitVec 4)) (st : Nat) : BitVec 7 :=
  BitVec.ofNat 7 ((List.range 8).map fun j => (ws.getD (8 * st + j) 0).toNat).sum

/-- The mask of a stripe: byte `j` is the mask of dimension `8 st + j` (R164, R202). -/
def stripeMask (codes : List (BitVec 3)) (st : Nat) : Word :=
  BitVec.ofNat 64 ((List.range 8).map fun j => (nbitsMask (codes.getD (8 * st + j) 0)).toNat <<< (8 * j)).sum

/-- The header of a stripe with `nd` dimensions: the code of dimension `8 st + j` in bits `3j+2 : 3j` (R92, R164). -/
def stripeHeader (codes : List (BitVec 3)) (st nd : Nat) : BitVec 24 :=
  BitVec.ofNat 24 ((List.range nd).map fun j => (codes.getD (8 * st + j) 0).toNat <<< (3 * j)).sum

/-- The bits of a packed row: the sum of the stripe widths (R165, R202). -/
def rowBits (sbw : List (BitVec 7)) : BitVec 20 := BitVec.ofNat 20 (sbw.map BitVec.toNat).sum

/-- The bytes of a packed row (R165, R202). -/
def rowBytes (rowbits : BitVec 20) : BitVec 16 := BitVec.ofNat 16 ((rowbits.toNat + 7) / 8)

/-- The register RDREG reads at an index (R37); an index above 10 names none. -/
def State.readReg (s : State) (idx : BitVec 8) : Option (BitVec 48) :=
  match idx.toNat with
  | 0 => some (statusWord s)
  | 1 => some (cfgWord s)
  | 2 => some s.srcp
  | 3 => some s.dstp
  | 4 => some s.hdrp
  | 5 => some (s.hcur.setWidth 48)
  | 6 => some (s.blk.setWidth 48)
  | 7 => some (s.run.setWidth 48)
  | 8 => some (s.an.rowbits.setWidth 48)
  | 9 => some (s.an.rowbytes.setWidth 48)
  | 10 => some (s.ecode.setWidth 48)
  | _ => none

end Sys2Proof.Machine
end

