-- ==== Sys2Proof/Machine/Analyzer.lean ====
section
/-! DEFINITION. The bit-width analyzer ANLZ (41_bitwidth_analyzer.md). -/

namespace Sys2Proof.Machine

/-- `W[j]` as a number: the width of dimension `j`, 0 for a pad position (R162). -/
def State.widthOf (s : State) (j : Nat) : Nat :=
  if j < s.D then neededNbits ((List.range 8).map fun i => s.val i j) else 0

/-- The analysis of the block in hand (R161 to R165). -/
def State.analysis (s : State) : Analysis :=
  let ws := (List.range (8 * s.nstripes)).map s.widthOf
  let h := ws.map widthCode
  let weff := h.map codeWidth
  let sbw := (List.range s.nstripes).map (stripeWidth weff)
  { w := ws.map (BitVec.ofNat 4), h := h, weff := weff, sbw := sbw,
    smask := (List.range s.nstripes).map (stripeMask h),
    shdr := (List.range s.nstripes).map fun st => stripeHeader h st (s.nd st),
    rowbits := rowBits sbw, rowbytes := rowBytes (rowBits sbw), zb := zeroRow (rowBits sbw) }

/-- The bytes ANLZ reads: the block at `SRCP` when the delta stage is off (R68, R161). -/
def anlzFootprint (s : State) : List Access :=
  if s.cfgDelta then [] else [⟨.src, s.srcp.toNat, s.blockBytes⟩]

/-- The state after ANLZ (R161). -/
def anlzEffect (s : State) : State :=
  ({ s with an := s.analysis, ph := .analyzed } : State).respond .none 0

/-- ANLZ (R161, R274). -/
def execAnlz (s : State) : Host.Outcome State Fault Refusal :=
  .next <| s.checked true
    (s.grp == .enc && decide (s.blk.toNat < 2) && s.ph == (if s.cfgDelta then .loaded else .idle))
    (anlzFootprint s) (anlzEffect s)

end Sys2Proof.Machine
end

