-- ==== Sys2Proof/Machine/Control.lean ====
section
/-! DEFINITION. The control commands INIT, SETSRC, SETDST, RDREG (40_primitives_control.md part 2). -/

namespace Sys2Proof.Machine

/-- INIT (R143): admitted in every state; the operand checks in the order of R280. -/
def execInit (d : BitVec 16) (delta rle : Bool) (s : State) : Host.Outcome State Fault Refusal :=
  .next <|
    if rle && !delta then s.raise .mode
    else if d = 0 then s.raise .dim
    else if rle && decide (Config.rleDimLimit ≤ d.toNat) then s.raise .dimrange
    else (s.configure d delta rle).respond .none 0

/-- SETSRC (R144). -/
def execSetsrc (addr : Addr) (s : State) : Host.Outcome State Fault Refusal :=
  .next <| s.checked true (s.ph == .idle) [] (({ s with srcp := addr } : State).respond .none 0)

/-- SETDST (R145). -/
def execSetdst (addr : Addr) (s : State) : Host.Outcome State Fault Refusal :=
  .next <| s.checked true (s.ph == .idle) [] (({ s with dstp := addr } : State).respond .none 0)

/-- RDREG (R146): admitted in every state. An index above 10 has no legal word and is answered as R116 (c)
says (DEDUCED, safe, notes/assumptions/13.md). -/
def execRdreg (idx : BitVec 8) (s : State) : Host.Outcome State Fault Refusal :=
  match s.readReg idx with
  | some v => .next (s.respond .none v)
  | none => .next (s.raise .illcmd)

end Sys2Proof.Machine
end

