-- ==== Sys2Proof/Machine/Delta.lean ====
section
/-! DEFINITION. The delta and zig-zag stage ZZENC, ZZDEC (44_delta_zigzag.md). -/

namespace Sys2Proof.Machine

/-- The zig-zagged differences of a record from the one before it (R212). -/
def encRow (prev row : List Byte) : List Byte := List.zipWith (fun p x => zz (x - p)) prev row

/-- The rows of the block buffer for the records in order, each against the one before it (R212). -/
def encRows : List Byte → List (List Byte) → List (List Byte)
  | _, [] => []
  | prev, row :: rows => encRow prev row :: encRows row rows

/-- The record a row of zig-zagged differences stands for, given the one before it (R215). -/
def decRow (prev us : List Byte) : List Byte := List.zipWith (fun p u => p + unzz u) prev us

/-- The records that rows of zig-zagged differences stand for, in order (R215). -/
def decRows : List Byte → List (List Byte) → List (List Byte)
  | _, [] => []
  | prev, us :: rows => decRow prev us :: decRows (decRow prev us) rows

/-- `PREV` as `D` bytes (R31). -/
def State.prevRow (s : State) : List Byte := (List.range s.D).map s.prevAt

/-- The eight records of the block at `SRCP` (R212). -/
def State.srcRows (s : State) : List (List Byte) :=
  (List.range 8).map fun i => (List.range s.D).map fun d => s.srcAt i d

/-- The eight rows of `BLKBUF`, columns `0 .. D - 1` (R215). -/
def State.bufRows (s : State) : List (List Byte) :=
  (List.range 8).map fun i => (List.range s.D).map fun d => s.blkAt i d

/-- A row with its pad columns, which hold 0 (R30, R212). -/
def padRow (n : Nat) (row : List Byte) : List Byte := row ++ List.replicate (n - row.length) 0

/-- The state after ZZENC (R212). -/
def zzencEffect (s : State) : State :=
  ({ s with blkbuf := (encRows s.prevRow s.srcRows).map (padRow (8 * s.nstripes)),
            prev := s.srcRows.getLastD s.prevRow, ph := .loaded } : State).respond .none 0

/-- ZZENC (R212, R274). -/
def execZzenc (s : State) : Host.Outcome State Fault Refusal :=
  .next <| s.checked s.cfgDelta (s.ph == .idle && s.grp == .enc && decide (s.blk.toNat < 2))
    [⟨.src, s.srcp.toNat, s.blockBytes⟩] (zzencEffect s)

/-- The eight records ZZDEC reconstructs (R215). -/
def zzdecRows (s : State) : List (List Byte) := decRows s.prevRow s.bufRows

/-- The state after ZZDEC (R215, R216): exactly `8 * D` bytes are written. -/
def zzdecEffect (s : State) : State :=
  ({ s with dst := s.dst.put s.dstp.toNat (zzdecRows s).flatten, prev := (zzdecRows s).getLastD s.prevRow,
            dstp := s.advanceDstp s.blockBytes, blk := s.blk + 1, first := false, ph := .idle } : State).respond .none 0

/-- ZZDEC (R215, R274). -/
def execZzdec (s : State) : Host.Outcome State Fault Refusal :=
  .next <| s.checked s.cfgDelta (s.ph == .unpacked) [⟨.dst, s.dstp.toNat, s.blockBytes⟩] (zzdecEffect s)

end Sys2Proof.Machine
end

