-- ==== Sys2Proof/Machine/Header.lean ====
section
/-! DEFINITION. The header bit-stream codec GRPBEG, HDRPUT, HDRDEC (43_header_codec.md). -/

namespace Sys2Proof.Machine

/-- The state after GRPBEG (R192). -/
def grpbegEffect (s : State) : State :=
  ({ s with dst := s.dst.zero s.dstp.toNat s.headerBytes, hdrp := s.dstp, hcur := 0, blk := 0, grp := .enc,
            dstp := s.advanceDstp s.headerBytes } : State).respond .none 0

/-- GRPBEG (R192, R274). `RUN` is not tested (DEDUCED, safe, notes/assumptions/20.md). -/
def execGrpbeg (s : State) : Host.Outcome State Fault Refusal :=
  .next <| s.checked true (s.blk == 2 && (s.ph == .idle || s.ph == .analyzed))
    [⟨.dst, s.dstp.toNat, s.headerBytes⟩] (grpbegEffect s)

/-- The bit cursor of stripe `st`: every stripe before the last has contributed 24 bits (R194). -/
def putCursor (s : State) (st : Nat) : Nat := s.hcur.toNat + 24 * st

/-- The address of the header word that stripe `st` is ORed into (R195). -/
def putAt (s : State) (st : Nat) : Nat := s.hdrp.toNat + putCursor s st / 8

/-- One stripe header deposited (R195). -/
def putStripe (s : State) (m : Memory) (st : Nat) : Memory :=
  m.or (putAt s st) 4 ((s.an.shdr.getD st 0).toNat <<< (putCursor s st % 8))

/-- DST after HDRPUT: the stripes ascending (R195). -/
def hdrputDst (s : State) : Memory := (List.range s.nstripes).foldl (putStripe s) s.dst

/-- The footprint of HDRPUT (R68, R196). -/
def hdrputFootprint (s : State) : List Access :=
  (List.range s.nstripes).map fun st => ⟨.dst, putAt s st, 4⟩

/-- The state after HDRPUT (R195). -/
def hdrputEffect (s : State) : State :=
  ({ s with dst := hdrputDst s, hcur := s.advanceHcur (3 * s.D), ph := .headered } : State).respond .none 0

/-- HDRPUT (R195, R274): in rowmajor-delta-rle no open run and no zero block. -/
def execHdrput (s : State) : Host.Outcome State Fault Refusal :=
  .next <| s.checked true
    (s.ph == .analyzed && decide (s.blk.toNat < 2) && (!s.cfgRle || (s.run == 0 && !s.an.zb)))
    (hdrputFootprint s) (hdrputEffect s)

/-- The stream bit at which stripe `st` of slot `b` starts (R93, R198). -/
def getCursor (s : State) (b st : Nat) : Nat := 3 * b * s.D + 24 * st

/-- The address of the header word that holds stripe `st` of slot `b` (R199). -/
def getAt (s : State) (b st : Nat) : Nat := s.srcp.toNat + getCursor s b st / 8

/-- The `3 * ND(st)` header bits of stripe `st` of slot `b` (R199). -/
def headerField (s : State) (b st : Nat) : Nat :=
  (s.src.read (getAt s b st) 4 >>> (getCursor s b st % 8)) % 2 ^ (3 * s.nd st)

/-- The eight codes of stripe `st` of slot `b`, spread by deposit (R199). -/
def stripeCodes (s : State) (b st : Nat) : List (BitVec 3) :=
  (List.range 8).map fun j => (pdep (BitVec.ofNat 64 (headerField s b st)) tile7).extractLsb' (8 * j) 3

/-- The decoder tables of `ns` stripes with the given codes (R201, R202). -/
def slotTables (ns : Nat) (gh : List (BitVec 3)) : SlotTables :=
  let gw := gh.map codeWidth
  let gsbw := (List.range ns).map (stripeWidth gw)
  { gh := gh, gw := gw, gsbw := gsbw, gmask := (List.range ns).map (stripeMask gh),
    growbits := rowBits gsbw, growbytes := rowBytes (rowBits gsbw), zbs := zeroRow (rowBits gsbw) }

/-- The codes of slot `b`: `GH[b]` (R198, R200). -/
def headerCodes (s : State) (b : Nat) : List (BitVec 3) := (List.range s.nstripes).flatMap (stripeCodes s b)

/-- The footprint of HDRDEC (R68, R203). -/
def hdrdecFootprint (s : State) : List Access :=
  [0, 1].flatMap fun b => (List.range s.nstripes).map fun st => ⟨.src, getAt s b st, 4⟩

/-- The state after HDRDEC (R198). -/
def hdrdecEffect (s : State) : State :=
  ({ s with g0 := slotTables s.nstripes (headerCodes s 0), g1 := slotTables s.nstripes (headerCodes s 1),
            srcp := s.advanceSrcp s.headerBytes, blk := 0, grp := .dec } : State).respond .none 0

/-- HDRDEC (R198, R274). -/
def execHdrdec (s : State) : Host.Outcome State Fault Refusal :=
  .next <| s.checked true (s.blk == 2 && s.ph == .idle) (hdrdecFootprint s) (hdrdecEffect s)

end Sys2Proof.Machine
end

