-- ==== Sys2Proof/Machine/Packer.lean ====
section
/-! DEFINITION. The stripe packer and unpacker PACK, UNPACK with the 8B and 9B variants (42_stripe_packer.md). -/

namespace Sys2Proof.Machine

/-- The eight bytes of stripe `st` of row `i` as one word (R172): a load from SRC, or from `BLKBUF`. -/
def packData (s : State) (i st : Nat) : Word :=
  BitVec.ofNat 64 <|
    if s.cfgDelta then bytesToNat ((List.range 8).map fun j => s.blkAt i (8 * st + j))
    else s.src.read (s.srcp.toNat + i * s.D + 8 * st) 8

/-- Where stripe `st` of row `i` starts in DST (R172). -/
def packAt (s : State) (i st : Nat) : Nat :=
  s.dstp.toNat + i * s.an.rowbytes.toNat + byteOff s.an.sbw st

/-- The stripe's bits, compacted to the low end (R173). -/
def packBits (s : State) (i st : Nat) : Word := pext (packData s i st) (s.an.smask.getD st 0)

/-- One stripe of one row ORed into DST: 8 bytes (R173), and the ninth byte in the 9B variant (R174). -/
def packStripe (s : State) (i : Nat) (m : Memory) (st : Nat) : Memory :=
  let sh := bitShift s.an.sbw st
  let m8 := m.or (packAt s i st) 8 (packBits s i st <<< sh).toNat
  if nineBytes s.an.sbw st then m8.or (packAt s i st + 8) 1 (packBits s i st >>> (64 - sh)).toNat else m8

/-- One row, stripes ascending (R172). -/
def packRow (s : State) (m : Memory) (i : Nat) : Memory :=
  (List.range s.nstripes).foldl (packStripe s i) m

/-- DST after PACK: the body zeroed (R177), then the rows ascending (R172). -/
def packDst (s : State) : Memory :=
  (List.range 8).foldl (packRow s) (s.dst.zero s.dstp.toNat (8 * s.an.rowbytes.toNat))

/-- The bytes PACK touches for stripe `st` of row `i` (R68). -/
def packAccess (s : State) (i st : Nat) : List Access :=
  (if s.cfgDelta then [] else [⟨.src, ((s.srcp.toNat + i * s.D + 8 * st : Nat) : Int), 8⟩]) ++
    [⟨.dst, packAt s i st, 8⟩] ++
    (if nineBytes s.an.sbw st then [⟨.dst, ((packAt s i st + 8 : Nat) : Int), 1⟩] else [])

/-- The footprint of PACK: R68's rows, the ninth byte included (DEDUCED, safe, notes/assumptions/15.md). -/
def packFootprint (s : State) : List Access :=
  ⟨.dst, s.dstp.toNat, 8 * s.an.rowbytes.toNat⟩ ::
    (List.range 8).flatMap fun i => (List.range s.nstripes).flatMap fun st => packAccess s i st

/-- The state after PACK (R172). -/
def packEffect (s : State) : State :=
  ({ s with dst := packDst s, srcp := s.advanceSrcp s.blockBytes,
            dstp := s.advanceDstp (8 * s.an.rowbytes.toNat), blk := s.blk + 1, ph := .idle } : State).respond .none 0

/-- PACK (R172, R274). -/
def execPack (s : State) : Host.Outcome State Fault Refusal :=
  .next <| s.checked true (s.ph == .headered) (packFootprint s) (packEffect s)

/-- Where stripe `st` of row `i` of the slot in hand starts in SRC (R178). -/
def unpackAt (s : State) (i st : Nat) : Nat :=
  s.srcp.toNat + i * s.slot.growbytes.toNat + byteOff s.slot.gsbw st

/-- The stripe's bits at bit 0 (R179), with the bits of the ninth byte in the 9B variant (R180). -/
def unpackBits (s : State) (i st : Nat) : Word :=
  let sh := bitShift s.slot.gsbw st
  let lo := BitVec.ofNat 64 (s.src.read (unpackAt s i st) 8) >>> sh
  if nineBytes s.slot.gsbw st then lo ||| BitVec.ofNat 64 (s.src.read (unpackAt s i st + 8) 8) <<< (64 - sh) else lo

/-- The eight bytes of stripe `st` of row `i`: the stripe's bits deposited (R178). -/
def unpackWord (s : State) (i st : Nat) : Word := pdep (unpackBits s i st) (s.slot.gmask.getD st 0)

/-- One row stored to DST, stripes descending (R178, R182). -/
def unpackRow (s : State) (m : Memory) (i : Nat) : Memory :=
  (List.range s.nstripes).reverse.foldl
    (fun m st => m.write (s.dstp.toNat + i * s.D + 8 * st) 8 (unpackWord s i st).toNat) m

/-- DST after UNPACK when the delta stage is off: rows ascending (R178, R182). -/
def unpackDst (s : State) : Memory := (List.range 8).foldl (unpackRow s) s.dst

/-- `BLKBUF` after UNPACK when the delta stage is on (R178). The stripes of a row fill separate columns, so
their order leaves no trace (R182). -/
def unpackBuf (s : State) : List (List Byte) :=
  (List.range 8).map fun i => (List.range s.nstripes).flatMap fun st => natToBytes 8 (unpackWord s i st).toNat

/-- The bytes UNPACK touches for stripe `st` of row `i` (R68). -/
def unpackAccess (s : State) (i st : Nat) : List Access :=
  [⟨.src, unpackAt s i st, 8⟩] ++
    (if nineBytes s.slot.gsbw st then [⟨.src, ((unpackAt s i st + 8 : Nat) : Int), 8⟩] else []) ++
    (if s.cfgDelta then [] else [⟨.dst, ((s.dstp.toNat + i * s.D + 8 * st : Nat) : Int), 8⟩])

/-- The footprint of UNPACK: R68's rows (R181; DEDUCED, safe, notes/assumptions/15.md). -/
def unpackFootprint (s : State) : List Access :=
  (List.range 8).flatMap fun i => (List.range s.nstripes).flatMap fun st => unpackAccess s i st

/-- The state after UNPACK (R178). -/
def unpackEffect (s : State) : State :=
  (if s.cfgDelta then
    { s with blkbuf := unpackBuf s, srcp := s.advanceSrcp (8 * s.slot.growbytes.toNat), ph := .unpacked }
  else
    { s with dst := unpackDst s, srcp := s.advanceSrcp (8 * s.slot.growbytes.toNat),
             dstp := s.advanceDstp s.blockBytes, blk := s.blk + 1, first := false } : State).respond .none 0

/-- UNPACK (R178, R274): in rowmajor-delta-rle a slot of zero widths belongs to RLEDEC. -/
def execUnpack (s : State) : Host.Outcome State Fault Refusal :=
  .next <| s.checked true
    (s.grp == .dec && decide (s.blk.toNat < 2) && s.ph == .idle && (!s.cfgRle || !s.slot.zbs))
    (unpackFootprint s) (unpackEffect s)

end Sys2Proof.Machine
end

