-- ==== Sys2Proof/Machine/Rle.lean ====
section
/-! DEFINITION. The RLE block detector RLE, RLEFLUSH, RLEDEC (45_rle.md). -/

namespace Sys2Proof.Machine

/-- The block in hand joins the run (R222, source step 2). -/
def State.absorbs (s : State) : Bool := s.an.zb && decide (s.run.toNat < s.maxRun.toNat)

/-- Outcome ABSORB (R222). -/
def rleAbsorb (s : State) : State :=
  ({ s with run := s.run + 1, srcp := s.advanceSrcp s.blockBytes, ph := .idle } : State).respond .absorb 0

/-- Outcome CLOSE (R222): the field is written, the slot's header bits stay zero. -/
def rleClose (s : State) : State :=
  ({ s with dst := s.dst.put s.dstp.toNat (lenfield s.run.toNat),
            dstp := s.advanceDstp (lenfield s.run.toNat).length,
            hcur := s.advanceHcur (3 * s.D), blk := s.blk + 1, run := 0 } : State).respond .close (s.run.setWidth 48)

/-- The state after RLE (R222). -/
def rleEffect (s : State) : State :=
  if s.absorbs then rleAbsorb s else if s.run ≠ 0 then rleClose s else s.respond .pass 0

/-- The footprint of RLE: a CLOSE writes its field (R68, R222). -/
def rleFootprint (s : State) : List Access :=
  if s.absorbs then [] else if s.run ≠ 0 then [⟨.dst, s.dstp.toNat, (lenfield s.run.toNat).length⟩] else []

/-- RLE (R222, R274). -/
def execRle (s : State) : Host.Outcome State Fault Refusal :=
  .next <| s.checked s.cfgRle (s.ph == .analyzed && decide (s.blk.toNat < 2)) (rleFootprint s) (rleEffect s)

/-- The field of the open run, if there is one (R226). -/
def flushRun (s : State) : List Byte := if s.run ≠ 0 then lenfield s.run.toNat else []

/-- How many slots the open run takes (R226). -/
def flushRunSlots (s : State) : Nat := if s.run ≠ 0 then 1 else 0

/-- How many slots are left for fields of length 0 (R226). -/
def flushEmptySlots (s : State) : Nat := 2 - (s.blk.toNat + flushRunSlots s)

/-- The bytes RLEFLUSH writes (R226). -/
def flushBytes (s : State) : List Byte := flushRun s ++ List.replicate (flushEmptySlots s) 0

/-- The state after RLEFLUSH (R226). -/
def rleflushEffect (s : State) : State :=
  ({ s with dst := s.dst.put s.dstp.toNat (flushBytes s), dstp := s.advanceDstp (flushBytes s).length,
            hcur := s.advanceHcur (3 * s.D * (flushRunSlots s + flushEmptySlots s)),
            blk := BitVec.ofNat 2 (s.blk.toNat + flushRunSlots s + flushEmptySlots s), run := 0 } : State).respond .none 0

/-- RLEFLUSH (R226, R274). -/
def execRleflush (s : State) : Host.Outcome State Fault Refusal :=
  .next <| s.checked s.cfgRle (s.grp == .enc && s.ph == .idle)
    [⟨.dst, s.dstp.toNat, (flushBytes s).length⟩] (rleflushEffect s)

/-- The first byte of the length field at `SRCP` (R225). -/
def runByte0 (s : State) : Byte := s.src.byte s.srcp.toNat

/-- `k`: the bytes the length field takes (R225). -/
def runFieldLen (s : State) : Nat := if lenfieldLong (runByte0 s) then 2 else 1

/-- `n`: the run length at `SRCP` (R225). -/
def runLength (s : State) : Nat := lenfieldValue (runByte0 s) (s.src.byte (s.srcp.toNat + 1))

/-- The bytes RLEDEC writes: `8 n D` (R228). -/
def runBytes (s : State) : Nat := 8 * runLength s * s.D

/-- DST after RLEDEC: zeros for the first slot (R229), otherwise copies of the last record; `n = 0` touches
nothing (R228). -/
def rledecDst (s : State) : Memory :=
  if runLength s = 0 then s.dst
  else if s.first then s.dst.zero s.dstp.toNat (runBytes s)
  else s.dst.memrep s.dstp.toNat (s.dstp.toNat - s.D) s.D (8 * runLength s)

/-- The footprint of RLEDEC, which depends on the bytes read (R68, R228, R279). -/
def rledecFootprint (s : State) : List Access :=
  ⟨.src, s.srcp.toNat, 1⟩ ::
    (if lenfieldLong (runByte0 s) then [⟨.src, ((s.srcp.toNat + 1 : Nat) : Int), 1⟩] else []) ++
    (if runLength s = 0 then []
     else (if s.first then [] else [⟨.dst, (s.dstp.toNat : Int) - s.D, s.D⟩]) ++ [⟨.dst, s.dstp.toNat, runBytes s⟩])

/-- The state after RLEDEC (R228); `PREV` and `BLKBUF` stay (R230). -/
def rledecEffect (s : State) : State :=
  ({ s with dst := rledecDst s, dstp := s.advanceDstp (runBytes s), srcp := s.advanceSrcp (runFieldLen s),
            blk := s.blk + 1, first := false } : State).respond .none (BitVec.ofNat 48 (runLength s))

/-- RLEDEC (R228, R274). -/
def execRledec (s : State) : Host.Outcome State Fault Refusal :=
  .next <| s.checked s.cfgRle (s.grp == .dec && decide (s.blk.toNat < 2) && s.ph == .idle && s.slot.zbs)
    (rledecFootprint s) (rledecEffect s)

end Sys2Proof.Machine
end

