-- ==== Sys2Proof/Machine/Dispatch.lean ====
section
/-! DEFINITION. The dispatch: each command to its meaning (R107). -/

namespace Sys2Proof.Machine

/-- The meaning of a command in a state (R107). -/
def exec (i : Instr) (s : State) : Host.Outcome State Fault Refusal :=
  match i with
  | .init d delta rle => Sys2Proof.Machine.execInit d delta rle s
  | .setsrc addr => Sys2Proof.Machine.execSetsrc addr s
  | .setdst addr => Sys2Proof.Machine.execSetdst addr s
  | .rdreg idx => Sys2Proof.Machine.execRdreg idx s
  | .anlz => Sys2Proof.Machine.execAnlz s
  | .pack => Sys2Proof.Machine.execPack s
  | .unpack => Sys2Proof.Machine.execUnpack s
  | .grpbeg => Sys2Proof.Machine.execGrpbeg s
  | .hdrput => Sys2Proof.Machine.execHdrput s
  | .hdrdec => Sys2Proof.Machine.execHdrdec s
  | .zzenc => Sys2Proof.Machine.execZzenc s
  | .zzdec => Sys2Proof.Machine.execZzdec s
  | .rle => Sys2Proof.Machine.execRle s
  | .rleflush => Sys2Proof.Machine.execRleflush s
  | .rledec => Sys2Proof.Machine.execRledec s

end Sys2Proof.Machine
end

