-- ==== Sys2Proof/Machine/Step.lean ====
section
/-! DEFINITION. One step of the machine: the host's next action (R20, R74), and the placing of a command word. -/

namespace Sys2Proof.Machine

/-- A command word is executed, or refused with `E_ILLCMD` if it is illegal (R116, R272). -/
def runCommand (w : Word) (s : State) : Host.Outcome State Fault Refusal :=
  match decode w with
  | .ok i => exec i s
  | .error _ => .next (s.raise .illcmd)

/-- One step: the next action of the host takes effect as a whole (R20). With none the core waits (R301; DESIGN CHOICE,
safe, notes/assumptions/5.md). -/
def step (s : State) : Host.Outcome State Fault Refusal :=
  match s.host with
  | [] => .next s
  | .command w :: rest => runCommand w (s.accept rest)
  | .reset :: rest => .next (s.accept rest).rst
  | .writeSrc a bs :: rest => (s.accept rest).hostWriteSrc a bs
  | .writeDst a bs :: rest => (s.accept rest).hostWriteDst a bs

/-- The state with the word of a table row as the host's next command: the core fetches nothing, commands
arrive on the command port (R78). -/
def State.withFetchWord (s : State) (nbits w : Nat) : State :=
  { s with host := .command (tableWord nbits w) :: s.host }

end Sys2Proof.Machine
end

