-- ==== Sys2Proof/Safety.lean ====
section
/-! DEFINITION. The terms the claims use, written from the spec's tables and not from the meanings: the opcode
table, the admission table R274, the footprint table R68, the coherence of the tables R32 and R33, the invariants
of R35, and the bits of a stream R94. -/

namespace Sys2Proof.Machine

/-- One row of spec/opcode_table.json. -/
structure OpcodeRow where
  mnemonic : String
  mask : Word
  pattern : Word
deriving DecidableEq, Repr

/-- The fifteen rows of spec/opcode_table.json (R106, R107). -/
def opcodeTable : List OpcodeRow :=
  [⟨"INIT", 0xffffffff0000fcff, 0x01⟩, ⟨"SETSRC", 0xffff, 0x02⟩, ⟨"SETDST", 0xffff, 0x03⟩,
   ⟨"RDREG", 0xffffffffff00ffff, 0x04⟩, ⟨"ANLZ", 0xffffffffffffffff, 0x10⟩, ⟨"PACK", 0xffffffffffffffff, 0x20⟩,
   ⟨"UNPACK", 0xffffffffffffffff, 0x21⟩, ⟨"GRPBEG", 0xffffffffffffffff, 0x30⟩,
   ⟨"HDRPUT", 0xffffffffffffffff, 0x31⟩, ⟨"HDRDEC", 0xffffffffffffffff, 0x32⟩,
   ⟨"ZZENC", 0xffffffffffffffff, 0x40⟩, ⟨"ZZDEC", 0xffffffffffffffff, 0x41⟩, ⟨"RLE", 0xffffffffffffffff, 0x50⟩,
   ⟨"RLEFLUSH", 0xffffffffffffffff, 0x51⟩, ⟨"RLEDEC", 0xffffffffffffffff, 0x52⟩]

/-- The command exists in the configured mode (R275, the rows marked (m) of R274). -/
abbrev modeExists : Instr → State → Prop
  | .zzenc, s | .zzdec, s => s.cfgDelta = true
  | .rle, s | .rleflush, s | .rledec, s => s.cfgRle = true
  | .init _ _ _, _ | .setsrc _, _ | .setdst _, _ | .rdreg _, _ | .anlz, _ | .pack, _ | .unpack, _
  | .grpbeg, _ | .hdrput, _ | .hdrdec, _ => True

/-- The admission table, row by row (R274). -/
abbrev admitted : Instr → State → Prop
  | .init _ _ _, _ | .rdreg _, _ => True
  | .setsrc _, s | .setdst _, s => s.ph = .idle
  | .grpbeg, s => s.blk.toNat = 2 ∧ (s.ph = .idle ∨ s.ph = .analyzed)
  | .zzenc, s => s.ph = .idle ∧ s.grp = .enc ∧ s.blk.toNat < 2
  | .anlz, s => s.grp = .enc ∧ s.blk.toNat < 2 ∧ (s.cfgDelta = true → s.ph = .loaded) ∧ (s.cfgDelta = false → s.ph = .idle)
  | .rle, s => s.ph = .analyzed ∧ s.blk.toNat < 2
  | .hdrput, s => s.ph = .analyzed ∧ s.blk.toNat < 2 ∧ (s.cfgRle = true → s.run.toNat = 0 ∧ s.an.zb = false)
  | .pack, s => s.ph = .headered
  | .rleflush, s => s.grp = .enc ∧ s.ph = .idle
  | .hdrdec, s => s.blk.toNat = 2 ∧ s.ph = .idle
  | .unpack, s => s.grp = .dec ∧ s.blk.toNat < 2 ∧ s.ph = .idle ∧ (s.cfgRle = true → s.slot.zbs = false)
  | .zzdec, s => s.ph = .unpacked
  | .rledec, s => s.grp = .dec ∧ s.blk.toNat < 2 ∧ s.ph = .idle ∧ s.slot.zbs = true

/-- The commands the checks 2 and 3 of R141 let through in every state. -/
abbrev alwaysAdmitted : Instr → Prop
  | .init _ _ _ | .rdreg _ => True
  | .setsrc _ | .setdst _ | .anlz | .pack | .unpack | .grpbeg | .hdrput | .hdrdec | .zzenc | .zzdec | .rle
  | .rleflush | .rledec => False

/-- The accesses of a command, as its meaning checks them. -/
def footprint : Instr → State → List Access
  | .init _ _ _, _ | .setsrc _, _ | .setdst _, _ | .rdreg _, _ => []
  | .anlz, s => anlzFootprint s
  | .pack, s => packFootprint s
  | .unpack, s => unpackFootprint s
  | .grpbeg, s => [⟨.dst, s.dstp.toNat, s.headerBytes⟩]
  | .hdrput, s => hdrputFootprint s
  | .hdrdec, s => hdrdecFootprint s
  | .zzenc, s => [⟨.src, s.srcp.toNat, s.blockBytes⟩]
  | .zzdec, s => [⟨.dst, s.dstp.toNat, s.blockBytes⟩]
  | .rle, s => rleFootprint s
  | .rleflush, s => [⟨.dst, s.dstp.toNat, (flushBytes s).length⟩]
  | .rledec, s => rledecFootprint s

/-- Address `a` lies in the `n` bytes from `base` on. -/
abbrev within (a base : Int) (n : Nat) : Prop := base ≤ a ∧ a < base + n

/-- The footprint table: which addresses of a space a command may touch (R68). -/
def touched : Instr → State → SpaceId → Int → Prop
  | .init _ _ _, _, _, _ | .setsrc _, _, _, _ | .setdst _, _, _, _ | .rdreg _, _, _, _ => False
  | .zzenc, s, sp, a => sp = .src ∧ within a s.srcp.toNat (8 * s.D)
  | .anlz, s, sp, a => s.cfgDelta = false ∧ sp = .src ∧ within a s.srcp.toNat (8 * s.D)
  | .pack, s, sp, a =>
    (s.cfgDelta = false ∧ sp = .src ∧
      ∃ i < 8, ∃ st < s.nstripes, within a ((s.srcp.toNat + i * s.D + 8 * st : Nat) : Int) 8) ∨
    (sp = .dst ∧ within a s.dstp.toNat (8 * s.an.rowbytes.toNat)) ∨
    (sp = .dst ∧ ∃ i < 8, ∃ st < s.nstripes,
      within a ((s.dstp.toNat + i * s.an.rowbytes.toNat + bitOff s.an.sbw st / 8 : Nat) : Int)
        (if 64 < (s.an.sbw.getD st 0).toNat + bitOff s.an.sbw st % 8 then 9 else 8))
  | .grpbeg, s, sp, a => sp = .dst ∧ within a s.dstp.toNat ((6 * s.D + 7) / 8)
  | .hdrput, s, sp, a =>
    sp = .dst ∧ ∃ st < s.nstripes, within a ((s.hdrp.toNat + (s.hcur.toNat + 24 * st) / 8 : Nat) : Int) 4
  | .hdrdec, s, sp, a =>
    sp = .src ∧ ∃ b < 2, ∃ st < s.nstripes, within a ((s.srcp.toNat + (3 * b * s.D + 24 * st) / 8 : Nat) : Int) 4
  | .unpack, s, sp, a =>
    (sp = .src ∧ ∃ i < 8, ∃ st < s.nstripes,
      within a ((s.srcp.toNat + i * s.slot.growbytes.toNat + bitOff s.slot.gsbw st / 8 : Nat) : Int)
        (if 64 < (s.slot.gsbw.getD st 0).toNat + bitOff s.slot.gsbw st % 8 then 16 else 8)) ∨
    (s.cfgDelta = false ∧ sp = .dst ∧
      ∃ i < 8, ∃ st < s.nstripes, within a ((s.dstp.toNat + i * s.D + 8 * st : Nat) : Int) 8)
  | .zzdec, s, sp, a => sp = .dst ∧ within a s.dstp.toNat (8 * s.D)
  | .rle, s, sp, a =>
    ¬(s.an.zb = true ∧ s.run.toNat < s.maxRun.toNat) ∧ 0 < s.run.toNat ∧ sp = .dst ∧
      within a s.dstp.toNat (if s.run.toNat ≤ 0x7F then 1 else 2)
  | .rleflush, s, sp, a =>
    sp = .dst ∧ within a s.dstp.toNat
      ((if s.run.toNat = 0 then 0 else if s.run.toNat ≤ 0x7F then 1 else 2) +
        (2 - (s.blk.toNat + if s.run.toNat = 0 then 0 else 1)))
  | .rledec, s, sp, a =>
    (sp = .src ∧ within a s.srcp.toNat (if (s.src.byte s.srcp.toNat).toNat < 0x80 then 1 else 2)) ∨
    (sp = .dst ∧ 0 < runLength s ∧ s.first = false ∧ within a ((s.dstp.toNat : Int) - s.D) s.D) ∨
    (sp = .dst ∧ 0 < runLength s ∧ within a s.dstp.toNat (8 * runLength s * s.D))

/-- The address lies outside the window of its space (R62, R279). -/
abbrev outsideWindow (s : State) (sp : SpaceId) (a : Int) : Prop :=
  a < 0 ∨ ((s.space sp).size : Int) ≤ a ∨ (Config.addrLimit : Int) ≤ a

/-- The core can work: configured, and no fault since (checks 2 and 3 of R141). -/
abbrev ready (s : State) : Prop := s.fault = false ∧ s.cfgd = true

/-- Every check of R141 passes for the command. -/
abbrev runs (i : Instr) (s : State) : Prop :=
  ready s ∧ modeExists i s ∧ admitted i s ∧ (footprint i s).all (Access.inWindow s) = true

/-- The cursor moved up by `n` where the sum fits 48 bits; where it does not, any value (R26). -/
abbrev movedBy (old new : Addr) (n : Nat) : Prop :=
  old.toNat + n < Config.addrLimit → new.toNat = old.toNat + n

/-- Bit `k` of the bit stream at byte address `a` (R94). -/
def Memory.streamBit (m : Memory) (a k : Nat) : Bool := (m.byte (a + k / 8)).getLsbD (k % 8)

/-- The bit offset of dimension `d` in a packed row: the sum of the widths before it (R95). -/
def dimOff (ws : List (BitVec 4)) (d : Nat) : Nat := ((List.range d).map fun e => (ws.getD e 0).toNat).sum

/-- The tables are the ones R163 to R165 (and, for a decoder, R201 and R202) give for width codes `h` of `d`
dimensions: every entry, in the spec's own arithmetic. -/
abbrev codesCoherent (d : Nat) (h : List (BitVec 3)) (ws : List (BitVec 4)) (sbw : List (BitVec 7))
    (mask : List Word) (rowbits : BitVec 20) (rowbytes : BitVec 16) (zb : Bool) : Prop :=
  h.length = 8 * ((d + 7) / 8) ∧ ws.length = h.length ∧ sbw.length = (d + 7) / 8 ∧ mask.length = (d + 7) / 8 ∧
  (∀ j < h.length, d ≤ j → h.getD j 0 = 0) ∧
  (∀ j < h.length, (ws.getD j 0).toNat = (h.getD j 0).toNat + if h.getD j 0 = 7 then 1 else 0) ∧
  (∀ st < sbw.length, (sbw.getD st 0).toNat = ((List.range 8).map fun j => (ws.getD (8 * st + j) 0).toNat).sum) ∧
  (∀ st < mask.length, ∀ p < 64,
    (mask.getD st 0).getLsbD p = decide (p % 8 < (ws.getD (8 * st + p / 8) 0).toNat)) ∧
  rowbits.toNat = dimOff ws d ∧ rowbytes.toNat = (dimOff ws d + 7) / 8 ∧ zb = decide (dimOff ws d = 0)

/-- The encoder tables of a block with `d` dimensions are coherent (R163 to R165). -/
abbrev Analysis.coherent (d : Nat) (a : Analysis) : Prop :=
  codesCoherent d a.h a.weff a.sbw a.smask a.rowbits a.rowbytes a.zb ∧
  a.w.length = a.h.length ∧ a.shdr.length = (d + 7) / 8 ∧
  (∀ j < a.w.length, (a.w.getD j 0).toNat ≤ 8 ∧
    (a.h.getD j 0).toNat = (a.w.getD j 0).toNat - if (a.w.getD j 0).toNat = 8 then 1 else 0) ∧
  (∀ st < a.shdr.length, ∀ p < 24, (a.shdr.getD st 0).getLsbD p = (a.h.getD (8 * st + p / 3) 0).getLsbD (p % 3))

/-- The decoder tables of a slot with `d` dimensions are coherent (R201, R202). -/
abbrev SlotTables.coherent (d : Nat) (t : SlotTables) : Prop :=
  codesCoherent d t.gh t.gw t.gsbw t.gmask t.growbits t.growbytes t.zbs

/-- The tables a command may read are coherent: the encoder's in phases ANALYZED and HEADERED (R32), the
decoder's while the group in hand is a decoder group (R33). -/
abbrev tablesCoherent (s : State) : Prop :=
  (s.ph = .analyzed ∨ s.ph = .headered → s.an.coherent s.D) ∧
  (s.grp = .dec → s.g0.coherent s.D ∧ s.g1.coherent s.D)

/-- Every register but `FAULT` and `ECODE` holds its reset value (R35 (d), R38). -/
abbrev atReset (s : State) : Prop :=
  s = { State.reset with
        fault := s.fault, ecode := s.ecode, src := s.src, dst := s.dst, maxRun := s.maxRun, host := s.host,
        rsp := s.rsp, tick := s.tick }

/-- The invariants of R35, with the clauses that make them inductive: where `HCUR` stands in an encoder group
(R194, R197), that a headered block has no open run (R195), that the configuration is legal (R22), and that
`ECODE` is 0 without a fault (R24). -/
abbrev controlInv (s : State) : Prop :=
  (s.run.toNat ≠ 0 → s.cfgRle = true ∧ s.grp = .enc ∧ s.blk.toNat < 2) ∧
  (s.ph = .loaded ∨ s.ph = .analyzed ∨ s.ph = .headered → s.grp = .enc) ∧
  (s.ph = .headered → s.blk.toNat < 2 ∧ s.run.toNat = 0) ∧
  (s.ph = .unpacked → s.grp = .dec ∧ s.blk.toNat < 2) ∧
  s.run.toNat ≤ s.maxRun.toNat ∧ s.blk.toNat ≤ 2 ∧ s.hcur.toNat ≤ 6 * s.D ∧
  (s.grp = .enc → s.hcur.toNat = 3 * s.D * (s.blk.toNat + if s.ph = .headered then 1 else 0)) ∧
  (s.cfgd = true → 1 ≤ s.D ∧ (s.cfgRle = true → s.cfgDelta = true ∧ s.D < 1024)) ∧
  (s.fault = false → s.ecode = 0) ∧
  (s.cfgd = false → atReset s)

/-- Both memories have their canonical form. -/
abbrev memoryInv (s : State) : Prop := s.src.wf ∧ s.dst.wf

/-- The register table of R38, all but `CFG` and `CFGD`, which INIT loads. -/
abbrev registersCleared (s : State) : Prop :=
  s.fault = false ∧ s.ecode = 0 ∧ s.srcp = 0 ∧ s.dstp = 0 ∧ s.hdrp = 0 ∧ s.hcur = 0 ∧ s.blk = 2 ∧ s.grp = .none ∧
  s.ph = .idle ∧ s.run = 0 ∧ s.first = true ∧ (∀ d, s.prevAt d = 0) ∧ (∀ i j, s.blkAt i j = 0) ∧
  (∀ j, s.an.w.getD j 0 = 0 ∧ s.an.h.getD j 0 = 0 ∧ s.an.weff.getD j 0 = 0 ∧ s.an.sbw.getD j 0 = 0 ∧
    s.an.smask.getD j 0 = 0 ∧ s.an.shdr.getD j 0 = 0) ∧
  s.an.rowbits = 0 ∧ s.an.rowbytes = 0 ∧ s.an.zb = false ∧
  (∀ t ∈ [s.g0, s.g1], (∀ j, t.gh.getD j 0 = 0 ∧ t.gw.getD j 0 = 0 ∧ t.gsbw.getD j 0 = 0 ∧ t.gmask.getD j 0 = 0) ∧
    t.growbits = 0 ∧ t.growbytes = 0 ∧ t.zbs = false)

/-- The number a STATUS read returns, field by field (R23). -/
def statusNat (s : State) : Nat :=
  s.cfgd.toNat + 2 * s.fault.toNat + 4 * s.an.zb.toNat + 8 * s.first.toNat +
    16 * (match s.grp with | .none => 0 | .enc => 1 | .dec => 2) +
    64 * (match s.ph with | .idle => 0 | .loaded => 1 | .analyzed => 2 | .headered => 3 | .unpacked => 4) +
    512 * s.g0.zbs.toNat + 1024 * s.g1.zbs.toNat

/-- The number RDREG returns for an index (R37). -/
def regNat (s : State) (idx : Nat) : Nat :=
  [statusNat s, s.cfgD.toNat + 65536 * s.cfgDelta.toNat + 131072 * s.cfgRle.toNat, s.srcp.toNat, s.dstp.toNat,
    s.hdrp.toNat, s.hcur.toNat, s.blk.toNat, s.run.toNat, s.an.rowbits.toNat, s.an.rowbytes.toNat,
    s.ecode.toNat].getD idx 0

/-- The word matches a row of the opcode table, and an RDREG names a register (R106, R107, R116). -/
abbrev legalWord (w : Word) : Prop :=
  ∃ row ∈ opcodeTable, w &&& row.mask = row.pattern ∧ (row.mnemonic = "RDREG" → w.toNat / 65536 % 256 ≤ 10)

/-- The state a fault with this code leaves (R276). -/
def faulted (s : State) (code : BitVec 8) : State :=
  { s with fault := true, ecode := if s.fault = true then s.ecode else code, rsp := some (code.setWidth 64) }

end Sys2Proof.Machine
end

