-- ==== Sys2Proof/Certificates/Slice0/Obligations.lean ====
section
/-! DEFINITION. The statements for the provers. Each docstring says which rule of spec/ it formalises. A fault of
the core is a next state (R270, R276); `runs i s` says that every check of R141 passes for the command. -/

open Sys2Proof Sys2Proof.Machine

/-! ## Encoding -/

/-- R105 to R107: decoding the word of a well-formed command gives it back, for every operand. -/
def Obligations.DecodeOfEncode : Prop :=
  ∀ i : Instr, i.wellFormed = true → decode (encode i) = .ok i

/-- R105 to R107: a legal word is the word of the command it decodes to, so no two words mean one command. -/
def Obligations.EncodeOfDecode : Prop :=
  ∀ (w : Word) (i : Instr), decode w = .ok i → i.wellFormed = true ∧ encode i = w

/-- R106, R107, R116: the decoder accepts exactly the words of the opcode table, RDREG's with an index up to 10. -/
def Obligations.DecoderAcceptsExactlyTheOpcodeTable : Prop :=
  ∀ w : Word, (∃ i, decode w = .ok i) ↔ legalWord w

/-- R106, R107: words written out from the formats, one at least for every opcode of the map and INIT's mode bits apart,
decode to the commands they stand for. -/
def Obligations.SampleWordsDecode : Prop :=
  decode 0x0000000003ff0301 = .ok (.init 1023 true true) ∧ decode 0x0000000000020001 = .ok (.init 2 false false) ∧
  decode 0x0000000000030101 = .ok (.init 3 true false) ∧
  decode 0xffffffffffff0002 = .ok (.setsrc 0xffffffffffff) ∧ decode 0x0000000000080003 = .ok (.setdst 8) ∧
  decode 0x00000000000a0004 = .ok (.rdreg 10) ∧ decode 0x10 = .ok .anlz ∧ decode 0x20 = .ok .pack ∧
  decode 0x21 = .ok .unpack ∧ decode 0x30 = .ok .grpbeg ∧ decode 0x31 = .ok .hdrput ∧ decode 0x32 = .ok .hdrdec ∧
  decode 0x40 = .ok .zzenc ∧ decode 0x41 = .ok .zzdec ∧ decode 0x50 = .ok .rle ∧ decode 0x51 = .ok .rleflush ∧
  decode 0x52 = .ok .rledec

/-! ## The step -/

/-- R20, R74, R78: a step with a legal command word at the head of the host's list is the meaning of that command,
in the state in which the word is taken from the list and the model's counter has moved on. -/
def Obligations.StepRunsTheDecodedCommand : Prop :=
  ∀ (s : State) (w : Word) (rest : List HostEvent) (i : Instr), s.host = .command w :: rest → decode w = .ok i →
    step s = exec i { s with host := rest, tick := s.tick + 1 }

/-- R116, R272, R276: a word outside the opcode table raises `E_ILLCMD`, in every state, and does nothing else. -/
def Obligations.IllegalWordRaisesIllcmd : Prop :=
  ∀ (s : State) (w : Word) (rest : List HostEvent), s.host = .command w :: rest → ¬legalWord w →
    step s = .next (faulted { s with host := rest, tick := s.tick + 1 } 1)

/-- R60, R301: with nothing on its ports the core waits (the model's choice, log entry 5). The host's writes between commands change exactly the bytes
written. A host write outside a window stops the model (the model's choice, log entry 3). -/
def Obligations.HostActsBetweenCommands : Prop :=
  (∀ s : State, s.host = [] → step s = .next s) ∧
  (∀ (s : State) (a : Addr) (bs : List Byte) (rest : List HostEvent), s.host = .writeSrc a bs :: rest →
    (a.toNat + bs.length ≤ s.src.size →
      ∃ t, step s = .next t ∧ t = { s with host := rest, tick := s.tick + 1, src := t.src } ∧
        ∀ x, t.src.byte x =
          if a.toNat ≤ x ∧ x < a.toNat + bs.length then bs.getD (x - a.toNat) 0 else s.src.byte x) ∧
    (s.src.size < a.toNat + bs.length → step s = .fault .hostOutsideWindow)) ∧
  (∀ (s : State) (a : Addr) (bs : List Byte) (rest : List HostEvent), s.host = .writeDst a bs :: rest →
    (a.toNat + bs.length ≤ s.dst.size →
      ∃ t, step s = .next t ∧ t = { s with host := rest, tick := s.tick + 1, dst := t.dst } ∧
        ∀ x, t.dst.byte x =
          if a.toNat ≤ x ∧ x < a.toNat + bs.length then bs.getD (x - a.toNat) 0 else s.dst.byte x) ∧
    (s.dst.size < a.toNat + bs.length → step s = .fault .hostOutsideWindow))

/-- R300: reset between commands gives every register its value of R38, leaves no response, and does not touch SRC
or DST. That it falls between commands is the model's choice (log entry 7). -/
def Obligations.RstRestoresTheResetState : Prop :=
  ∀ (s : State) (rest : List HostEvent), s.host = .reset :: rest →
    ∃ t, step s = .next t ∧ registersCleared t ∧ t.cfgD = 0 ∧ t.cfgDelta = false ∧ t.cfgRle = false ∧
      t.cfgd = false ∧ t.rsp = none ∧ t.src = s.src ∧ t.dst = s.dst ∧ t.maxRun = s.maxRun ∧ t.host = rest

/-! ## Control commands -/

/-- R38: the registers after reset, and the same table with `CFG` loaded and `CFGD = 1` after a successful INIT. -/
def Obligations.RegistersAfterResetAndInit : Prop :=
  (registersCleared State.reset ∧ State.reset.cfgD = 0 ∧ State.reset.cfgDelta = false ∧
    State.reset.cfgRle = false ∧ State.reset.cfgd = false) ∧
  ∀ (s : State) (d : BitVec 16) (delta rle : Bool), 1 ≤ d.toNat → (rle = true → delta = true ∧ d.toNat < 1024) →
    ∃ t, exec (.init d delta rle) s = .next t ∧ registersCleared t ∧ t.cfgD = d ∧ t.cfgDelta = delta ∧
      t.cfgRle = rle ∧ t.cfgd = true

/-- R143: INIT checks its operands in order, and otherwise clears every register, loads `CFG` and answers OK,
touching no memory. -/
def Obligations.InitChecksThenConfigures : Prop :=
  ∀ (s : State) (d : BitVec 16) (delta rle : Bool),
    if rle = true ∧ delta = false then exec (.init d delta rle) s = .next (faulted s 4)
    else if d.toNat = 0 then exec (.init d delta rle) s = .next (faulted s 6)
    else if rle = true ∧ 1024 ≤ d.toNat then exec (.init d delta rle) s = .next (faulted s 7)
    else ∃ t, exec (.init d delta rle) s = .next t ∧ registersCleared t ∧ t.cfgD = d ∧ t.cfgDelta = delta ∧
      t.cfgRle = rle ∧ t.cfgd = true ∧ t.rsp = some 0 ∧ t.src = s.src ∧ t.dst = s.dst ∧ t.maxRun = s.maxRun ∧
      t.host = s.host ∧ t.tick = s.tick

/-- R144, R145: SETSRC and SETDST load their cursor and change nothing else, in phase IDLE only. -/
def Obligations.SetCursorCommands : Prop :=
  ∀ (s : State) (a : Addr), ready s →
    (s.ph = .idle → exec (.setsrc a) s = .next { s with srcp := a, rsp := some 0 } ∧
      exec (.setdst a) s = .next { s with dstp := a, rsp := some 0 }) ∧
    (s.ph ≠ .idle → exec (.setsrc a) s = .next (faulted s 5) ∧ exec (.setdst a) s = .next (faulted s 5))

/-- R23, R37, R146: RDREG answers the register of its index, zero-extended to 48 bits, in every state, and writes no
register. An index above 10 raises `E_ILLCMD`. -/
def Obligations.RdregReturnsTheRegister : Prop :=
  ∀ (s : State) (idx : BitVec 8),
    if idx.toNat ≤ 10 then
      ∃ r : Word, exec (.rdreg idx) s = .next { s with rsp := some r } ∧ r.toNat = 65536 * regNat s idx.toNat
    else exec (.rdreg idx) s = .next (faulted s 1)

/-! ## Bit-width analyzer -/

/-- R161 to R165: ANLZ completes with the least width of every dimension and the tables that follow from the widths,
and changes nothing else but the phase. -/
def Obligations.AnlzComputesTheTables : Prop :=
  ∀ s : State, runs .anlz s →
    ∃ t, exec .anlz s = .next t ∧ t = { s with an := t.an, ph := .analyzed, rsp := some 0 } ∧
      t.an.coherent s.D ∧
      ∀ d < s.D, (∀ i < 8, (s.val i d).toNat < 2 ^ (t.an.w.getD d 0).toNat) ∧
        ∀ w < (t.an.w.getD d 0).toNat, ∃ i < 8, 2 ^ w ≤ (s.val i d).toNat

/-- R165: `ROWBITS` is the sum of the stripe widths, `ROWBYTES` its ceiling in bytes, and `ZB` is set exactly when
every byte of the analysed block is 0. -/
def Obligations.AnlzRowSizeAndZeroFlag : Prop :=
  ∀ s : State, runs .anlz s →
    ∃ t, exec .anlz s = .next t ∧ t.an.rowbits.toNat = (t.an.sbw.map BitVec.toNat).sum ∧
      t.an.rowbytes.toNat = (t.an.rowbits.toNat + 7) / 8 ∧ (t.an.zb = true ↔ t.an.rowbits.toNat = 0) ∧
      (t.an.zb = true ↔ ∀ i < 8, ∀ d < s.D, s.val i d = 0)

/-- R164: every stripe mask that ANLZ computes has as many set bits as its stripe is wide. -/
def Obligations.AnlzMaskPopcount : Prop :=
  ∀ s : State, runs .anlz s →
    ∃ t, exec .anlz s = .next t ∧ t.an.smask.length = s.nstripes ∧
      ∀ st < s.nstripes, popcount (t.an.smask.getD st 0) = (t.an.sbw.getD st 0).toNat

/-! ## Header codec -/

/-- R192: GRPBEG zeroes the header bytes at `DSTP`, points `HDRP` there, opens slot 0 of an encoder group, and changes
nothing else. -/
def Obligations.GrpbegOpensAGroup : Prop :=
  ∀ s : State, runs .grpbeg s →
    ∃ t, exec .grpbeg s = .next t ∧
      t = { s with dst := t.dst, dstp := t.dstp, hdrp := s.dstp, hcur := 0, blk := 0, grp := .enc, rsp := some 0 } ∧
      movedBy s.dstp t.dstp ((6 * s.D + 7) / 8) ∧
      ∀ x, t.dst.byte x =
        if s.dstp.toNat ≤ x ∧ x < s.dstp.toNat + (6 * s.D + 7) / 8 then 0 else s.dst.byte x

/-- R93, R194, R195: HDRPUT ORs the code of dimension `d` into header bits `HCUR + 3 d ..` and changes no other bit
of DST and no register but `HCUR` and the phase. -/
def Obligations.HdrputDepositsTheCodes : Prop :=
  ∀ s : State, runs .hdrput s → s.an.coherent s.D →
    ∃ t, exec .hdrput s = .next t ∧
      t = { s with dst := t.dst, hcur := t.hcur, ph := .headered, rsp := some 0 } ∧
      (s.hcur.toNat + 3 * s.D < 2 ^ 19 → t.hcur.toNat = s.hcur.toNat + 3 * s.D) ∧
      (∀ k, t.dst.streamBit s.hdrp.toNat k = (s.dst.streamBit s.hdrp.toNat k ||
        (decide (s.hcur.toNat ≤ k ∧ k < s.hcur.toNat + 3 * s.D) &&
          (s.an.h.getD ((k - s.hcur.toNat) / 3) 0).getLsbD ((k - s.hcur.toNat) % 3)))) ∧
      ∀ x < s.hdrp.toNat, t.dst.byte x = s.dst.byte x

/-- R93, R198 to R202: HDRDEC reads the code of dimension `d` of slot `b` from stream bits `3 (b D + d) ..`, derives
the tables of both slots, opens slot 0 of a decoder group, and changes nothing else. -/
def Obligations.HdrdecReadsTheCodes : Prop :=
  ∀ s : State, runs .hdrdec s →
    ∃ t, exec .hdrdec s = .next t ∧
      t = { s with g0 := t.g0, g1 := t.g1, srcp := t.srcp, blk := 0, grp := .dec, rsp := some 0 } ∧
      movedBy s.srcp t.srcp ((6 * s.D + 7) / 8) ∧ t.g0.coherent s.D ∧ t.g1.coherent s.D ∧
      ∀ d < s.D, ∀ k < 3,
        (t.g0.gh.getD d 0).getLsbD k = s.src.streamBit s.srcp.toNat (3 * d + k) ∧
        (t.g1.gh.getD d 0).getLsbD k = s.src.streamBit s.srcp.toNat (3 * (s.D + d) + k)

/-- R204: HDRDEC, on the header bytes that an HDRPUT left in a slot whose bits were zero before it, gives that slot
the codes of the block. -/
def Obligations.HdrdecInvertsHdrput : Prop :=
  ∀ (e e' r : State) (b : Nat), b < 2 → runs .hdrput e → e.an.coherent e.D → e.hcur.toNat = 3 * b * e.D →
    (∀ k < 3 * e.D, e.dst.streamBit e.hdrp.toNat (3 * b * e.D + k) = false) → exec .hdrput e = .next e' →
    runs .hdrdec r → r.D = e.D →
    (∀ k < (6 * e.D + 7) / 8, r.src.byte (r.srcp.toNat + k) = e'.dst.byte (e.hdrp.toNat + k)) →
    ∃ r', exec .hdrdec r = .next r' ∧ (if b = 0 then r'.g0.gh else r'.g1.gh) = e.an.h

/-! ## Stripe packer -/

/-- R172: PACK completes, advances both cursors, closes the slot and ends the block. No register else changes, and no
byte of DST outside the addresses of R68. In a state with BLK above 1, which no run reaches, `s.blk + 1` is the model's
choice (log entry 19). -/
def Obligations.PackCompletes : Prop :=
  ∀ s : State, runs .pack s →
    ∃ t, exec .pack s = .next t ∧
      t = { s with dst := t.dst, srcp := t.srcp, dstp := t.dstp, blk := s.blk + 1, ph := .idle, rsp := some 0 } ∧
      movedBy s.srcp t.srcp (8 * s.D) ∧ movedBy s.dstp t.dstp (8 * s.an.rowbytes.toNat) ∧
      ∀ x : Nat, ¬touched .pack s .dst x → t.dst.byte x = s.dst.byte x

/-- R176: after PACK the `8 RB` bytes at the old `DSTP` hold the block body: row `i` at `i RB`, in it for each
dimension the low `WEFF[d]` bits of `val(i, d)`, pad bits 0. Every other byte of DST keeps its value. -/
def Obligations.PackWritesTheBlockBody : Prop :=
  ∀ s : State, runs .pack s → s.an.coherent s.D →
    ∃ t, exec .pack s = .next t ∧
      (∀ i < 8,
        (∀ d < s.D, ∀ k < (s.an.weff.getD d 0).toNat,
          t.dst.streamBit (s.dstp.toNat + i * s.an.rowbytes.toNat) (dimOff s.an.weff d + k) =
            (s.val i d).getLsbD k) ∧
        ∀ k < 8 * s.an.rowbytes.toNat, dimOff s.an.weff s.D ≤ k →
          t.dst.streamBit (s.dstp.toNat + i * s.an.rowbytes.toNat) k = false) ∧
      ∀ x, x < s.dstp.toNat ∨ s.dstp.toNat + 8 * s.an.rowbytes.toNat ≤ x → t.dst.byte x = s.dst.byte x

/-- R178: UNPACK completes. In the delta modes it fills `BLKBUF` and waits for ZZDEC; in rowmajor it stores to DST,
completes the slot and clears `FIRST`. No register else changes, and no byte of DST outside the addresses of R68. -/
def Obligations.UnpackCompletes : Prop :=
  ∀ s : State, runs .unpack s →
    ∃ t, exec .unpack s = .next t ∧ movedBy s.srcp t.srcp (8 * s.slot.growbytes.toNat) ∧
      (s.cfgDelta = true → t = { s with blkbuf := t.blkbuf, srcp := t.srcp, ph := .unpacked, rsp := some 0 }) ∧
      (s.cfgDelta = false →
        t = { s with dst := t.dst, srcp := t.srcp, dstp := t.dstp, blk := s.blk + 1, first := false,
                     rsp := some 0 } ∧
        movedBy s.dstp t.dstp (8 * s.D) ∧ ∀ x : Nat, ¬touched .unpack s .dst x → t.dst.byte x = s.dst.byte x)

/-- R95, R178 (delta modes): UNPACK puts the low `GW[d]` bits of dimension `d` of row `i` into `BLKBUF[i][d]`, the
bits above are 0, and so are the pad columns. -/
def Obligations.UnpackFillsTheBlockBuffer : Prop :=
  ∀ s : State, runs .unpack s → s.slot.coherent s.D → s.cfgDelta = true →
    ∃ t, exec .unpack s = .next t ∧
      ∀ i < 8,
        (∀ d < s.D, ∀ k < 8, (t.blkAt i d).getLsbD k =
          (decide (k < (s.slot.gw.getD d 0).toNat) &&
            s.src.streamBit (s.srcp.toNat + i * s.slot.growbytes.toNat) (dimOff s.slot.gw d + k))) ∧
        ∀ j < 8 * s.nstripes, s.D ≤ j → t.blkAt i j = 0

/-- R95, R70, R178 (rowmajor): UNPACK stores the eight records at `DSTP`, leaves the up to 7 bytes after them 0, and
changes no other byte of DST. -/
def Obligations.UnpackStoresTheRecords : Prop :=
  ∀ s : State, runs .unpack s → s.slot.coherent s.D → s.cfgDelta = false →
    ∃ t, exec .unpack s = .next t ∧
      (∀ i < 8, ∀ d < s.D, ∀ k < 8, (t.dst.byte (s.dstp.toNat + i * s.D + d)).getLsbD k =
        (decide (k < (s.slot.gw.getD d 0).toNat) &&
          s.src.streamBit (s.srcp.toNat + i * s.slot.growbytes.toNat) (dimOff s.slot.gw d + k))) ∧
      (∀ j < 8 * s.nstripes - s.D, t.dst.byte (s.dstp.toNat + 8 * s.D + j) = 0) ∧
      ∀ x, x < s.dstp.toNat ∨ s.dstp.toNat + 7 * s.D + 8 * s.nstripes ≤ x → t.dst.byte x = s.dst.byte x

/-- R183: UNPACK, given a slot with the codes of a packed block and the bytes of its body, returns every value of the
block that fits its width. -/
def Obligations.UnpackInvertsPack : Prop :=
  ∀ e e' r : State, runs .pack e → e.an.coherent e.D → exec .pack e = .next e' →
    (∀ i < 8, ∀ d < e.D, (e.val i d).toNat < 2 ^ (e.an.weff.getD d 0).toNat) →
    runs .unpack r → r.D = e.D → r.slot.coherent r.D → r.slot.gh = e.an.h →
    (∀ k < 8 * e.an.rowbytes.toNat, r.src.byte (r.srcp.toNat + k) = e'.dst.byte (e.dstp.toNat + k)) →
    ∃ r', exec .unpack r = .next r' ∧
      ∀ i < 8, ∀ d < e.D,
        (if r.cfgDelta = true then r'.blkAt i d else r'.dst.byte (r.dstp.toNat + i * r.D + d)) = e.val i d

/-- R130, R131: extract and deposit through one mask undo each other, up to the bits the mask keeps. -/
def Obligations.ExtractDepositLaws : Prop :=
  ∀ x m : Word, (pext (pdep x m) m).toNat = x.toNat % 2 ^ popcount m ∧ pdep (pext x m) m = x &&& m

/-! ## Delta and zig-zag stage -/

/-- R132, R133: the value of `zz` at every byte, in the unsigned terms of R132; `zz` and `unzz` are inverse bijections of
the bytes. -/
def Obligations.ZigzagIsABijection : Prop :=
  (∀ b : Byte, (zz b).toNat = if b.toNat < 0x80 then 2 * b.toNat else 2 * (255 - b.toNat) + 1) ∧
  (∀ x : Byte, unzz (zz x) = x) ∧ ∀ u : Byte, zz (unzz u) = u

/-- R212: ZZENC puts the zig-zagged difference of each byte to the record before it into `BLKBUF`, 0 into the pad
columns, the last record into `PREV`, and changes nothing else but the phase. -/
def Obligations.ZzencComputesDeltas : Prop :=
  ∀ s : State, runs .zzenc s →
    ∃ t, exec .zzenc s = .next t ∧ t = { s with blkbuf := t.blkbuf, prev := t.prev, ph := .loaded, rsp := some 0 } ∧
      (∀ d < s.D, t.blkAt 0 d = zz (s.srcAt 0 d - s.prevAt d) ∧ t.prevAt d = s.srcAt 7 d ∧
        ∀ i < 7, t.blkAt (i + 1) d = zz (s.srcAt (i + 1) d - s.srcAt i d)) ∧
      ∀ i < 8, ∀ j < 8 * s.nstripes, s.D ≤ j → t.blkAt i j = 0

/-- R215, R216: ZZDEC writes exactly the `8 D` bytes of the block, each the byte of the record before it plus the
decoded difference, keeps the last record in `PREV`, completes the slot, and changes nothing else. In a state with BLK
above 1, which no run reaches, `s.blk + 1` is the model's choice (log entry 19). -/
def Obligations.ZzdecAccumulatesDeltas : Prop :=
  ∀ s : State, runs .zzdec s →
    ∃ t, exec .zzdec s = .next t ∧
      t = { s with dst := t.dst, prev := t.prev, dstp := t.dstp, blk := s.blk + 1, first := false, ph := .idle,
                   rsp := some 0 } ∧
      movedBy s.dstp t.dstp (8 * s.D) ∧
      (∀ d < s.D, t.dst.byte (s.dstp.toNat + d) = s.prevAt d + unzz (s.blkAt 0 d) ∧
        t.prevAt d = t.dst.byte (s.dstp.toNat + 7 * s.D + d) ∧
        ∀ i < 7, t.dst.byte (s.dstp.toNat + (i + 1) * s.D + d) =
          t.dst.byte (s.dstp.toNat + i * s.D + d) + unzz (s.blkAt (i + 1) d)) ∧
      ∀ x, x < s.dstp.toNat ∨ s.dstp.toNat + 8 * s.D ≤ x → t.dst.byte x = s.dst.byte x

/-- R217: ZZDEC on the block buffer that ZZENC produced, with the same `PREV` at entry, writes the block's bytes
unchanged and leaves the same `PREV`. -/
def Obligations.ZzdecInvertsZzenc : Prop :=
  ∀ e e' r : State, runs .zzenc e → exec .zzenc e = .next e' → runs .zzdec r → r.D = e.D →
    (∀ i < 8, ∀ d < e.D, r.blkAt i d = e'.blkAt i d) → (∀ d < e.D, r.prevAt d = e.prevAt d) →
    ∃ r', exec .zzdec r = .next r' ∧
      (∀ i < 8, ∀ d < e.D, r'.dst.byte (r.dstp.toNat + i * e.D + d) = e.srcAt i d) ∧
      ∀ d < e.D, r'.prevAt d = e'.prevAt d

/-! ## RLE block detector -/

/-- R222: RLE absorbs a zero block below the cap, else closes an open run with its length field, else passes. -/
def Obligations.RleTakesOneOfThreeOutcomes : Prop :=
  ∀ s : State, runs .rle s →
    if s.an.zb = true ∧ s.run.toNat < s.maxRun.toNat then
      ∃ t, exec .rle s = .next t ∧ t = { s with run := s.run + 1, srcp := t.srcp, ph := .idle, rsp := some 0x100 } ∧
        movedBy s.srcp t.srcp (8 * s.D)
    else if 0 < s.run.toNat then
      ∃ t r, exec .rle s = .next t ∧
        t = { s with dst := t.dst, dstp := t.dstp, hcur := t.hcur, blk := s.blk + 1, run := 0, rsp := some r } ∧
        r.toNat = 0x200 + 65536 * s.run.toNat ∧
        movedBy s.dstp t.dstp (if s.run.toNat ≤ 0x7F then 1 else 2) ∧
        (s.hcur.toNat + 3 * s.D < 2 ^ 19 → t.hcur.toNat = s.hcur.toNat + 3 * s.D) ∧
        (s.run.toNat ≤ 0x7F → (t.dst.byte s.dstp.toNat).toNat = s.run.toNat ∧
          ∀ x, x ≠ s.dstp.toNat → t.dst.byte x = s.dst.byte x) ∧
        (0x7F < s.run.toNat → (t.dst.byte s.dstp.toNat).toNat = 0x80 + s.run.toNat % 0x80 ∧
          (t.dst.byte (s.dstp.toNat + 1)).toNat = s.run.toNat / 0x80 ∧
          ∀ x, x ≠ s.dstp.toNat → x ≠ s.dstp.toNat + 1 → t.dst.byte x = s.dst.byte x)
    else exec .rle s = .next { s with rsp := some 0x300 }

/-- R224: with a cap of at least 1, RLE passes only a block that is not a zero block and with no run open. -/
def Obligations.RlePassesOnlyNonzeroBlocks : Prop :=
  ∀ s t : State, runs .rle s → 0 < s.maxRun.toNat → exec .rle s = .next t → t.rsp = some 0x300 →
    s.an.zb = false ∧ s.run.toNat = 0 ∧ t = { s with rsp := some 0x300 }

/-- R226: RLEFLUSH writes the field of the open run, if there is one, and a zero byte for each slot left, closes the
group and changes nothing else. -/
def Obligations.RleflushFillsTheGroup : Prop :=
  ∀ s : State, runs .rleflush s → s.blk.toNat ≤ 2 → (0 < s.run.toNat → s.blk.toNat < 2) →
    let f := if s.run.toNat = 0 then 0 else if s.run.toNat ≤ 0x7F then 1 else 2
    let z := 2 - s.blk.toNat - if s.run.toNat = 0 then 0 else 1
    ∃ t, exec .rleflush s = .next t ∧
      t = { s with dst := t.dst, dstp := t.dstp, hcur := t.hcur, blk := 2, run := 0, rsp := some 0 } ∧
      movedBy s.dstp t.dstp (f + z) ∧
      (s.hcur.toNat + 3 * s.D * (2 - s.blk.toNat) < 2 ^ 19 →
        t.hcur.toNat = s.hcur.toNat + 3 * s.D * (2 - s.blk.toNat)) ∧
      (f = 1 → (t.dst.byte s.dstp.toNat).toNat = s.run.toNat) ∧
      (f = 2 → (t.dst.byte s.dstp.toNat).toNat = 0x80 + s.run.toNat % 0x80 ∧
        (t.dst.byte (s.dstp.toNat + 1)).toNat = s.run.toNat / 0x80) ∧
      (∀ k < z, t.dst.byte (s.dstp.toNat + f + k) = 0) ∧
      ∀ x, x < s.dstp.toNat ∨ s.dstp.toNat + f + z ≤ x → t.dst.byte x = s.dst.byte x

/-- R225, R228, R229: RLEDEC reads a length field of one or two bytes and writes `n` blocks, zeros at the first block
of the stream, copies of the last record later; it completes the slot, answers `n` and changes nothing else. -/
def Obligations.RledecExpandsTheRun : Prop :=
  ∀ s : State, runs .rledec s →
    let b0 := (s.src.byte s.srcp.toNat).toNat
    let b1 := (s.src.byte (s.srcp.toNat + 1)).toNat
    let n := if b0 < 0x80 then b0 else b0 - 0x80 + 0x80 * b1
    ∃ t r, exec .rledec s = .next t ∧
      t = { s with dst := t.dst, dstp := t.dstp, srcp := t.srcp, blk := s.blk + 1, first := false, rsp := some r } ∧
      r.toNat = 65536 * n ∧ movedBy s.srcp t.srcp (if b0 < 0x80 then 1 else 2) ∧
      movedBy s.dstp t.dstp (8 * n * s.D) ∧
      (∀ k < 8 * n * s.D, t.dst.byte (s.dstp.toNat + k) =
        if s.first = true then 0 else s.dst.byte (s.dstp.toNat - s.D + k % s.D)) ∧
      ∀ x, x < s.dstp.toNat ∨ s.dstp.toNat + 8 * n * s.D ≤ x → t.dst.byte x = s.dst.byte x

/-- R221, R225: the parse of a length field gives back its length, with the number of bytes it takes. -/
def Obligations.LengthFieldParses : Prop :=
  ∀ (s : State) (n : Nat), n ≤ 0x7FFF → s.src.bytes s.srcp.toNat (lenfield n).length = lenfield n →
    runLength s = n ∧ runFieldLen s = (lenfield n).length ∧ (lenfield n).length = if n ≤ 0x7F then 1 else 2

/-! ## Faults -/

/-- R141, R280: of the checks of a command that is neither INIT nor RDREG the first that fails decides the fault, and
with none the command completes. -/
def Obligations.FirstFailingCheckDecides : Prop :=
  ∀ (i : Instr) (s : State), ¬alwaysAdmitted i →
    (s.fault = true → exec i s = .next (faulted s 2)) ∧
    (s.fault = false → s.cfgd = false → exec i s = .next (faulted s 3)) ∧
    (ready s → ¬modeExists i s → exec i s = .next (faulted s 4)) ∧
    (ready s → modeExists i s → ¬admitted i s → exec i s = .next (faulted s 5)) ∧
    (ready s → modeExists i s → admitted i s → (∃ sp a, touched i s sp a ∧ outsideWindow s sp a) →
      exec i s = .next (faulted s 8)) ∧
    (ready s → modeExists i s → admitted i s → (∀ sp a, touched i s sp a → ¬outsideWindow s sp a) →
      ∃ t r, exec i s = .next t ∧ t.rsp = some r ∧ r.toNat % 256 = 0)

/-- R276: a command whose response carries a code changes `FAULT`, `ECODE` and the response, as the code says, and
nothing else. Every command answers. -/
def Obligations.FaultsAreAllOrNothing : Prop :=
  ∀ (i : Instr) (s : State), ∃ t r, exec i s = .next t ∧ t.rsp = some r ∧
    (r.toNat % 256 = 0 ∨ ∃ c : BitVec 8, 1 ≤ c.toNat ∧ c.toNat ≤ 8 ∧ t = faulted s c)

/-- R273: while `FAULT` is set every command but INIT and RDREG answers `E_FAULTED` and does nothing; before the first
successful INIT it answers `E_NOTCFG`. -/
def Obligations.FaultedAndUnconfiguredRefuse : Prop :=
  ∀ (i : Instr) (s : State), ¬alwaysAdmitted i →
    (s.fault = true → exec i s = .next { s with rsp := some 2 }) ∧
    (s.fault = false → s.cfgd = false →
      exec i s = .next { s with fault := true, ecode := 3, rsp := some 3 })

/-- R281: the only steps out of a fault are a reset and a command word that is an INIT. -/
def Obligations.OnlyInitOrResetClearsAFault : Prop :=
  ∀ s t : State, step s = .next t → s.fault = true → t.fault = false →
    (∃ rest, s.host = .reset :: rest) ∨
    ∃ w rest d delta rle, s.host = .command w :: rest ∧ decode w = .ok (.init d delta rle)

/-! ## Memory -/

/-- R68: the accesses a command's meaning checks cover exactly the addresses of the footprint table. -/
def Obligations.FootprintMatchesTheTable : Prop :=
  ∀ (i : Instr) (s : State) (sp : SpaceId) (a : Int),
    (∃ acc ∈ footprint i s, acc.space = sp ∧ within a acc.addr acc.len) ↔ touched i s sp a

/-- R60, R68: no command writes SRC, and a byte of DST that a command changes is in its footprint. -/
def Obligations.CommandsWriteOnlyTheirFootprint : Prop :=
  ∀ (i : Instr) (s t : State), exec i s = .next t →
    t.src = s.src ∧ t.dst.size = s.dst.size ∧
      ∀ x : Nat, ¬touched i s .dst x → t.dst.byte x = s.dst.byte x

/-- R70: the bytes of SRC past the data that HDRDEC, PACK and UNPACK logically consume never reach a result. -/
def Obligations.OverReadBytesNeverShow : Prop :=
  ∀ (i : Instr) (s s₂ t t₂ : State) (m : Memory) (limit : Nat), tablesCoherent s →
    (i = .hdrdec ∧ limit = s.srcp.toNat + (6 * s.D + 7) / 8 ∨ i = .pack ∧ limit = s.srcp.toNat + 8 * s.D ∨
      i = .unpack ∧ limit = s.srcp.toNat + 8 * s.slot.growbytes.toNat) →
    s₂ = { s with src := m } → m.size = s.src.size → (∀ x < limit, m.byte x = s.src.byte x) →
    exec i s = .next t → exec i s₂ = .next t₂ → t₂ = { t with src := m }

/-! ## Registers and invariants -/

/-- R22 to R24, R26 to R33, R230: which commands, INIT apart, may write each register; no other command changes it.
`FAULT` and `ECODE` change only with a response that carries a fault code, and not while `FAULT` is set. That the cap, the
host's list and the counter are fields that no command changes is the model's choice (log entries 9, 5 and 11). -/
def Obligations.RegistersHaveTheirWriters : Prop :=
  ∀ (i : Instr) (s t : State), exec i s = .next t → (∀ d delta rle, i ≠ .init d delta rle) →
    (t.cfgD = s.cfgD ∧ t.cfgDelta = s.cfgDelta ∧ t.cfgRle = s.cfgRle ∧ t.cfgd = s.cfgd) ∧
    (i ≠ .zzenc → i ≠ .zzdec → t.prev = s.prev) ∧
    (i ≠ .zzenc → i ≠ .unpack → t.blkbuf = s.blkbuf) ∧
    (i ≠ .anlz → t.an = s.an) ∧
    (i ≠ .hdrdec → t.g0 = s.g0 ∧ t.g1 = s.g1) ∧
    (i ≠ .rle → i ≠ .rleflush → t.run = s.run) ∧
    (i ≠ .unpack → i ≠ .zzdec → i ≠ .rledec → t.first = s.first) ∧
    (i ≠ .grpbeg → t.hdrp = s.hdrp) ∧
    (i ≠ .grpbeg → i ≠ .hdrdec → t.grp = s.grp) ∧
    ((∀ a, i ≠ .setsrc a) → i ≠ .rle → i ≠ .pack → i ≠ .hdrdec → i ≠ .unpack → i ≠ .rledec → t.srcp = s.srcp) ∧
    ((∀ a, i ≠ .setdst a) → i ≠ .grpbeg → i ≠ .rle → i ≠ .pack → i ≠ .rleflush → i ≠ .unpack → i ≠ .zzdec →
      i ≠ .rledec → t.dstp = s.dstp) ∧
    (i ≠ .grpbeg → i ≠ .rle → i ≠ .hdrput → i ≠ .rleflush → t.hcur = s.hcur) ∧
    (i ≠ .grpbeg → i ≠ .rle → i ≠ .pack → i ≠ .rleflush → i ≠ .hdrdec → i ≠ .unpack → i ≠ .zzdec → i ≠ .rledec →
      t.blk = s.blk) ∧
    (i ≠ .zzenc → i ≠ .anlz → i ≠ .rle → i ≠ .hdrput → i ≠ .pack → i ≠ .unpack → i ≠ .zzdec → t.ph = s.ph) ∧
    (∀ r : Word, t.rsp = some r → r.toNat % 256 = 0 → t.fault = s.fault ∧ t.ecode = s.ecode) ∧
    (s.fault = true → t.fault = true ∧ t.ecode = s.ecode) ∧
    t.maxRun = s.maxRun ∧ t.host = s.host ∧ t.tick = s.tick

/-- R35 at reset, with the clauses that make it inductive. -/
def Obligations.ControlInvariantAtReset : Prop := controlInv State.reset

/-- R35: every step keeps the invariants (a) to (d). -/
def Obligations.StepKeepsTheControlInvariant : Prop :=
  ∀ s t : State, controlInv s → step s = .next t → controlInv t

/-- R62: both memories have their canonical form at reset. The form is the model's own (log entry 2), and so are the
windows at reset (log entry 1). -/
def Obligations.MemoryInvariantAtReset : Prop := memoryInv State.reset

/-- R62, R64, R141: every step keeps the canonical form of both memories: no byte is listed outside its window. The
form is the model's own (log entry 2). -/
def Obligations.StepKeepsTheMemoryInvariant : Prop :=
  ∀ s t : State, memoryInv s → step s = .next t → memoryInv t

/-- R32, R33: no table needs to be coherent at reset. -/
def Obligations.TablesCoherentAtReset : Prop := tablesCoherent State.reset

/-- R32, R33, R163 to R165, R201, R202: every step keeps the tables that a later command may read coherent. -/
def Obligations.StepKeepsTheTablesCoherent : Prop :=
  ∀ s t : State, tablesCoherent s → step s = .next t → tablesCoherent t
end

