-- ==== Sys2Proof/Laws/Primitives.lean ====
section
/-! SUPPORT. What each primitive function does, said once (40_primitives_control.md part 1). -/

namespace Sys2Proof.Machine

/-! ## Bits of a list -/

theorem testBit_bitsToNat (l : List Bool) (k : Nat) : (bitsToNat l).testBit k = l.getD k false := by
  induction l generalizing k with
  | nil => simp [bitsToNat]
  | cons b bs ih =>
    have hb : b.toNat < 2 := by cases b <;> decide
    cases k with
    | zero =>
      have : (b.toNat + 2 * bitsToNat bs) % 2 = b.toNat := by omega
      cases b <;> simp_all [bitsToNat, Nat.testBit_zero]
    | succ k =>
      have : (b.toNat + 2 * bitsToNat bs) / 2 = bitsToNat bs := by omega
      simp [bitsToNat, Nat.testBit_succ, this, ih]

theorem mem_maskPositions {m : Word} {p : Nat} : p ∈ maskPositions m ↔ p < 64 ∧ m.getLsbD p = true := by
  simp [maskPositions]

theorem popcount_le (m : Word) : popcount m ≤ 64 := by
  simpa [popcount, maskPositions] using List.length_filter_le (fun p => m.getLsbD p) (List.range 64)

/-- Bit `k` of an extract is the bit of `x` at the `k`-th set position of the mask, 0 past the last (R130). -/
theorem getLsbD_pext (x m : Word) (k : Nat) :
    (pext x m).getLsbD k = ((maskPositions m).map fun p => x.getLsbD p).getD k false := by
  have hlen : (maskPositions m).length ≤ 64 := popcount_le m
  simp only [pext, BitVec.getLsbD_ofNat, testBit_bitsToNat]
  by_cases hk : k < 64
  · simp [hk]
  · have : (maskPositions m).length ≤ k := by omega
    simp [hk, List.getD_eq_getElem?_getD, this]

/-- Bit `p` of a deposit is bit `rank m p` of `x` where the mask is set, 0 elsewhere (R131). -/
theorem getLsbD_pdep (x m : Word) (p : Nat) :
    (pdep x m).getLsbD p = (m.getLsbD p && x.getLsbD (rank m p)) := by
  simp only [pdep, BitVec.getLsbD_ofNat, testBit_bitsToNat]
  by_cases hp : p < 64
  · simp [hp, List.getD_eq_getElem?_getD]
  · simp [hp, BitVec.getLsbD_of_ge m p (by omega)]

theorem pext_zero_mask (x : Word) : pext x 0 = 0 := by
  apply BitVec.eq_of_getLsbD_eq
  intro k _
  have : maskPositions 0#64 = [] := by decide
  simp [getLsbD_pext, this]

theorem pdep_zero_mask (x : Word) : pdep x 0 = 0 := by
  apply BitVec.eq_of_getLsbD_eq
  intro p _
  simp [getLsbD_pdep]

/-! ## Little-endian bytes -/

@[simp] theorem length_natToBytes (n v : Nat) : (natToBytes n v).length = n := by simp [natToBytes]

theorem getD_natToBytes {n k : Nat} (v : Nat) (h : k < n) :
    (natToBytes n v).getD k 0 = BitVec.ofNat 8 (v >>> (8 * k)) := by
  simp [natToBytes, List.getD_eq_getElem?_getD, h]

theorem bytesToNat_lt (l : List Byte) : bytesToNat l < 256 ^ l.length := by
  induction l with
  | nil => simp [bytesToNat]
  | cons b bs ih =>
    have hb := b.isLt
    simp only [bytesToNat, List.length_cons, Nat.pow_succ]
    omega

/-- Bit `k` of a little-endian integer is bit `k mod 8` of its byte `k div 8` (R66, R94). -/
theorem testBit_bytesToNat (l : List Byte) (k : Nat) :
    (bytesToNat l).testBit k = (l.getD (k / 8) 0).getLsbD (k % 8) := by
  induction l generalizing k with
  | nil => simp [bytesToNat]
  | cons b bs ih =>
    have h : bytesToNat (b :: bs) = 2 ^ 8 * bytesToNat bs + b.toNat := by simp [bytesToNat]; omega
    rw [h, Nat.testBit_two_pow_mul_add _ b.isLt]
    by_cases hk : k < 8
    · simp [hk, Nat.div_eq_of_lt hk, Nat.mod_eq_of_lt hk, BitVec.getLsbD]
    · have h1 : k / 8 = (k - 8) / 8 + 1 := by omega
      have h2 : (k - 8) % 8 = k % 8 := by omega
      rw [if_neg hk, ih, h1, h2, List.getD_cons_succ]

/-! ## Widths -/

theorem codeWidth_le (c : BitVec 3) : (codeWidth c).toNat ≤ 8 := by
  revert c; decide

/-- The packing mask of a code is the low bits of its width (R136). -/
theorem nbitsMask_eq (c : BitVec 3) : (nbitsMask c).toNat = 2 ^ (codeWidth c).toNat - 1 := by
  revert c; decide

theorem bitLength_le (m : Byte) : bitLength m ≤ 8 := by
  revert m; decide

/-- The width of a byte: it fits in that many bits and, unless it is 0, in no fewer (R134). -/
theorem bitLength_spec (m : Byte) :
    m.toNat < 2 ^ bitLength m ∧ (m ≠ 0 → 2 ^ (bitLength m - 1) ≤ m.toNat) := by
  revert m; decide

theorem getLsbD_orBytes (vs : List Byte) (k : Nat) :
    (orBytes vs).getLsbD k = vs.any fun v => v.getLsbD k := by
  induction vs with
  | nil => simp [orBytes]
  | cons b bs ih => simp [orBytes, ih]

/-! ## Length fields -/

theorem length_lenfield (n : Nat) : (lenfield n).length = if n ≤ 0x7F then 1 else 2 := by
  unfold lenfield; split <;> rfl

end Sys2Proof.Machine
end

