-- ==== Sys2Proof/Laws/State.lean ====
section
/-! SUPPORT. One lemma per field of State and named update, each true by rfl, so that no proof unfolds an
update; and the size a memory keeps under every memory operation. -/

namespace Sys2Proof.Machine

variable (s : State)

/-! ## respond (R112) -/

@[simp] theorem respond_cfgD (o : RspOutcome) (v : BitVec 48) : (s.respond o v).cfgD = s.cfgD := rfl
@[simp] theorem respond_cfgDelta (o : RspOutcome) (v : BitVec 48) : (s.respond o v).cfgDelta = s.cfgDelta := rfl
@[simp] theorem respond_cfgRle (o : RspOutcome) (v : BitVec 48) : (s.respond o v).cfgRle = s.cfgRle := rfl
@[simp] theorem respond_cfgd (o : RspOutcome) (v : BitVec 48) : (s.respond o v).cfgd = s.cfgd := rfl
@[simp] theorem respond_fault (o : RspOutcome) (v : BitVec 48) : (s.respond o v).fault = s.fault := rfl
@[simp] theorem respond_ecode (o : RspOutcome) (v : BitVec 48) : (s.respond o v).ecode = s.ecode := rfl
@[simp] theorem respond_srcp (o : RspOutcome) (v : BitVec 48) : (s.respond o v).srcp = s.srcp := rfl
@[simp] theorem respond_dstp (o : RspOutcome) (v : BitVec 48) : (s.respond o v).dstp = s.dstp := rfl
@[simp] theorem respond_hdrp (o : RspOutcome) (v : BitVec 48) : (s.respond o v).hdrp = s.hdrp := rfl
@[simp] theorem respond_hcur (o : RspOutcome) (v : BitVec 48) : (s.respond o v).hcur = s.hcur := rfl
@[simp] theorem respond_blk (o : RspOutcome) (v : BitVec 48) : (s.respond o v).blk = s.blk := rfl
@[simp] theorem respond_grp (o : RspOutcome) (v : BitVec 48) : (s.respond o v).grp = s.grp := rfl
@[simp] theorem respond_ph (o : RspOutcome) (v : BitVec 48) : (s.respond o v).ph = s.ph := rfl
@[simp] theorem respond_run (o : RspOutcome) (v : BitVec 48) : (s.respond o v).run = s.run := rfl
@[simp] theorem respond_first (o : RspOutcome) (v : BitVec 48) : (s.respond o v).first = s.first := rfl
@[simp] theorem respond_blkbuf (o : RspOutcome) (v : BitVec 48) : (s.respond o v).blkbuf = s.blkbuf := rfl
@[simp] theorem respond_prev (o : RspOutcome) (v : BitVec 48) : (s.respond o v).prev = s.prev := rfl
@[simp] theorem respond_an (o : RspOutcome) (v : BitVec 48) : (s.respond o v).an = s.an := rfl
@[simp] theorem respond_g0 (o : RspOutcome) (v : BitVec 48) : (s.respond o v).g0 = s.g0 := rfl
@[simp] theorem respond_g1 (o : RspOutcome) (v : BitVec 48) : (s.respond o v).g1 = s.g1 := rfl
@[simp] theorem respond_src (o : RspOutcome) (v : BitVec 48) : (s.respond o v).src = s.src := rfl
@[simp] theorem respond_dst (o : RspOutcome) (v : BitVec 48) : (s.respond o v).dst = s.dst := rfl
@[simp] theorem respond_maxRun (o : RspOutcome) (v : BitVec 48) : (s.respond o v).maxRun = s.maxRun := rfl
@[simp] theorem respond_host (o : RspOutcome) (v : BitVec 48) : (s.respond o v).host = s.host := rfl
@[simp] theorem respond_rsp (o : RspOutcome) (v : BitVec 48) : (s.respond o v).rsp = some (rspWord 0 o.code v) := rfl
@[simp] theorem respond_tick (o : RspOutcome) (v : BitVec 48) : (s.respond o v).tick = s.tick := rfl

/-! ## raise (R276) -/

@[simp] theorem raise_cfgD (c : FaultCode) : (s.raise c).cfgD = s.cfgD := rfl
@[simp] theorem raise_cfgDelta (c : FaultCode) : (s.raise c).cfgDelta = s.cfgDelta := rfl
@[simp] theorem raise_cfgRle (c : FaultCode) : (s.raise c).cfgRle = s.cfgRle := rfl
@[simp] theorem raise_cfgd (c : FaultCode) : (s.raise c).cfgd = s.cfgd := rfl
@[simp] theorem raise_fault (c : FaultCode) : (s.raise c).fault = true := rfl
@[simp] theorem raise_ecode (c : FaultCode) : (s.raise c).ecode = (if s.fault then s.ecode else c.code) := rfl
@[simp] theorem raise_srcp (c : FaultCode) : (s.raise c).srcp = s.srcp := rfl
@[simp] theorem raise_dstp (c : FaultCode) : (s.raise c).dstp = s.dstp := rfl
@[simp] theorem raise_hdrp (c : FaultCode) : (s.raise c).hdrp = s.hdrp := rfl
@[simp] theorem raise_hcur (c : FaultCode) : (s.raise c).hcur = s.hcur := rfl
@[simp] theorem raise_blk (c : FaultCode) : (s.raise c).blk = s.blk := rfl
@[simp] theorem raise_grp (c : FaultCode) : (s.raise c).grp = s.grp := rfl
@[simp] theorem raise_ph (c : FaultCode) : (s.raise c).ph = s.ph := rfl
@[simp] theorem raise_run (c : FaultCode) : (s.raise c).run = s.run := rfl
@[simp] theorem raise_first (c : FaultCode) : (s.raise c).first = s.first := rfl
@[simp] theorem raise_blkbuf (c : FaultCode) : (s.raise c).blkbuf = s.blkbuf := rfl
@[simp] theorem raise_prev (c : FaultCode) : (s.raise c).prev = s.prev := rfl
@[simp] theorem raise_an (c : FaultCode) : (s.raise c).an = s.an := rfl
@[simp] theorem raise_g0 (c : FaultCode) : (s.raise c).g0 = s.g0 := rfl
@[simp] theorem raise_g1 (c : FaultCode) : (s.raise c).g1 = s.g1 := rfl
@[simp] theorem raise_src (c : FaultCode) : (s.raise c).src = s.src := rfl
@[simp] theorem raise_dst (c : FaultCode) : (s.raise c).dst = s.dst := rfl
@[simp] theorem raise_maxRun (c : FaultCode) : (s.raise c).maxRun = s.maxRun := rfl
@[simp] theorem raise_host (c : FaultCode) : (s.raise c).host = s.host := rfl
@[simp] theorem raise_rsp (c : FaultCode) : (s.raise c).rsp = some (rspWord c.code 0 0) := rfl
@[simp] theorem raise_tick (c : FaultCode) : (s.raise c).tick = s.tick := rfl

/-! ## accept -/

@[simp] theorem accept_cfgD (r : List HostEvent) : (s.accept r).cfgD = s.cfgD := rfl
@[simp] theorem accept_cfgDelta (r : List HostEvent) : (s.accept r).cfgDelta = s.cfgDelta := rfl
@[simp] theorem accept_cfgRle (r : List HostEvent) : (s.accept r).cfgRle = s.cfgRle := rfl
@[simp] theorem accept_cfgd (r : List HostEvent) : (s.accept r).cfgd = s.cfgd := rfl
@[simp] theorem accept_fault (r : List HostEvent) : (s.accept r).fault = s.fault := rfl
@[simp] theorem accept_ecode (r : List HostEvent) : (s.accept r).ecode = s.ecode := rfl
@[simp] theorem accept_srcp (r : List HostEvent) : (s.accept r).srcp = s.srcp := rfl
@[simp] theorem accept_dstp (r : List HostEvent) : (s.accept r).dstp = s.dstp := rfl
@[simp] theorem accept_hdrp (r : List HostEvent) : (s.accept r).hdrp = s.hdrp := rfl
@[simp] theorem accept_hcur (r : List HostEvent) : (s.accept r).hcur = s.hcur := rfl
@[simp] theorem accept_blk (r : List HostEvent) : (s.accept r).blk = s.blk := rfl
@[simp] theorem accept_grp (r : List HostEvent) : (s.accept r).grp = s.grp := rfl
@[simp] theorem accept_ph (r : List HostEvent) : (s.accept r).ph = s.ph := rfl
@[simp] theorem accept_run (r : List HostEvent) : (s.accept r).run = s.run := rfl
@[simp] theorem accept_first (r : List HostEvent) : (s.accept r).first = s.first := rfl
@[simp] theorem accept_blkbuf (r : List HostEvent) : (s.accept r).blkbuf = s.blkbuf := rfl
@[simp] theorem accept_prev (r : List HostEvent) : (s.accept r).prev = s.prev := rfl
@[simp] theorem accept_an (r : List HostEvent) : (s.accept r).an = s.an := rfl
@[simp] theorem accept_g0 (r : List HostEvent) : (s.accept r).g0 = s.g0 := rfl
@[simp] theorem accept_g1 (r : List HostEvent) : (s.accept r).g1 = s.g1 := rfl
@[simp] theorem accept_src (r : List HostEvent) : (s.accept r).src = s.src := rfl
@[simp] theorem accept_dst (r : List HostEvent) : (s.accept r).dst = s.dst := rfl
@[simp] theorem accept_maxRun (r : List HostEvent) : (s.accept r).maxRun = s.maxRun := rfl
@[simp] theorem accept_host (r : List HostEvent) : (s.accept r).host = r := rfl
@[simp] theorem accept_rsp (r : List HostEvent) : (s.accept r).rsp = s.rsp := rfl
@[simp] theorem accept_tick (r : List HostEvent) : (s.accept r).tick = s.tick + 1 := rfl

/-! ## rst (R300) -/

@[simp] theorem rst_cfgD : (s.rst).cfgD = State.reset.cfgD := rfl
@[simp] theorem rst_cfgDelta : (s.rst).cfgDelta = State.reset.cfgDelta := rfl
@[simp] theorem rst_cfgRle : (s.rst).cfgRle = State.reset.cfgRle := rfl
@[simp] theorem rst_cfgd : (s.rst).cfgd = State.reset.cfgd := rfl
@[simp] theorem rst_fault : (s.rst).fault = State.reset.fault := rfl
@[simp] theorem rst_ecode : (s.rst).ecode = State.reset.ecode := rfl
@[simp] theorem rst_srcp : (s.rst).srcp = State.reset.srcp := rfl
@[simp] theorem rst_dstp : (s.rst).dstp = State.reset.dstp := rfl
@[simp] theorem rst_hdrp : (s.rst).hdrp = State.reset.hdrp := rfl
@[simp] theorem rst_hcur : (s.rst).hcur = State.reset.hcur := rfl
@[simp] theorem rst_blk : (s.rst).blk = State.reset.blk := rfl
@[simp] theorem rst_grp : (s.rst).grp = State.reset.grp := rfl
@[simp] theorem rst_ph : (s.rst).ph = State.reset.ph := rfl
@[simp] theorem rst_run : (s.rst).run = State.reset.run := rfl
@[simp] theorem rst_first : (s.rst).first = State.reset.first := rfl
@[simp] theorem rst_blkbuf : (s.rst).blkbuf = State.reset.blkbuf := rfl
@[simp] theorem rst_prev : (s.rst).prev = State.reset.prev := rfl
@[simp] theorem rst_an : (s.rst).an = State.reset.an := rfl
@[simp] theorem rst_g0 : (s.rst).g0 = State.reset.g0 := rfl
@[simp] theorem rst_g1 : (s.rst).g1 = State.reset.g1 := rfl
@[simp] theorem rst_src : (s.rst).src = s.src := rfl
@[simp] theorem rst_dst : (s.rst).dst = s.dst := rfl
@[simp] theorem rst_maxRun : (s.rst).maxRun = s.maxRun := rfl
@[simp] theorem rst_host : (s.rst).host = s.host := rfl
@[simp] theorem rst_rsp : (s.rst).rsp = State.reset.rsp := rfl
@[simp] theorem rst_tick : (s.rst).tick = s.tick := rfl

/-! ## configure (R143) -/

@[simp] theorem configure_cfgD (d : BitVec 16) (delta rle : Bool) : (s.configure d delta rle).cfgD = d := rfl
@[simp] theorem configure_cfgDelta (d : BitVec 16) (delta rle : Bool) : (s.configure d delta rle).cfgDelta = delta := rfl
@[simp] theorem configure_cfgRle (d : BitVec 16) (delta rle : Bool) : (s.configure d delta rle).cfgRle = rle := rfl
@[simp] theorem configure_cfgd (d : BitVec 16) (delta rle : Bool) : (s.configure d delta rle).cfgd = true := rfl
@[simp] theorem configure_fault (d : BitVec 16) (delta rle : Bool) : (s.configure d delta rle).fault = State.reset.fault := rfl
@[simp] theorem configure_ecode (d : BitVec 16) (delta rle : Bool) : (s.configure d delta rle).ecode = State.reset.ecode := rfl
@[simp] theorem configure_srcp (d : BitVec 16) (delta rle : Bool) : (s.configure d delta rle).srcp = State.reset.srcp := rfl
@[simp] theorem configure_dstp (d : BitVec 16) (delta rle : Bool) : (s.configure d delta rle).dstp = State.reset.dstp := rfl
@[simp] theorem configure_hdrp (d : BitVec 16) (delta rle : Bool) : (s.configure d delta rle).hdrp = State.reset.hdrp := rfl
@[simp] theorem configure_hcur (d : BitVec 16) (delta rle : Bool) : (s.configure d delta rle).hcur = State.reset.hcur := rfl
@[simp] theorem configure_blk (d : BitVec 16) (delta rle : Bool) : (s.configure d delta rle).blk = State.reset.blk := rfl
@[simp] theorem configure_grp (d : BitVec 16) (delta rle : Bool) : (s.configure d delta rle).grp = State.reset.grp := rfl
@[simp] theorem configure_ph (d : BitVec 16) (delta rle : Bool) : (s.configure d delta rle).ph = State.reset.ph := rfl
@[simp] theorem configure_run (d : BitVec 16) (delta rle : Bool) : (s.configure d delta rle).run = State.reset.run := rfl
@[simp] theorem configure_first (d : BitVec 16) (delta rle : Bool) : (s.configure d delta rle).first = State.reset.first := rfl
@[simp] theorem configure_blkbuf (d : BitVec 16) (delta rle : Bool) : (s.configure d delta rle).blkbuf = List.replicate 8 (List.replicate (8 * stripesOf d.toNat) 0) := rfl
@[simp] theorem configure_prev (d : BitVec 16) (delta rle : Bool) : (s.configure d delta rle).prev = List.replicate d.toNat 0 := rfl
@[simp] theorem configure_an (d : BitVec 16) (delta rle : Bool) : (s.configure d delta rle).an = Analysis.zero (stripesOf d.toNat) := rfl
@[simp] theorem configure_g0 (d : BitVec 16) (delta rle : Bool) : (s.configure d delta rle).g0 = SlotTables.zero (stripesOf d.toNat) := rfl
@[simp] theorem configure_g1 (d : BitVec 16) (delta rle : Bool) : (s.configure d delta rle).g1 = SlotTables.zero (stripesOf d.toNat) := rfl
@[simp] theorem configure_src (d : BitVec 16) (delta rle : Bool) : (s.configure d delta rle).src = s.src := rfl
@[simp] theorem configure_dst (d : BitVec 16) (delta rle : Bool) : (s.configure d delta rle).dst = s.dst := rfl
@[simp] theorem configure_maxRun (d : BitVec 16) (delta rle : Bool) : (s.configure d delta rle).maxRun = s.maxRun := rfl
@[simp] theorem configure_host (d : BitVec 16) (delta rle : Bool) : (s.configure d delta rle).host = s.host := rfl
@[simp] theorem configure_rsp (d : BitVec 16) (delta rle : Bool) : (s.configure d delta rle).rsp = s.rsp := rfl
@[simp] theorem configure_tick (d : BitVec 16) (delta rle : Bool) : (s.configure d delta rle).tick = s.tick := rfl

/-! ## Derived quantities see only the fields they read -/

@[simp] theorem respond_D (o : RspOutcome) (v : BitVec 48) : (s.respond o v).D = s.D := rfl
@[simp] theorem raise_D (c : FaultCode) : (s.raise c).D = s.D := rfl
@[simp] theorem accept_D (r : List HostEvent) : (s.accept r).D = s.D := rfl
@[simp] theorem space_src : s.space .src = s.src := rfl
@[simp] theorem space_dst : s.space .dst = s.dst := rfl

/-! ## The window stays -/

variable (m : Memory)

@[simp] theorem put_size (a : Nat) (bs : List Byte) : (m.put a bs).size = m.size := rfl
@[simp] theorem write_size (a n v : Nat) : (m.write a n v).size = m.size := rfl
@[simp] theorem or_size (a n v : Nat) : (m.or a n v).size = m.size := rfl
@[simp] theorem zero_size (a n : Nat) : (m.zero a n).size = m.size := rfl
@[simp] theorem memrep_size (d a k n : Nat) : (m.memrep d a k n).size = m.size := rfl

end Sys2Proof.Machine
end

