-- ==== Sys2Proof/Laws/Memory.lean ====
section
/-! SUPPORT. What each memory operation does to every byte, and that it keeps the canonical form (20_memory.md). -/

namespace Sys2Proof.Machine

/-! ## Lookup in a list of cells -/

theorem lookup_append (l₁ l₂ : List Host.Cell) (x : Nat) :
    (l₁ ++ l₂).lookup x = (l₁.lookup x).or (l₂.lookup x) := by
  induction l₁ with
  | nil => simp
  | cons c cs ih =>
    obtain ⟨a, b⟩ := c
    by_cases h : x = a
    · subst h; simp
    · have : (x == a) = false := by simp [h]
      simp [List.lookup_cons, this, ih]

theorem lookup_filter (l : List Host.Cell) (p : Nat → Bool) (x : Nat) :
    (l.filter fun c => p c.1).lookup x = if p x then l.lookup x else none := by
  induction l with
  | nil => simp
  | cons c cs ih =>
    obtain ⟨a, b⟩ := c
    by_cases h : x = a
    · subst h
      cases hp : p x <;> simp [hp, ih]
    · have hx : (x == a) = false := by simp [h]
      cases hp : p a <;> simp [hp, List.lookup_cons, hx, ih]

theorem lookup_cellsFrom (a : Nat) (bs : List Byte) (x : Nat) :
    ((cellsFrom a bs).lookup x).getD Config.unlistedByte =
      if a ≤ x ∧ x < a + bs.length then bs.getD (x - a) 0 else Config.unlistedByte := by
  induction bs generalizing a with
  | nil => simp [cellsFrom]
  | cons b bs ih =>
    by_cases hx : x = a
    · subst hx
      by_cases hb : b = Config.unlistedByte
      · simp [cellsFrom, hb, ih]
      · simp [cellsFrom, hb]
    · have hne : (x == a) = false := by simp [hx]
      have key : ((cellsFrom a (b :: bs)).lookup x) = (cellsFrom (a + 1) bs).lookup x := by
        by_cases hb : b = Config.unlistedByte <;> simp [cellsFrom, hb, List.lookup_cons, hne]
      rw [key, ih]
      by_cases hlt : a + 1 ≤ x
      · have h1 : x - a = (x - (a + 1)) + 1 := by omega
        have h2 : (a + 1 ≤ x ∧ x < a + 1 + bs.length) ↔ (a ≤ x ∧ x < a + (b :: bs).length) := by
          simp only [List.length_cons]; omega
        rw [h1, List.getD_cons_succ]
        simp only [h2]
      · have h1 : ¬(a + 1 ≤ x ∧ x < a + 1 + bs.length) := by omega
        have h2 : ¬(a ≤ x ∧ x < a + (b :: bs).length) := by omega
        simp only [h1, h2, if_false]

theorem lookup_cellsFrom_outside {a : Nat} {bs : List Byte} {x : Nat} (h : ¬(a ≤ x ∧ x < a + bs.length)) :
    (cellsFrom a bs).lookup x = none := by
  induction bs generalizing a with
  | nil => simp [cellsFrom]
  | cons b bs ih =>
    have hne : (x == a) = false := by
      simp only [beq_eq_false_iff_ne, ne_eq]; rintro rfl; simp at h
    have h' : ¬(a + 1 ≤ x ∧ x < a + 1 + bs.length) := by simp only [List.length_cons] at h; omega
    by_cases hb : b = Config.unlistedByte <;> simp [cellsFrom, hb, List.lookup_cons, hne, ih h']

/-! ## Bytes after a write -/

/-- A write gives the bytes written and leaves every other byte (R64). -/
theorem byte_put (m : Memory) (a : Nat) (bs : List Byte) (x : Nat) :
    (m.put a bs).byte x = if a ≤ x ∧ x < a + bs.length then bs.getD (x - a) 0 else m.byte x := by
  have e1 := lookup_filter m.cells (fun y => decide (y < a)) x
  have e2 := lookup_filter m.cells (fun y => decide (a + bs.length ≤ y)) x
  simp only [Memory.byte, Memory.put, lookup_append, e1, e2]
  by_cases hin : a ≤ x ∧ x < a + bs.length
  · have h1 : ¬ x < a := by omega
    have h2 : ¬ a + bs.length ≤ x := by omega
    simp only [h1, h2, decide_false, Bool.false_eq_true, if_false, Option.none_or, Option.or_none, lookup_cellsFrom]
    rw [if_pos hin, if_pos hin]
  · rw [lookup_cellsFrom_outside hin, if_neg hin]
    by_cases hlt : x < a
    · have h2 : ¬ a + bs.length ≤ x := by omega
      simp [hlt, h2]
    · have h2 : a + bs.length ≤ x := by omega
      simp [hlt, h2]

theorem byte_put_outside (m : Memory) {a : Nat} {bs : List Byte} {x : Nat} (h : x < a ∨ a + bs.length ≤ x) :
    (m.put a bs).byte x = m.byte x := by
  rw [byte_put, if_neg (by omega)]

@[simp] theorem length_bytes (m : Memory) (a n : Nat) : (m.bytes a n).length = n := by simp [Memory.bytes]

theorem getD_bytes (m : Memory) (a : Nat) {n k : Nat} (h : k < n) : (m.bytes a n).getD k 0 = m.byte (a + k) := by
  simp [Memory.bytes, List.getD_eq_getElem?_getD, h]

theorem read_lt (m : Memory) (a n : Nat) : m.read a n < 256 ^ n := by
  simpa [Memory.read] using bytesToNat_lt (m.bytes a n)

/-- Bit `k` of a read is bit `k mod 8` of the byte at `a + k div 8` (R63, R94). -/
theorem testBit_read (m : Memory) (a : Nat) {n k : Nat} (h : k < 8 * n) :
    (m.read a n).testBit k = (m.byte (a + k / 8)).getLsbD (k % 8) := by
  rw [Memory.read, testBit_bytesToNat, getD_bytes m a (by omega)]

theorem byte_write (m : Memory) (a n v x : Nat) :
    (m.write a n v).byte x = if a ≤ x ∧ x < a + n then BitVec.ofNat 8 (v >>> (8 * (x - a))) else m.byte x := by
  rw [Memory.write, byte_put, length_natToBytes]
  split
  · rw [getD_natToBytes _ (by omega)]
  · rfl

/-- An OR into memory ORs each byte it covers with the matching byte of the value (R65). -/
theorem byte_or (m : Memory) (a n v x : Nat) :
    (m.or a n v).byte x =
      if a ≤ x ∧ x < a + n then m.byte x ||| BitVec.ofNat 8 (v >>> (8 * (x - a))) else m.byte x := by
  rw [Memory.or, byte_write]
  split
  case isTrue h =>
    apply BitVec.eq_of_getLsbD_eq
    intro k hk
    have e : a + (8 * (x - a) + k) / 8 = x := by omega
    have e' : (8 * (x - a) + k) % 8 = k := by omega
    have hb : (m.read a n).testBit (8 * (x - a) + k) = (m.byte x).getLsbD k := by
      rw [testBit_read m a (by omega), e, e']
    simp only [BitVec.getLsbD_or, BitVec.getLsbD_ofNat, hk, decide_true, Bool.true_and, Nat.testBit_shiftRight,
      Nat.testBit_or, hb]
  case isFalse => rfl

theorem byte_zero (m : Memory) (a n x : Nat) :
    (m.zero a n).byte x = if a ≤ x ∧ x < a + n then 0 else m.byte x := by
  rw [Memory.zero, byte_put, List.length_replicate]
  split
  · simp only [List.getD_eq_getElem?_getD, List.getElem?_replicate]
    split <;> rfl
  · rfl

theorem length_copies (l : List Byte) (n : Nat) : (List.replicate n l).flatten.length = n * l.length := by
  simp [List.length_flatten]

theorem getD_copies (l : List Byte) (n k : Nat) (h : k < n * l.length) :
    (List.replicate n l).flatten.getD k 0 = l.getD (k % l.length) 0 := by
  induction n generalizing k with
  | zero => simp at h
  | succ n ih =>
    rw [List.replicate_succ, List.flatten_cons]
    rcases Nat.lt_or_ge k l.length with hk | hk
    · rw [List.getD_append _ _ _ _ hk, Nat.mod_eq_of_lt hk]
    · rw [List.getD_append_right _ _ _ _ hk, ih (k - l.length) (by rw [Nat.succ_mul] at h; omega), Nat.mod_eq_sub_mod hk]

/-- `memrep` repeats the source bytes, read before any of them is written (R138). -/
theorem byte_memrep (m : Memory) (d a k n x : Nat) :
    (m.memrep d a k n).byte x = if d ≤ x ∧ x < d + n * k then m.byte (a + (x - d) % k) else m.byte x := by
  rw [Memory.memrep, byte_put, length_copies, length_bytes]
  split
  case isTrue h =>
    rw [getD_copies _ _ _ (by rw [length_bytes]; omega), length_bytes]
    have hk : 0 < k := by
      rcases Nat.eq_zero_or_pos k with h0 | h0
      · subst h0; simp at h; omega
      · exact h0
    exact getD_bytes m a (Nat.mod_lt _ hk)
  case isFalse => rfl

/-! ## The canonical form -/

theorem cellsFrom_bounds {a : Nat} {bs : List Byte} {c : Host.Cell} (h : c ∈ cellsFrom a bs) :
    a ≤ c.1 ∧ c.1 < a + bs.length ∧ c.2 ≠ Config.unlistedByte := by
  induction bs generalizing a with
  | nil => simp [cellsFrom] at h
  | cons b bs ih =>
    simp only [cellsFrom] at h
    split at h
    · obtain ⟨h1, h2, h3⟩ := ih h
      simp only [List.length_cons]; exact ⟨by omega, by omega, h3⟩
    · rcases List.mem_cons.1 h with rfl | h
      · simp only [List.length_cons]; exact ⟨Nat.le_refl _, by omega, ‹_›⟩
      · obtain ⟨h1, h2, h3⟩ := ih h
        simp only [List.length_cons]; exact ⟨by omega, by omega, h3⟩

theorem cellsFrom_rising (a : Nat) (bs : List Byte) : (cellsFrom a bs).Pairwise (fun x y => x.1 < y.1) := by
  induction bs generalizing a with
  | nil => simp [cellsFrom]
  | cons b bs ih =>
    simp only [cellsFrom]
    split
    · exact ih _
    · refine List.pairwise_cons.2 ⟨fun c hc => ?_, ih _⟩
      have := (cellsFrom_bounds hc).1
      simp only; omega

/-- A write inside the window keeps the canonical form. -/
theorem put_wf {m : Memory} (hm : m.wf) {a : Nat} {bs : List Byte} (h : bs = [] ∨ a + bs.length ≤ m.size) :
    (m.put a bs).wf := by
  obtain ⟨hsize, hrise, hcells⟩ := hm
  refine ⟨hsize, ?_, ?_⟩
  · simp only [Memory.put, List.pairwise_append]
    refine ⟨⟨hrise.filter _, cellsFrom_rising _ _, ?_⟩, hrise.filter _, ?_⟩
    · intro c hc d hd
      have h1 := (cellsFrom_bounds hd).1
      have h2 : c.1 < a := by simpa using (List.mem_filter.1 hc).2
      omega
    · intro c hc d hd
      have h1 : a + bs.length ≤ d.1 := by simpa using (List.mem_filter.1 hd).2
      rcases List.mem_append.1 hc with hc | hc
      · have h2 : c.1 < a := by simpa using (List.mem_filter.1 hc).2
        omega
      · have h2 := (cellsFrom_bounds hc).2.1
        omega
  · intro c hc
    simp only [Memory.put, List.mem_append, List.mem_filter] at hc
    rcases hc with (⟨hc, -⟩ | hc) | ⟨hc, -⟩
    · exact hcells c hc
    · obtain ⟨-, h2, h3⟩ := cellsFrom_bounds hc
      rcases h with rfl | h
      · simp [cellsFrom] at hc
      · exact ⟨Nat.lt_of_lt_of_le h2 h, h3⟩
    · exact hcells c hc

theorem write_wf {m : Memory} (hm : m.wf) {a n v : Nat} (h : a + n ≤ m.size) : (m.write a n v).wf :=
  put_wf hm (.inr (by simpa using h))

theorem or_wf {m : Memory} (hm : m.wf) {a n v : Nat} (h : a + n ≤ m.size) : (m.or a n v).wf :=
  write_wf hm h

theorem zero_wf {m : Memory} (hm : m.wf) {a n : Nat} (h : n = 0 ∨ a + n ≤ m.size) : (m.zero a n).wf :=
  put_wf hm (by rcases h with rfl | h <;> simp_all)

theorem memrep_wf {m : Memory} (hm : m.wf) {d a k n : Nat} (h : n * k = 0 ∨ d + n * k ≤ m.size) :
    (m.memrep d a k n).wf := by
  refine put_wf hm ?_
  rw [length_copies, length_bytes]
  rcases h with h | h
  · exact .inl (List.eq_nil_of_length_eq_zero (by rw [length_copies, length_bytes, h]))
  · exact .inr h

theorem reset_src_wf : State.reset.src.wf := by decide

theorem reset_dst_wf : State.reset.dst.wf := by decide

end Sys2Proof.Machine
end

