-- ==== Sys2Proof/Laws/Ops.lean ====
section
/-! SUPPORT. What the shared operations over the whole state can do, said once: the checks (R141), a fault (R276),
the cursors (R26), a footprint (R62, R279). -/

namespace Sys2Proof.Machine

/-- The response word as a number (R112). -/
theorem rspWord_toNat (status outcome : BitVec 8) (value : BitVec 48) :
    (rspWord status outcome value).toNat = status.toNat + 256 * outcome.toNat + 65536 * value.toNat := by
  have h1 := status.isLt
  have h2 := outcome.isLt
  simp only [rspWord, BitVec.toNat_append]
  rw [← Nat.shiftLeft_add_eq_or_of_lt h1, ← Nat.shiftLeft_add_eq_or_of_lt h2]
  simp only [Nat.shiftLeft_eq]
  omega

/-- The response to a fault carries its code and nothing else (R112, R276). -/
theorem rspWord_fault (c : BitVec 8) : rspWord c 0 0 = c.setWidth 64 := by
  apply BitVec.eq_of_toNat_eq
  have := c.isLt
  rw [rspWord_toNat, BitVec.toNat_setWidth, Nat.mod_eq_of_lt (by omega)]
  simp

/-- Everything the checks can do: the first that fails raises its fault, else the effect happens (R141, R280). -/
theorem checked_cases (s : State) (modeOk seqOk : Bool) (fp : List Access) (effect : State) :
    (s.fault = true ∧ s.checked modeOk seqOk fp effect = s.raise .faulted) ∨
    (s.fault = false ∧ s.cfgd = false ∧ s.checked modeOk seqOk fp effect = s.raise .notcfg) ∨
    (s.fault = false ∧ s.cfgd = true ∧ modeOk = false ∧ s.checked modeOk seqOk fp effect = s.raise .mode) ∨
    (s.fault = false ∧ s.cfgd = true ∧ modeOk = true ∧ seqOk = false ∧
      s.checked modeOk seqOk fp effect = s.raise .seq) ∨
    (s.fault = false ∧ s.cfgd = true ∧ modeOk = true ∧ seqOk = true ∧ fp.all (Access.inWindow s) = false ∧
      s.checked modeOk seqOk fp effect = s.raise .bus) ∨
    (s.fault = false ∧ s.cfgd = true ∧ modeOk = true ∧ seqOk = true ∧ fp.all (Access.inWindow s) = true ∧
      s.checked modeOk seqOk fp effect = effect) := by
  cases h1 : s.fault
  · cases h2 : s.cfgd
    · simp [State.checked, h1, h2]
    · cases modeOk
      · simp [State.checked, h1, h2]
      · cases seqOk
        · simp [State.checked, h1, h2]
        · cases h3 : fp.all (Access.inWindow s) <;> simp [State.checked, h1, h2, h3]
  · simp [State.checked, h1]

/-- With every check passed the effect happens (R141). -/
theorem checked_pass {s : State} {fp : List Access} (effect : State) (h1 : s.fault = false) (h2 : s.cfgd = true)
    (h3 : fp.all (Access.inWindow s) = true) : s.checked true true fp effect = effect := by
  simp [State.checked, h1, h2, h3]

/-- A property that every fault and the effect give holds after the checks. -/
theorem checked_induction {P : State → Prop} {s : State} {modeOk seqOk : Bool} {fp : List Access} {effect : State}
    (hraise : ∀ c, P (s.raise c))
    (heffect : s.fault = false → s.cfgd = true → modeOk = true → seqOk = true →
      fp.all (Access.inWindow s) = true → P effect) :
    P (s.checked modeOk seqOk fp effect) := by
  rcases checked_cases s modeOk seqOk fp effect with ⟨-, h⟩ | ⟨-, -, h⟩ | ⟨-, -, -, h⟩ | ⟨-, -, -, -, h⟩ |
    ⟨-, -, -, -, -, h⟩ | ⟨h1, h2, h3, h4, h5, h⟩
  all_goals rw [h]
  · exact hraise _
  · exact hraise _
  · exact hraise _
  · exact hraise _
  · exact hraise _
  · exact heffect h1 h2 h3 h4 h5

/-- The state after the checks, in two cases: a fault was taken, or the core was not faulted and the effect happened. -/
theorem checked_raise_or_effect {s t effect : State} {modeOk seqOk : Bool} {fp : List Access}
    (h : s.checked modeOk seqOk fp effect = t) : (∃ c, t = s.raise c) ∨ (s.fault = false ∧ t = effect) := by
  subst h
  exact checked_induction (P := fun t => (∃ c, t = s.raise c) ∨ (s.fault = false ∧ t = effect))
    (fun c => .inl ⟨c, rfl⟩) fun h _ _ _ _ => .inr ⟨h, rfl⟩

/-- What the window check says of an access that is not empty (R62, R279). -/
theorem inWindow_iff (s : State) (a : Access) :
    a.inWindow s = true ↔
      a.len = 0 ∨ (0 ≤ a.addr ∧ a.addr + a.len ≤ (s.space a.space).size ∧ a.addr + a.len ≤ Config.addrLimit) := by
  simp [Access.inWindow, and_assoc]

/-- The cursor of SRC after an advance (R26). -/
theorem advanceSrcp_toNat {s : State} {n : Nat} (h : s.srcp.toNat + n < Config.addrLimit) :
    (s.advanceSrcp n).toNat = s.srcp.toNat + n := by
  rw [State.advanceSrcp, if_pos h, BitVec.toNat_ofNat]
  exact Nat.mod_eq_of_lt h

/-- The cursor of DST after an advance (R26). -/
theorem advanceDstp_toNat {s : State} {n : Nat} (h : s.dstp.toNat + n < Config.addrLimit) :
    (s.advanceDstp n).toNat = s.dstp.toNat + n := by
  rw [State.advanceDstp, if_pos h, BitVec.toNat_ofNat]
  exact Nat.mod_eq_of_lt h

/-- The header cursor after an advance that stays within its 19 bits (R26). -/
theorem advanceHcur_toNat {s : State} {n : Nat} (h : s.hcur.toNat + n < 2 ^ 19) :
    (s.advanceHcur n).toNat = s.hcur.toNat + n := by
  rw [State.advanceHcur, BitVec.toNat_ofNat]
  exact Nat.mod_eq_of_lt h

/-- A host write either lies in the window and puts the bytes, or stops the model (R60, R62). -/
theorem hostWriteSrc_cases (s : State) (a : Addr) (bs : List Byte) :
    (a.toNat + bs.length ≤ s.src.size ∧ s.hostWriteSrc a bs = .next { s with src := s.src.put a.toNat bs }) ∨
    (s.src.size < a.toNat + bs.length ∧ s.hostWriteSrc a bs = .fault .hostOutsideWindow) := by
  by_cases h : a.toNat + bs.length ≤ s.src.size
  · exact .inl ⟨h, by simp [State.hostWriteSrc, Memory.maps, h]⟩
  · exact .inr ⟨by omega, by simp [State.hostWriteSrc, Memory.maps, h]⟩

/-- A host write either lies in the window and puts the bytes, or stops the model (R60, R62). -/
theorem hostWriteDst_cases (s : State) (a : Addr) (bs : List Byte) :
    (a.toNat + bs.length ≤ s.dst.size ∧ s.hostWriteDst a bs = .next { s with dst := s.dst.put a.toNat bs }) ∨
    (s.dst.size < a.toNat + bs.length ∧ s.hostWriteDst a bs = .fault .hostOutsideWindow) := by
  by_cases h : a.toNat + bs.length ≤ s.dst.size
  · exact .inl ⟨h, by simp [State.hostWriteDst, Memory.maps, h]⟩
  · exact .inr ⟨by omega, by simp [State.hostWriteDst, Memory.maps, h]⟩

end Sys2Proof.Machine
end

