-- ==== Sys2Proof/Laws/PerInstr.lean ====
section
/-! SUPPORT. Facts about the syntax of each command, one lemma per constructor. -/

/-- The `op` byte of a command's word is the opcode of a row of the table, whose high nibble names the command's
unit (R107). -/
def Sys2Proof.Laws.EncodeOpcode.Statement (i : Sys2Proof.Instr) : Prop :=
  ∃ row ∈ Sys2Proof.Machine.opcodeTable, row.pattern = (Sys2Proof.opField (Sys2Proof.encode i)).setWidth 64

namespace Sys2Proof.Laws.EncodeOpcode

open Sys2Proof Sys2Proof.Machine

/-- `op` is the lowest byte of a word (R105). -/
theorem opField_append (x : BitVec 56) (o : BitVec 8) : opField (x ++ o) = o := by
  apply BitVec.eq_of_getLsbD_eq
  intro k hk
  have h : (x ++ o).getLsbD k = o.getLsbD k := BitVec.getLsbD_append.trans (by simp [hk])
  simpa [opField, hk] using h

/-- A word that ends in the opcode of a row satisfies the statement. -/
theorem of_row {i : Instr} {o : BitVec 8} (h : opField (encode i) = o)
    (hrow : ∃ row ∈ opcodeTable, row.pattern = o.setWidth 64) : Statement i := by
  obtain ⟨row, hmem, hpat⟩ := hrow
  exact ⟨row, hmem, by rw [h, hpat]⟩

theorem init (d : BitVec 16) (delta rle : Bool) : Statement (.init d delta rle) :=
  of_row (opField_append _ 0x01) (by decide)
theorem setsrc (a : Addr) : Statement (.setsrc a) := of_row (opField_append _ 0x02) (by decide)
theorem setdst (a : Addr) : Statement (.setdst a) := of_row (opField_append _ 0x03) (by decide)
theorem rdreg (idx : BitVec 8) : Statement (.rdreg idx) := of_row (opField_append _ 0x04) (by decide)
theorem anlz : Statement .anlz := of_row (opField_append _ 0x10) (by decide)
theorem pack : Statement .pack := of_row (opField_append _ 0x20) (by decide)
theorem unpack : Statement .unpack := of_row (opField_append _ 0x21) (by decide)
theorem grpbeg : Statement .grpbeg := of_row (opField_append _ 0x30) (by decide)
theorem hdrput : Statement .hdrput := of_row (opField_append _ 0x31) (by decide)
theorem hdrdec : Statement .hdrdec := of_row (opField_append _ 0x32) (by decide)
theorem zzenc : Statement .zzenc := of_row (opField_append _ 0x40) (by decide)
theorem zzdec : Statement .zzdec := of_row (opField_append _ 0x41) (by decide)
theorem rle : Statement .rle := of_row (opField_append _ 0x50) (by decide)
theorem rleflush : Statement .rleflush := of_row (opField_append _ 0x51) (by decide)
theorem rledec : Statement .rledec := of_row (opField_append _ 0x52) (by decide)

end Sys2Proof.Laws.EncodeOpcode
end

