-- ==== Sys2Proof/Tests/Slice0.lean ====
section
/-! SUPPORT. Tests of single steps against the worked examples of spec/ (95_test_vectors.md and the rules named), and a
witness for every statement that has hypotheses. -/

namespace Sys2Proof.Tests.Slice0

open Sys2Proof Sys2Proof.Machine

set_option Elab.async false

/-! ## Helpers -/

/-- A configured core with windows of 96 bytes that hold the given bytes from address 0 on. -/
def base (d : BitVec 16) (delta rle : Bool) (src dst : List Byte) : State :=
  ({ State.reset with src := Memory.put ⟨96, []⟩ 0 src, dst := Memory.put ⟨96, []⟩ 0 dst } :
      State).configure d delta rle

/-- The state after a command. -/
def after (i : Instr) (s : State) : State :=
  match exec i s with
  | .next t => t
  | .fault _ => s
  | .refused _ => s

/-- An encoder group with slot 0 open and nothing in it, its header at `hdrp`, its body at `dstp`. -/
def encoder (s : State) (hdrp dstp : Addr) : State :=
  { s with grp := .enc, blk := 0, hdrp := hdrp, dstp := dstp }

/-- The block buffer of the example of R161: row `(0,2,4)`, then seven rows `(6,6,6)`. -/
def rows3 : List (List Byte) := [0, 2, 4, 0, 0, 0, 0, 0] :: List.replicate 7 [6, 6, 6, 0, 0, 0, 0, 0]

/-- The block of the example of R212: bytes `00 .. 17`. -/
def bytes24 : List Byte := (List.range 24).map (BitVec.ofNat 8)

/-- The body of the example of R172. -/
def body3 : List Byte := [0x10, 0x01] ++ (List.replicate 7 [0xb6, 0x01]).flatten

/-- The block of R161 in hand, not yet analysed. -/
def loaded3 : State := { encoder (base 3 true false bytes24 []) 0 3 with blkbuf := rows3, ph := .loaded }

/-- The same block analysed. -/
def analyzed3 : State := after .anlz loaded3

/-- The same block in slot 1, over the header bits of a slot 0 with the codes 3. -/
def analyzed3slot1 : State := { analyzed3 with hcur := 9, blk := 1, dst := ⟨96, [(0, 0xdb)]⟩ }

/-- The same block with its header deposited. -/
def headered3 : State := { analyzed3 with ph := .headered, hcur := 9, dstp := 5 }

/-- A rowmajor block of `D = 2` with an ANLZ to come: SRC holds `ff` throughout (P5 of 96_test_programs.md). -/
def raw2 : State := encoder (base 2 false false (List.replicate 40 0xff) (List.replicate 16 0xee)) 0 2

/-- The stream of the example of R198 with a decoder about to read its header. -/
def stream3 : State := base 3 true false ([0xdb, 0xb6, 0x01] ++ body3 ++ body3) []

/-- A decoder group of that stream, slot 0 in hand. -/
def decoder3 : State := after .hdrdec stream3

/-- The same in rowmajor. -/
def decoder3raw : State := { decoder3 with cfgDelta := false }

/-- The unpacked block of that slot. -/
def unpacked3 : State := { base 3 true false [] [] with grp := .dec, blk := 0, ph := .unpacked, blkbuf := rows3 }

/-- A run detector (`D = 2`) with an analysed block. -/
def runner (zb : Bool) (run : BitVec 15) (blk : BitVec 2) : State :=
  { base 2 true true [] [] with
    grp := .enc, blk := blk, ph := .analyzed, run := run, dstp := 2, an := { Analysis.zero 1 with zb := zb } }

/-- An encoder group (`D = 2`) at the end of input. -/
def flusher (run : BitVec 15) (blk : BitVec 2) (hcur : BitVec 19) : State :=
  { base 2 true true [] (List.replicate 8 0xee) with grp := .enc, blk := blk, run := run, dstp := 2, hcur := hcur }

/-- A run slot (`D = 2`) of a decoder group with the given field, after the record `ab cd`. -/
def expander (field : List Byte) (first : Bool) (dstp : Addr) : State :=
  { base 2 true true field [0xab, 0xcd, 0xee, 0xee] with
    grp := .dec, blk := 0, first := first, dstp := dstp, g0 := { SlotTables.zero 1 with zbs := true } }

/-! ## WellFormed, words, decoding -/

/-- Smoke test: the one ill-formed term, an RDREG of register 11, is refused, and register 10 is not (R116 (c)). -/
theorem test_wellFormed_refuses_register_11 :
    (Instr.rdreg 11).wellFormed = false ∧ (Instr.rdreg 10).wellFormed = true := by decide

/-- The rows of the opcode table do not overlap: two of them differ in a bit that both fix. -/
theorem test_opcode_rows_disjoint :
    opcodeTable.Pairwise fun r q => (r.pattern ^^^ q.pattern) &&& r.mask &&& q.mask ≠ 0 := by decide

/-- Words of 95_test_vectors.md P1 to P6 and the opcode map R107, control and analyzer. -/
theorem test_decode_control :
    decode 0x0000000000030101 = .ok (.init 3 true false) ∧ decode 0x0000000003ff0301 = .ok (.init 1023 true true) ∧
    decode 0x0000000000080002 = .ok (.setsrc 8) ∧ decode 0x0000000000080003 = .ok (.setdst 8) ∧
    decode 0x0000000000030004 = .ok (.rdreg 3) ∧ decode 0x0000000000000010 = .ok .anlz := by decide

/-- Words of the opcode map R107, the other units. -/
theorem test_decode_units :
    decode 0x20 = .ok .pack ∧ decode 0x21 = .ok .unpack ∧ decode 0x30 = .ok .grpbeg ∧ decode 0x31 = .ok .hdrput ∧
    decode 0x32 = .ok .hdrdec ∧ decode 0x40 = .ok .zzenc ∧ decode 0x41 = .ok .zzdec ∧ decode 0x50 = .ok .rle ∧
    decode 0x51 = .ok .rleflush ∧ decode 0x52 = .ok .rledec := by decide

/-- The illegal words of V34. -/
theorem test_decode_illegal :
    decode 0 = .error .unknownOp ∧ decode 0x120 = .error .reservedBits ∧ decode 0xb0004 = .error .badRegister ∧
    decode 0x1000004 = .error .reservedBits ∧ decode 0x30401 = .error .reservedBits ∧
    decode 0x100030101 = .error .reservedBits ∧ decode 0x102 = .error .reservedBits ∧
    decode 0x5 = .error .unknownOp ∧ decode 0xff = .error .unknownOp := by decide

/-- Two words of R120. -/
theorem test_encode : encode (.init 3 true false) = 0x30101 ∧ encode (.rdreg 3) = 0x30004 := by decide

/-! ## Primitives (V3, V4, V5, V20) -/

theorem test_pext : pext 0xfedcba9876543210 0x00ff00ff0f0f0101 = 0x3726190 := by decide +kernel

theorem test_pdep : pdep 0xabcdef tile7 = 0x0502070406070507 := by decide +kernel

theorem test_zigzag : [0x00, 0xff, 0x3f, 0xc0, 0x7f, 0x80].map zz = [0x00, 0x01, 0x7e, 0x7f, 0xfe, 0xff] := by decide

theorem test_lenfield : lenfield 0x7f = [0x7f] ∧ lenfield 0x80 = [0x80, 0x01] ∧ lenfield 0x7fff = [0xff, 0xff] := by
  decide

theorem test_widths : [0x00, 0x02, 0x06, 0x22, 0x40, 0x80].map bitLength = [0, 2, 3, 6, 7, 8] := by decide

theorem test_mask_tables : nbitsMask 6 = 0x3f ∧ nbitsMask 7 = 0xff ∧ nbitsMaskU8 0x40 = 0x7f := by decide

/-! ## Commands -/

/-- V34: `D = 1023` is the largest of rowmajor-delta-rle. -/
theorem test_init : statusWord (after (.init 1023 true true) .reset) = 9 ∧
    cfgWord (after (.init 1023 true true) .reset) = 0x303ff := by decide +kernel

/-- V34: `D = 1024` is out of range; `D = 0` with an illegal mode answers the mode. -/
theorem test_init_faults : (after (.init 1024 true true) .reset).ecode = 7 ∧
    (after (.init 0 false true) .reset).ecode = 4 ∧ (after (.init 0 true true) .reset).ecode = 6 := by decide +kernel

/-- V34, R146. -/
theorem test_rdreg_after_reset : (after (.rdreg 0) .reset).rsp = some 0x80000 ∧
    (after (.rdreg 6) .reset).rsp = some 0x20000 := by decide +kernel

/-- P5, step 22: SETSRC needs `PH = IDLE`. -/
theorem test_setsrc : (after (.setsrc 4) raw2).srcp = 4 ∧
    (after (.setsrc 4) { raw2 with ph := .analyzed }).rsp = some 5 := by decide +kernel

/-- R145: `HDRP` stays. -/
theorem test_setdst : (after (.setdst 8) raw2).dstp = 8 ∧ (after (.setdst 8) raw2).hdrp = 0 := by decide +kernel

/-- The example of R161. -/
theorem test_anlz : analyzed3.an.w.take 3 = [3, 3, 3] ∧ analyzed3.an.smask = [0x70707] ∧
    analyzed3.an.shdr = [0xdb] ∧ analyzed3.an.rowbits = 9 ∧ analyzed3.an.rowbytes = 2 := by decide +kernel

/-- P5, step 21: a rowmajor block of `ff`. -/
theorem test_anlz_rowmajor : (after .anlz raw2).an.shdr = [0x3f] ∧ (after .anlz raw2).an.smask = [0xffff] ∧
    (after .anlz raw2).an.rowbits = 16 := by decide +kernel

/-- The example of R172. -/
theorem test_pack : (after .pack headered3).dst.bytes 5 16 = body3 ∧ (after .pack headered3).dstp = 21 ∧
    (after .pack headered3).srcp = 24 := by decide +kernel

/-- The 9B example of R174: row `01 0c 14 1c 24 2c 34 3c 04`. -/
theorem test_pack_nine_bytes :
    ((packRow { base 16 false false [1, 0, 0, 0, 0, 0, 0, 0, 0x80, 0x81, 0x82, 0x83, 0x84, 0x85, 0x86, 0x87] [] with
        an := { Analysis.zero 2 with sbw := [3, 64], smask := [0x010101, 0xffffffffffffffff], rowbytes := 9 } }
      ⟨96, []⟩ 0).bytes 0 10) = [0x01, 0x0c, 0x14, 0x1c, 0x24, 0x2c, 0x34, 0x3c, 0x04, 0x00] := by decide +kernel

/-- The example of R178: rows `(0,2,4)` and `(6,6,6)` come back. -/
theorem test_unpack : (after .unpack decoder3).blkbuf = rows3 ∧ (after .unpack decoder3).srcp = 19 := by decide +kernel

/-- The 9B example of R180. -/
theorem test_unpack_nine_bytes :
    unpackWord { base 16 false false [0x01, 0x0c, 0x14, 0x1c, 0x24, 0x2c, 0x34, 0x3c, 0x04] [] with
        blk := 0, g0 := { SlotTables.zero 2 with gsbw := [3, 64], gmask := [0x010101, 0xffffffffffffffff] } } 0 1 =
      0x8786858483828180 := by decide +kernel

/-- P5, step 20. -/
theorem test_grpbeg : (after .grpbeg (base 2 false false [] (List.replicate 16 0xee))).dst.bytes 0 3 = [0, 0, 0xee] ∧
    (after .grpbeg (base 2 false false [] [])).dstp = 2 := by decide +kernel

/-- The example of R195: slot 1 of `D = 3` at cursor 9. -/
theorem test_hdrput : (after .hdrput analyzed3slot1).dst.bytes 0 4 = [0xdb, 0xb6, 0x01, 0x00] ∧
    (after .hdrput analyzed3).hcur = 9 := by decide +kernel

/-- V27: the header of P6, `D = 9`. -/
theorem test_hdrdec :
    (headerCodes (base 9 false false [0x43, 0xfa, 0x43, 0xfd, 0xff, 0xff, 0x3f] []) 0).take 10 =
      [3, 0, 1, 5, 7, 7, 0, 2, 5, 0] := by decide +kernel

/-- The example of R198. -/
theorem test_hdrdec_tables : decoder3.g1.gsbw = [9] ∧ decoder3.g1.gmask = [0x70707] ∧ decoder3.g0.growbytes = 2 ∧
    decoder3.srcp = 3 ∧ statusWord decoder3 = 0x29 := by decide +kernel

/-- The example of R212. -/
theorem test_zzenc : (after .zzenc (encoder (base 3 true false bytes24 []) 0 3)).blkbuf = rows3 ∧
    (after .zzenc (encoder (base 3 true false bytes24 []) 0 3)).prev = [0x15, 0x16, 0x17] := by decide +kernel

/-- V28: differences that wrap. -/
theorem test_zzenc_wraps : encRows [0x10, 0xf0] [[0x0f, 0x10], [0x0f, 0x90], [0x10, 0x10]] =
    [[0x01, 0x40], [0x00, 0xff], [0x02, 0xff]] := by decide

/-- The example of R215. -/
theorem test_zzdec : (after .zzdec unpacked3).dst.bytes 0 25 = bytes24 ++ [0] ∧
    (after .zzdec unpacked3).prev = [0x15, 0x16, 0x17] ∧ (after .zzdec unpacked3).first = false := by decide +kernel

/-- V29: the cap closes a run of `7fff`; below it a zero block is absorbed. -/
theorem test_rle : (after .rle (runner true 0x7fff 1)).dst.bytes 2 2 = [0xff, 0xff] ∧
    (after .rle (runner true 0x7fff 1)).rsp = some 0x7fff0200 ∧ (after .rle (runner true 0x7ffe 1)).run = 0x7fff := by
  decide +kernel

/-- V29: a block that is not a zero block closes the run, and passes when there is none. -/
theorem test_rle_close_pass : (after .rle (runner false 3 0)).dst.bytes 2 2 = [3, 0] ∧
    (after .rle (runner false 0 0)).rsp = some 0x300 := by decide +kernel

/-- V30. -/
theorem test_rleflush : (after .rleflush (flusher 300 1 6)).dst.bytes 2 3 = [0xac, 0x02, 0xee] ∧
    (after .rleflush (flusher 300 1 6)).hcur = 12 ∧ (after .rleflush (flusher 0 2 12)).dstp = 2 ∧
    (after .rleflush (flusher 0x7e 0 0)).dst.bytes 2 2 = [0x7e, 0x00] := by decide +kernel

/-- V31: copies of the last record, and zeros at the first block. -/
theorem test_rledec : (after .rledec (expander [0x01] false 2)).dst.bytes 2 17 =
      (List.replicate 8 [0xab, 0xcd]).flatten ++ [0] ∧
    (after .rledec (expander [0x01] true 0)).dst.bytes 0 4 = [0, 0, 0, 0] := by decide +kernel

/-- V31: a field `80 00` is a run of 0 blocks; `DSTP - D` below 0 is `E_BUS`. -/
theorem test_rledec_corners : (after .rledec (expander [0x80, 0x00] false 2)).srcp = 2 ∧
    (after .rledec (expander [0x80, 0x00] false 2)).dstp = 2 ∧
    (after .rledec (expander [0x01] false 0)).ecode = 8 := by decide +kernel

/-- P5, step 17: a footprint that leaves the window changes nothing but the fault. -/
theorem test_bus_fault : (after .grpbeg { base 2 false false [] [] with dstp := 95 }).ecode = 8 ∧
    (after .grpbeg { base 2 false false [] [] with dstp := 95 }).dstp = 95 := by decide +kernel

/-! ## Witnesses: a state and operands that meet all hypotheses of a statement together -/

theorem witness_DecodeOfEncode : (Instr.rdreg 10).wellFormed = true := by decide

theorem witness_EncodeOfDecode : decode 0xa0004 = .ok (.rdreg 10) := by decide

theorem witness_StepRunsTheDecodedCommand :
    ({ State.reset with host := [.command 0x20, .reset] } : State).host = .command 0x20 :: [.reset] ∧
      decode 0x20 = .ok .pack := by decide

theorem witness_IllegalWordRaisesIllcmd :
    ({ State.reset with host := [.command 0xb0004] } : State).host = .command 0xb0004 :: [] ∧
      ¬legalWord 0xb0004 ∧ ¬legalWord 0 ∧ legalWord 0xa0004 := by decide

theorem witness_HostActsBetweenCommands :
    State.reset.host = [] ∧ (95 : Addr).toNat + [(1 : Byte)].length ≤ (base 1 false false [] []).src.size ∧
    (base 1 false false [] []).src.size < (96 : Addr).toNat + [(1 : Byte)].length ∧
    (94 : Addr).toNat + [(1 : Byte), 2].length ≤ (base 1 false false [] []).dst.size ∧
    (base 1 false false [] []).dst.size < (95 : Addr).toNat + [(1 : Byte), 2].length ∧
    ({ base 1 false false [] [] with host := [.writeSrc 95 [1]] } : State).host = .writeSrc 95 [1] :: [] ∧
    ({ base 1 false false [] [] with host := [.writeDst 94 [1, 2]] } : State).host = .writeDst 94 [1, 2] :: [] := by
  decide

theorem witness_RstRestoresTheResetState :
    ({ raw2 with host := [.reset] } : State).host = .reset :: [] := by decide

theorem witness_RegistersAfterResetAndInit :
    (1 ≤ (1023 : BitVec 16).toNat ∧ (true = true → true = true ∧ (1023 : BitVec 16).toNat < 1024)) ∧
    (1 ≤ (65535 : BitVec 16).toNat ∧ (false = true → true = true ∧ (65535 : BitVec 16).toNat < 1024)) ∧
    1 ≤ (1 : BitVec 16).toNat := by decide

/-- Each clause of the statement at its boundary. -/
theorem witness_InitChecksThenConfigures :
    (true = true ∧ false = false) ∧ (0 : BitVec 16).toNat = 0 ∧ (true = true ∧ 1024 ≤ (1024 : BitVec 16).toNat) ∧
    ¬((1023 : BitVec 16).toNat = 0) ∧ ¬(true = true ∧ 1024 ≤ (1023 : BitVec 16).toNat) := by decide

theorem witness_SetCursorCommands : (ready raw2 ∧ raw2.ph = .idle) ∧ ready loaded3 ∧ loaded3.ph ≠ .idle := by
  decide +kernel

/-- For AnlzComputesTheTables, AnlzRowSizeAndZeroFlag and AnlzMaskPopcount: a delta mode and rowmajor. -/
theorem witness_anlz : runs .anlz loaded3 ∧ runs .anlz raw2 := by decide +kernel

theorem witness_GrpbegOpensAGroup : runs .grpbeg (base 2 false false [] []) ∧
    runs .grpbeg { analyzed3 with blk := 2 } := by decide +kernel

theorem witness_HdrputDepositsTheCodes : runs .hdrput analyzed3 ∧ analyzed3.an.coherent analyzed3.D ∧
    analyzed3.hcur.toNat + 3 * analyzed3.D < 2 ^ 19 := by decide +kernel

theorem witness_HdrdecReadsTheCodes : runs .hdrdec stream3 := by decide +kernel

/-- A decoder on the header that an HDRPUT in the given state left. -/
def headerReader (e : State) : State := base 3 false false ((after .hdrput e).dst.bytes 0 8) []

/-- Slot 0. -/
theorem witness_HdrdecInvertsHdrput : exec .hdrput analyzed3 = .next (after .hdrput analyzed3) ∧
    runs .hdrput analyzed3 ∧ analyzed3.an.coherent analyzed3.D ∧ analyzed3.hcur.toNat = 3 * 0 * analyzed3.D ∧
    (∀ k < 3 * analyzed3.D, analyzed3.dst.streamBit analyzed3.hdrp.toNat (3 * 0 * analyzed3.D + k) = false) ∧
    runs .hdrdec (headerReader analyzed3) ∧ (headerReader analyzed3).D = analyzed3.D ∧
    ∀ k < (6 * analyzed3.D + 7) / 8, (headerReader analyzed3).src.byte ((headerReader analyzed3).srcp.toNat + k) =
      (after .hdrput analyzed3).dst.byte (analyzed3.hdrp.toNat + k) :=
  ⟨rfl, by decide +kernel⟩

/-- Slot 1, which starts within a byte. -/
theorem witness_HdrdecInvertsHdrput_slot1 : exec .hdrput analyzed3slot1 = .next (after .hdrput analyzed3slot1) ∧
    runs .hdrput analyzed3slot1 ∧ analyzed3slot1.an.coherent analyzed3slot1.D ∧ analyzed3slot1.hcur.toNat = 3 * 1 * analyzed3slot1.D ∧
    (∀ k < 3 * analyzed3slot1.D, analyzed3slot1.dst.streamBit analyzed3slot1.hdrp.toNat (3 * 1 * analyzed3slot1.D + k) = false) ∧
    runs .hdrdec (headerReader analyzed3slot1) ∧ (headerReader analyzed3slot1).D = analyzed3slot1.D ∧
    ∀ k < (6 * analyzed3slot1.D + 7) / 8, (headerReader analyzed3slot1).src.byte ((headerReader analyzed3slot1).srcp.toNat + k) =
      (after .hdrput analyzed3slot1).dst.byte (analyzed3slot1.hdrp.toNat + k) :=
  ⟨rfl, by decide +kernel⟩

/-- For PackCompletes and PackWritesTheBlockBody: a delta mode and rowmajor. -/
theorem witness_pack : runs .pack headered3 ∧ headered3.an.coherent headered3.D ∧
    runs .pack { after .anlz raw2 with ph := .headered } ∧ (after .anlz raw2).an.coherent raw2.D := by
  refine ⟨?_, ?_, ?_, ?_⟩ <;> decide +kernel

/-- For UnpackCompletes, UnpackFillsTheBlockBuffer and UnpackStoresTheRecords. -/
theorem witness_unpack : (runs .unpack decoder3 ∧ decoder3.slot.coherent decoder3.D ∧ decoder3.cfgDelta = true) ∧
    (runs .unpack decoder3raw ∧ decoder3raw.slot.coherent decoder3raw.D ∧ decoder3raw.cfgDelta = false) := by
  decide +kernel

theorem witness_UnpackInvertsPack : exec .pack headered3 = .next (after .pack headered3) ∧ (runs .pack headered3 ∧
      headered3.an.coherent headered3.D) ∧
    (∀ i < 8, ∀ d < headered3.D, (headered3.val i d).toNat < 2 ^ (headered3.an.weff.getD d 0).toNat) ∧
    (runs .unpack decoder3 ∧ decoder3.D = headered3.D ∧ decoder3.slot.coherent decoder3.D ∧
      decoder3.slot.gh = headered3.an.h) ∧
    ∀ k < 8 * headered3.an.rowbytes.toNat,
      decoder3.src.byte (decoder3.srcp.toNat + k) = (after .pack headered3).dst.byte (headered3.dstp.toNat + k) := by
  refine ⟨rfl, ⟨?_, ?_⟩, ?_, ⟨?_, ?_, ?_, ?_⟩, ?_⟩ <;> decide +kernel

/-- A block about to be zig-zag encoded. -/
def plain3 : State := encoder (base 3 true false bytes24 []) 0 3

theorem witness_ZzencComputesDeltas : runs .zzenc plain3 := by decide +kernel

theorem witness_ZzdecAccumulatesDeltas : runs .zzdec unpacked3 := by decide +kernel

theorem witness_ZzdecInvertsZzenc : exec .zzenc plain3 = .next (after .zzenc plain3) ∧ runs .zzenc plain3 ∧
      runs .zzdec unpacked3 ∧ unpacked3.D = plain3.D ∧
    (∀ i < 8, ∀ d < plain3.D, unpacked3.blkAt i d = (after .zzenc plain3).blkAt i d) ∧
    ∀ d < plain3.D, unpacked3.prevAt d = plain3.prevAt d := ⟨rfl, by decide +kernel⟩

/-- ABSORB just below the cap, CLOSE at the cap and at both sides of the one-byte limit, PASS. -/
theorem witness_RleTakesOneOfThreeOutcomes : runs .rle (runner true 0x7ffe 1) ∧ runs .rle (runner true 0x7fff 1) ∧
    runs .rle (runner false 0x7f 0) ∧ runs .rle (runner false 0x80 0) ∧ runs .rle (runner false 0 0) := by
  decide +kernel

theorem witness_RlePassesOnlyNonzeroBlocks :
    exec .rle (runner false 0 0) = .next (after .rle (runner false 0 0)) ∧ runs .rle (runner false 0 0) ∧
      0 < (runner false 0 0).maxRun.toNat ∧
    (after .rle (runner false 0 0)).rsp = some 0x300 := ⟨rfl, by decide +kernel⟩

/-- No run, a run of one byte, a run of two bytes, and a group that is already full. -/
theorem witness_RleflushFillsTheGroup : runs .rleflush (flusher 0 0 0) ∧ runs .rleflush (flusher 0x7f 1 6) ∧
    runs .rleflush (flusher 0x80 0 0) ∧ runs .rleflush (flusher 0 2 12) ∧
    (flusher 0x80 0 0).blk.toNat ≤ 2 ∧ (0 < (flusher 0x80 0 0).run.toNat → (flusher 0x80 0 0).blk.toNat < 2) ∧
    (flusher 0x7f 1 6).blk.toNat ≤ 2 ∧ (0 < (flusher 0x7f 1 6).run.toNat → (flusher 0x7f 1 6).blk.toNat < 2) := by
  decide +kernel

/-- A run at the first block, a later run, and fields on both sides of the one-byte limit. -/
theorem witness_RledecExpandsTheRun : runs .rledec (expander [0x01] true 0) ∧ runs .rledec (expander [0x01] false 2) ∧
    runs .rledec (expander [0x00] false 0) ∧ runs .rledec (expander [0x80, 0x00] false 2) := by decide +kernel

theorem witness_LengthFieldParses :
    (base 1 true true [0x7f] []).src.bytes 0 (lenfield 0x7f).length = lenfield 0x7f ∧
    (base 1 true true [0x80, 0x01] []).src.bytes 0 (lenfield 0x80).length = lenfield 0x80 ∧
    (base 1 true true [0xff, 0xff] []).src.bytes 0 (lenfield 0x7fff).length = lenfield 0x7fff := by decide +kernel

/-- The clauses of the check order, one state each; the first three lines serve FaultedAndUnconfiguredRefuse. -/
theorem witness_FirstFailingCheckDecides : ¬alwaysAdmitted .zzenc ∧
    ({ plain3 with fault := true } : State).fault = true ∧
    (State.reset.fault = false ∧ State.reset.cfgd = false) ∧
    (ready raw2 ∧ ¬modeExists .zzenc raw2) ∧
    (ready loaded3 ∧ modeExists .zzenc loaded3 ∧ ¬admitted .zzenc loaded3) ∧
    ready plain3 ∧ modeExists .zzenc plain3 ∧ admitted .zzenc plain3 := by decide +kernel

/-- The last two clauses: the block ends at the window's end, or one byte past it. -/
theorem witness_FirstFailingCheckDecides_window :
    (∀ sp a, touched .zzenc { plain3 with srcp := 72 } sp a → ¬outsideWindow { plain3 with srcp := 72 } sp a) ∧
    (ready { plain3 with srcp := 73 } ∧ modeExists .zzenc { plain3 with srcp := 73 } ∧
      admitted .zzenc { plain3 with srcp := 73 } ∧
      ∃ sp a, touched .zzenc { plain3 with srcp := 73 } sp a ∧ outsideWindow { plain3 with srcp := 73 } sp a) := by
  refine ⟨?_, by decide +kernel, by decide +kernel, by decide +kernel, .src, 96, ⟨rfl, by decide +kernel⟩, ?_⟩
  · rintro sp a ⟨rfl, h1, h2⟩
    have e1 : ((72 : Addr).toNat : Int) = 72 := by decide
    have e2 : 8 * ({ plain3 with srcp := 72 } : State).D = 24 := by decide +kernel
    have e3 : ((({ plain3 with srcp := 72 } : State).space .src).size : Int) = 96 := by decide +kernel
    simp only [e1, e2] at h1 h2
    simp only [outsideWindow, e3, Config.addrLimit]
    omega
  · exact .inr (.inl (by decide +kernel))

theorem witness_OnlyInitOrResetClearsAFault :
    step { raw2 with fault := true, host := [.reset] } =
      .next (({ raw2 with fault := true, host := [.reset] } : State).accept []).rst ∧
    ({ raw2 with fault := true, host := [.reset] } : State).fault = true ∧
    (({ raw2 with fault := true, host := [.reset] } : State).accept []).rst.fault = false := ⟨rfl, by decide +kernel⟩

theorem witness_CommandsWriteOnlyTheirFootprint : exec .zzdec unpacked3 = .next (after .zzdec unpacked3) ∧
    ¬touched .zzdec unpacked3 .dst 24 := by
  refine ⟨rfl, ?_⟩
  rintro ⟨-, -, h⟩
  have e : ((unpacked3.dstp.toNat : Int) + (8 * unpacked3.D : Nat)) = 24 := by decide +kernel
  omega

/-- `stream3` with another byte past its header. -/
def stream3other : Memory := stream3.src.put 95 [0x55]

theorem witness_OverReadBytesNeverShow : exec .hdrdec stream3 = .next (after .hdrdec stream3) ∧
    exec .hdrdec { stream3 with src := stream3other } = .next (after .hdrdec { stream3 with src := stream3other }) ∧
    tablesCoherent stream3 ∧ stream3other.size = stream3.src.size ∧
    (∀ x < stream3.srcp.toNat + (6 * stream3.D + 7) / 8, stream3other.byte x = stream3.src.byte x) ∧
    stream3other.byte 95 ≠ stream3.src.byte 95 := by
  refine ⟨rfl, rfl, ⟨?_, ?_⟩, ?_, ?_, ?_⟩ <;> decide +kernel

/-- A rowmajor block with its header deposited. -/
def rawHeadered : State := { after .anlz raw2 with ph := .headered }

/-- A state with another byte at the end of SRC. -/
def otherTail (s : State) : State := { s with src := s.src.put 95 [0x55] }

/-- The clauses of PACK and UNPACK. -/
theorem witness_OverReadBytesNeverShow_bodies :
    (exec .pack rawHeadered = .next (after .pack rawHeadered) ∧
      exec .pack (otherTail rawHeadered) = .next (after .pack (otherTail rawHeadered))) ∧
    (exec .unpack decoder3 = .next (after .unpack decoder3) ∧
      exec .unpack (otherTail decoder3) = .next (after .unpack (otherTail decoder3))) ∧
    (tablesCoherent rawHeadered ∧ tablesCoherent decoder3) ∧
    (∀ x < rawHeadered.srcp.toNat + 8 * rawHeadered.D, (otherTail rawHeadered).src.byte x = rawHeadered.src.byte x) ∧
    ∀ x < decoder3.srcp.toNat + 8 * decoder3.slot.growbytes.toNat,
      (otherTail decoder3).src.byte x = decoder3.src.byte x := by
  refine ⟨⟨rfl, rfl⟩, ⟨rfl, rfl⟩, ⟨⟨?_, ?_⟩, ⟨?_, ?_⟩⟩, ?_, ?_⟩ <;> decide +kernel

/-- A command that completes, and the same command on a faulted core. -/
theorem witness_RegistersHaveTheirWriters : exec .pack headered3 = .next (after .pack headered3) ∧
    exec .pack { headered3 with fault := true } = .next (after .pack { headered3 with fault := true }) ∧
    (∀ d delta rle, Instr.pack ≠ .init d delta rle) ∧ (after .pack headered3).rsp = some 0 :=
  ⟨rfl, rfl, by intros; simp, by decide +kernel⟩

/-- A working encoder with a ZZENC to come. -/
def stepping3 : State := { plain3 with host := [.command 0x40] }

/-- For the three invariants that every step keeps: they hold in a state that steps on, and the tables' invariant
also where it says something, in a state of each direction. -/
theorem witness_invariants : step stepping3 = .next (after .zzenc { plain3 with host := [], tick := 1 }) ∧
    controlInv stepping3 ∧ memoryInv stepping3 ∧ tablesCoherent stepping3 ∧ tablesCoherent analyzed3 ∧
    tablesCoherent decoder3 := by
  refine ⟨rfl, ?_, ?_, ⟨?_, ?_⟩, ⟨?_, ?_⟩, ?_, ?_⟩ <;> decide +kernel

/-! ## The fetch of the host's questions -/

/-- A table word becomes the next command. -/
theorem test_withFetchWord : (State.reset.withFetchWord 64 0x20).host = [.command 0x20] ∧
    decodeTableWord 64 0x20 = some .pack ∧ decodeTableWord 64 0 = none := by decide

end Sys2Proof.Tests.Slice0
end

section
/-! The state family (10_state.md): what a command and a step can do, said once; the writers of each register; the
coherence of derived tables; the control invariant. -/

namespace Sys2Proof.Machine

/-! ## What a command that completes does -/

/-- The state a command leaves when it completes, by the named effect of its meaning. -/
def effectOf : Instr → State → State
  | .init d delta rle, s => (s.configure d delta rle).respond .none 0
  | .setsrc a, s => ({ s with srcp := a } : State).respond .none 0
  | .setdst a, s => ({ s with dstp := a } : State).respond .none 0
  | .rdreg idx, s => s.respond .none ((s.readReg idx).getD 0)
  | .anlz, s => anlzEffect s
  | .pack, s => packEffect s
  | .unpack, s => unpackEffect s
  | .grpbeg, s => grpbegEffect s
  | .hdrput, s => hdrputEffect s
  | .hdrdec, s => hdrdecEffect s
  | .zzenc, s => zzencEffect s
  | .zzdec, s => zzdecEffect s
  | .rle, s => rleEffect s
  | .rleflush, s => rleflushEffect s
  | .rledec, s => rledecEffect s

/-- The configurations INIT accepts (R22, R143). -/
def legalConfig (d : BitVec 16) (delta rle : Bool) : Prop :=
  1 ≤ d.toNat ∧ (rle = true → delta = true ∧ d.toNat < 1024)

/-- Every command but INIT and RDREG runs the checks of R141 with Booleans that say what the tables R275 and R274
say, over its footprint, before its effect. -/
theorem exec_eq_checked {i : Instr} (s : State) (h : ¬alwaysAdmitted i) :
    ∃ modeOk seqOk : Bool, (modeOk = true ↔ modeExists i s) ∧ (seqOk = true ↔ admitted i s) ∧
      exec i s = .next (s.checked modeOk seqOk (footprint i s) (effectOf i s)) := by
  have blk_two : s.blk = 2#2 ↔ s.blk.toNat = 2 := BitVec.toNat_inj.symm
  have run_zero : s.run = 0#15 ↔ s.run.toNat = 0 := BitVec.toNat_inj.symm
  cases i with
  | init | rdreg => exact absurd trivial h
  | anlz => exact ⟨_, _, by simp, by cases hd : s.cfgDelta <;> simp [hd, and_assoc], rfl⟩
  | unpack => exact ⟨_, _, by simp, by cases hr : s.cfgRle <;> simp [hr, and_assoc], rfl⟩
  | hdrput => exact ⟨_, _, by simp, by cases hr : s.cfgRle <;> simp [hr, and_assoc, run_zero], rfl⟩
  | grpbeg | hdrdec => exact ⟨_, _, by simp, by simp [blk_two], rfl⟩
  | setsrc | setdst | pack | zzenc | zzdec | rle | rleflush | rledec =>
    exact ⟨_, _, by simp, by simp [and_assoc], rfl⟩

/-- A command that passes every check of R141 has its effect. -/
theorem exec_of_runs {i : Instr} {s : State} (h : ¬alwaysAdmitted i) (hruns : runs i s) :
    exec i s = .next (effectOf i s) := by
  obtain ⟨⟨hfault, hcfgd⟩, hmode, hseq, hfp⟩ := hruns
  obtain ⟨modeOk, seqOk, hm, hq, hexec⟩ := exec_eq_checked s h
  rw [hexec, hm.2 hmode, hq.2 hseq, checked_pass _ hfault hcfgd hfp]

/-- INIT with a legal configuration configures the core (R143). -/
theorem exec_init_of_legal {d : BitVec 16} {delta rle : Bool} (s : State) (h : legalConfig d delta rle) :
    exec (.init d delta rle) s = .next (effectOf (.init d delta rle) s) := by
  obtain ⟨hd, hrle⟩ := h
  have hd0 : d ≠ 0#16 := by rintro rfl; exact absurd hd (by decide)
  cases rle with
  | false => simp [exec, execInit, effectOf, hd0]
  | true =>
    obtain ⟨rfl, hlt⟩ := hrle rfl
    simp [exec, execInit, effectOf, hd0, Config.rleDimLimit, Nat.not_le.2 hlt]

/-- INIT with another configuration takes a fault (R280). -/
theorem exec_init_of_illegal {d : BitVec 16} {delta rle : Bool} (s : State) (h : ¬legalConfig d delta rle) :
    ∃ c, exec (.init d delta rle) s = .next (s.raise c) := by
  simp only [exec, execInit]
  split
  · exact ⟨_, rfl⟩
  split
  · exact ⟨_, rfl⟩
  split
  · exact ⟨_, rfl⟩
  · next hmode hdim hrange =>
    refine absurd ⟨?_, ?_⟩ h
    · exact Nat.one_le_iff_ne_zero.2 fun h0 => hdim (BitVec.eq_of_toNat_eq h0)
    · rintro rfl
      exact ⟨by simpa using hmode, Nat.not_le.1 fun hge => hrange (decide_eq_true hge)⟩

/-- RDREG answers the register or refuses the index, and does nothing else (R146). -/
theorem exec_rdreg_cases (idx : BitVec 8) (s : State) :
    exec (.rdreg idx) s = .next (effectOf (.rdreg idx) s) ∨ exec (.rdreg idx) s = .next (s.raise .illcmd) := by
  cases h : s.readReg idx with
  | some v => exact .inl (by simp [exec, execRdreg, effectOf, h])
  | none => exact .inr (by simp [exec, execRdreg, h])

/-- What lets a command complete: a legal configuration for INIT, nothing for RDREG, the checks of R141 for the
others. -/
def completes : Instr → State → Prop
  | .init d delta rle, _ => legalConfig d delta rle
  | .rdreg _, _ => True
  | i, s => runs i s

theorem completes_iff_runs {i : Instr} {s : State} (h : ¬alwaysAdmitted i) : completes i s ↔ runs i s := by
  cases i with
  | init | rdreg => exact absurd trivial h
  | _ => exact Iff.rfl

/-- Everything a command can do: take a fault, or complete with its effect. -/
theorem exec_cases {i : Instr} {s t : State} (h : exec i s = .next t) :
    (∃ c, t = s.raise c) ∨ (completes i s ∧ t = effectOf i s) := by
  by_cases hi : alwaysAdmitted i
  · cases i with
    | init d delta rle =>
      by_cases hlegal : legalConfig d delta rle
      · rw [exec_init_of_legal s hlegal] at h
        exact .inr ⟨hlegal, (Host.Outcome.next.inj h).symm⟩
      · obtain ⟨c, hc⟩ := exec_init_of_illegal s hlegal
        exact .inl ⟨c, Host.Outcome.next.inj (h.symm.trans hc)⟩
    | rdreg idx =>
      rcases exec_rdreg_cases idx s with hr | hr
      · exact .inr ⟨trivial, Host.Outcome.next.inj (h.symm.trans hr)⟩
      · exact .inl ⟨_, Host.Outcome.next.inj (h.symm.trans hr)⟩
    | _ => exact hi.elim
  · obtain ⟨modeOk, seqOk, hm, hq, hexec⟩ := exec_eq_checked s hi
    obtain rfl := Host.Outcome.next.inj (h.symm.trans hexec)
    refine checked_induction (P := fun t => (∃ c, t = s.raise c) ∨ (completes i s ∧ t = effectOf i s))
      (fun c => .inl ⟨c, rfl⟩) fun hfault hcfgd hmode hseq hfp => .inr ⟨?_, rfl⟩
    exact (completes_iff_runs hi).2 ⟨⟨hfault, hcfgd⟩, hm.1 hmode, hq.1 hseq, hfp⟩

/-! ## What a step does -/

/-- Everything a step can do: wait, reset, take a write of the host, refuse a word, or carry out a command. -/
theorem step_cases {s t : State} (h : step s = .next t) :
    t = s ∨ ∃ rest,
      t = (s.accept rest).rst ∨
      (∃ a bs, (s.accept rest).hostWriteSrc a bs = .next t) ∨
      (∃ a bs, (s.accept rest).hostWriteDst a bs = .next t) ∨
      t = (s.accept rest).raise .illcmd ∨
      ∃ i, exec i (s.accept rest) = .next t := by
  unfold step at h
  split at h
  · exact .inl (Host.Outcome.next.inj h).symm
  · next w rest _ =>
    unfold runCommand at h
    split at h
    · next i _ => exact .inr ⟨rest, .inr (.inr (.inr (.inr ⟨i, h⟩)))⟩
    · exact .inr ⟨rest, .inr (.inr (.inr (.inl (Host.Outcome.next.inj h).symm)))⟩
  · next rest _ => exact .inr ⟨rest, .inl (Host.Outcome.next.inj h).symm⟩
  · next a bs rest _ => exact .inr ⟨rest, .inr (.inl ⟨a, bs, h⟩)⟩
  · next a bs rest _ => exact .inr ⟨rest, .inr (.inr (.inl ⟨a, bs, h⟩))⟩

/-- A property is kept by every step when each of the things a step is made of keeps it. -/
theorem step_preserves {P : State → Prop} (haccept : ∀ s rest, P s → P (s.accept rest))
    (hrst : ∀ s, P s → P s.rst)
    (hsrc : ∀ s a bs, a + bs.length ≤ s.src.size → P s → P { s with src := s.src.put a bs })
    (hdst : ∀ s a bs, a + bs.length ≤ s.dst.size → P s → P { s with dst := s.dst.put a bs })
    (hraise : ∀ s c, P s → P (s.raise c))
    (heffect : ∀ i s, completes i s → P s → P (effectOf i s))
    {s t : State} (hs : P s) (h : step s = .next t) : P t := by
  rcases step_cases h with rfl | ⟨rest, h⟩
  · exact hs
  have hacc : P (s.accept rest) := haccept s rest hs
  rcases h with rfl | ⟨a, bs, h⟩ | ⟨a, bs, h⟩ | rfl | ⟨i, h⟩
  · exact hrst _ hacc
  · rcases hostWriteSrc_cases (s.accept rest) a bs with ⟨hin, heq⟩ | ⟨-, heq⟩
    · obtain rfl := Host.Outcome.next.inj (h.symm.trans heq)
      exact hsrc _ _ _ hin hacc
    · cases h.symm.trans heq
  · rcases hostWriteDst_cases (s.accept rest) a bs with ⟨hin, heq⟩ | ⟨-, heq⟩
    · obtain rfl := Host.Outcome.next.inj (h.symm.trans heq)
      exact hdst _ _ _ hin hacc
    · cases h.symm.trans heq
  · exact hraise _ _ hacc
  · rcases exec_cases h with ⟨c, rfl⟩ | ⟨hcomp, rfl⟩
    · exact hraise _ _ hacc
    · exact heffect _ _ hcomp hacc

/-- Settles O5: a step takes the head of the host's list and runs the command it decodes to. -/
theorem stepRunsTheDecodedCommand : Obligations.StepRunsTheDecodedCommand := by
  unfold Obligations.StepRunsTheDecodedCommand
  intro s w rest i hhost hdecode
  rw [step, hhost]
  simp only [runCommand, hdecode, State.accept]

end Sys2Proof.Machine
end

section
namespace Sys2Proof.Machine

/-! ## The writers of each register (R22 to R33) -/

/-- The state `s` with the fields that a command may write taken from `t`: the writer table, command by command. -/
def frameOf : Instr → State → State → State
  | .init _ _ _, _, t => t
  | .setsrc _, s, t => { s with srcp := t.srcp, rsp := t.rsp }
  | .setdst _, s, t => { s with dstp := t.dstp, rsp := t.rsp }
  | .rdreg _, s, t => { s with rsp := t.rsp }
  | .anlz, s, t => { s with an := t.an, ph := t.ph, rsp := t.rsp }
  | .pack, s, t => { s with dst := t.dst, srcp := t.srcp, dstp := t.dstp, blk := t.blk, ph := t.ph, rsp := t.rsp }
  | .unpack, s, t =>
    { s with blkbuf := t.blkbuf, dst := t.dst, srcp := t.srcp, dstp := t.dstp, blk := t.blk, first := t.first,
             ph := t.ph, rsp := t.rsp }
  | .grpbeg, s, t =>
    { s with dst := t.dst, hdrp := t.hdrp, hcur := t.hcur, blk := t.blk, grp := t.grp, dstp := t.dstp, rsp := t.rsp }
  | .hdrput, s, t => { s with dst := t.dst, hcur := t.hcur, ph := t.ph, rsp := t.rsp }
  | .hdrdec, s, t => { s with g0 := t.g0, g1 := t.g1, srcp := t.srcp, blk := t.blk, grp := t.grp, rsp := t.rsp }
  | .zzenc, s, t => { s with blkbuf := t.blkbuf, prev := t.prev, ph := t.ph, rsp := t.rsp }
  | .zzdec, s, t =>
    { s with dst := t.dst, prev := t.prev, dstp := t.dstp, blk := t.blk, first := t.first, ph := t.ph, rsp := t.rsp }
  | .rle, s, t =>
    { s with run := t.run, srcp := t.srcp, dst := t.dst, dstp := t.dstp, hcur := t.hcur, blk := t.blk, ph := t.ph,
             rsp := t.rsp }
  | .rleflush, s, t =>
    { s with dst := t.dst, dstp := t.dstp, hcur := t.hcur, blk := t.blk, run := t.run, rsp := t.rsp }
  | .rledec, s, t =>
    { s with dst := t.dst, dstp := t.dstp, srcp := t.srcp, blk := t.blk, first := t.first, rsp := t.rsp }

/-- A command that completes leaves every field alone that its row of the writer table does not name. -/
theorem effectOf_frame (i : Instr) (s : State) : effectOf i s = frameOf i s (effectOf i s) := by
  cases i with
  | unpack =>
    simp only [effectOf, unpackEffect]
    split <;> rfl
  | rle =>
    simp only [effectOf, rleEffect]
    split
    · rfl
    split <;> rfl
  | _ => rfl

/-- No command but INIT writes the configuration, and none that completes writes the fault (R22 to R24). -/
theorem effectOf_config {i : Instr} {s : State} (hi : ∀ d delta rle, i ≠ .init d delta rle) :
    (effectOf i s).D = s.D ∧ (effectOf i s).cfgDelta = s.cfgDelta ∧ (effectOf i s).cfgRle = s.cfgRle ∧
      (effectOf i s).cfgd = s.cfgd ∧ (effectOf i s).fault = s.fault ∧ (effectOf i s).ecode = s.ecode := by
  rw [effectOf_frame]
  cases i with
  | init => exact absurd rfl (hi _ _ _)
  | _ => exact ⟨rfl, rfl, rfl, rfl, rfl, rfl⟩

/-- A fault code is none of the status bytes of a success (R271). -/
theorem FaultCode.code_range (c : FaultCode) : 1 ≤ c.code.toNat ∧ c.code.toNat ≤ 8 := by
  cases c <;> decide

/-- The status byte of a fault's response is its code, not 0 (R112, R276). -/
theorem rspWord_fault_ne_ok (c : FaultCode) : (rspWord c.code 0 0).toNat % 256 ≠ 0 := by
  have := c.code_range
  have hval : (0 : BitVec 48).toNat = 0 := rfl
  have hout : (0 : BitVec 8).toNat = 0 := rfl
  rw [rspWord_toNat, hval, hout]
  omega

/-- Settles O43: a fault writes `FAULT`, `ECODE` and the response only, and for a command that completes the two writer
tables, by command and by register, say the same. -/
theorem registersHaveTheirWriters : Obligations.RegistersHaveTheirWriters := by
  unfold Obligations.RegistersHaveTheirWriters
  intro i s t hexec hi
  rcases exec_cases hexec with ⟨c, rfl⟩ | ⟨-, rfl⟩
  · -- What is left of the fault's clauses: its response is no success, and a fault that stood stands.
    simpa using ⟨fun hok => absurd hok (rspWord_fault_ne_ok c), fun h h' => absurd (h.symm.trans h') nofun⟩
  · rw [effectOf_frame]
    cases i with
    | init d delta rle => exact absurd rfl (hi d delta rle)
    | _ => simp [frameOf]

end Sys2Proof.Machine
end

section
namespace Sys2Proof.Machine

/-! ## The register table at reset and after INIT (R38) -/

/-- Tables of any number of stripes that hold 0 read as 0 everywhere. -/
theorem analysisZero_getD (ns j : Nat) :
    (Analysis.zero ns).w.getD j 0 = 0 ∧ (Analysis.zero ns).h.getD j 0 = 0 ∧ (Analysis.zero ns).weff.getD j 0 = 0 ∧
      (Analysis.zero ns).sbw.getD j 0 = 0 ∧ (Analysis.zero ns).smask.getD j 0 = 0 ∧
      (Analysis.zero ns).shdr.getD j 0 = 0 := by
  simp [Analysis.zero]

/-- Decoder tables of any number of stripes that hold 0 read as 0 everywhere. -/
theorem slotTablesZero_getD (ns j : Nat) :
    (SlotTables.zero ns).gh.getD j 0 = 0 ∧ (SlotTables.zero ns).gw.getD j 0 = 0 ∧
      (SlotTables.zero ns).gsbw.getD j 0 = 0 ∧ (SlotTables.zero ns).gmask.getD j 0 = 0 := by
  simp [SlotTables.zero]

/-- A block buffer whose entries are 0 reads as 0 everywhere, its pad columns included. -/
theorem blkAt_eq_zero {s : State} {n m : Nat} (h : s.blkbuf = List.replicate n (List.replicate m 0)) (i j : Nat) :
    s.blkAt i j = 0 := by
  simp only [State.blkAt, h, List.getD_eq_getElem?_getD, List.getElem?_replicate (i := i)]
  split <;> simp

/-- INIT leaves every register at the value of the table, for every number of dimensions (R38, R143). -/
theorem registersCleared_configure (s : State) (d : BitVec 16) (delta rle : Bool) :
    registersCleared (s.configure d delta rle) := by
  refine ⟨rfl, rfl, rfl, rfl, rfl, rfl, rfl, rfl, rfl, rfl, rfl, ?prev, blkAt_eq_zero rfl, analysisZero_getD _,
    rfl, rfl, rfl, ?slots⟩
  case prev => simp [State.prevAt]
  case slots =>
    intro t ht
    rcases List.mem_pair.1 ht with rfl | rfl <;> exact ⟨slotTablesZero_getD _, rfl, rfl, rfl⟩

/-- Reset leaves every register at the value of the table (R38). -/
theorem registersCleared_reset : registersCleared State.reset := by
  refine ⟨rfl, rfl, rfl, rfl, rfl, rfl, rfl, rfl, rfl, rfl, rfl, ?prev, blkAt_eq_zero (n := 8) (m := 0) rfl,
    analysisZero_getD 0, rfl, rfl, rfl, ?slots⟩
  case prev => simp [State.prevAt, State.reset]
  case slots =>
    intro t ht
    rcases List.mem_pair.1 ht with rfl | rfl <;> exact ⟨slotTablesZero_getD 0, rfl, rfl, rfl⟩

/-- Settles O9. -/
theorem registersAfterResetAndInit : Obligations.RegistersAfterResetAndInit := by
  unfold Obligations.RegistersAfterResetAndInit
  exact ⟨⟨registersCleared_reset, rfl, rfl, rfl, rfl⟩, fun s d delta rle hd hrle =>
    ⟨_, exec_init_of_legal s ⟨hd, hrle⟩, registersCleared_configure s d delta rle, rfl, rfl, rfl, rfl⟩⟩

end Sys2Proof.Machine
end

section
namespace Sys2Proof.Machine

/-! ## Fields of a sum (R92, R164) -/

/-- A sum of fields of `w` bits, each shifted to its own place, stays below the next place. -/
theorem sum_shiftLeft_lt {w : Nat} {f : Nat → Nat} (hf : ∀ j, f j < 2 ^ w) (n : Nat) :
    ((List.range n).map fun j => f j <<< (w * j)).sum < 2 ^ (w * n) := by
  induction n with
  | zero => simp
  | succ n ih =>
    simp only [List.sum_range_succ, Nat.shiftLeft_eq, Nat.mul_succ, Nat.pow_add] at ih ⊢
    have hle : f n + 1 ≤ 2 ^ w := hf n
    calc _ < 2 ^ (w * n) + f n * 2 ^ (w * n) := by omega
      _ = (f n + 1) * 2 ^ (w * n) := by ring
      _ ≤ 2 ^ w * 2 ^ (w * n) := Nat.mul_le_mul_right _ hle
      _ = 2 ^ (w * n) * 2 ^ w := Nat.mul_comm ..

/-- Bit `p` of such a sum is bit `p mod w` of its field `p div w`. -/
theorem testBit_sum_shiftLeft {w : Nat} (hw : 0 < w) {f : Nat → Nat} (hf : ∀ j, f j < 2 ^ w) (n p : Nat) :
    ((List.range n).map fun j => f j <<< (w * j)).sum.testBit p =
      (decide (p / w < n) && (f (p / w)).testBit (p % w)) := by
  induction n with
  | zero => simp
  | succ n ih =>
    have hlow : p < w * n ↔ p / w < n := by rw [Nat.div_lt_iff_lt_mul hw, Nat.mul_comm]
    have hp := Nat.div_add_mod p w
    rw [List.sum_range_succ, Nat.add_comm, Nat.shiftLeft_eq, Nat.mul_comm (f n),
      Nat.testBit_two_pow_mul_add _ (sum_shiftLeft_lt hf n), ih]
    rcases Nat.lt_trichotomy (p / w) n with hlt | rfl | hgt
    · simp [hlow, hlt, Nat.lt_succ_of_lt hlt]
    · have hoff : p - w * (p / w) = p % w := by omega
      simp [hlow, hoff]
    · have hge : w ≤ p - w * n := by
        have := Nat.mul_le_mul_left w hgt
        rw [Nat.mul_succ] at this
        omega
      have hzero : (f n).testBit (p - w * n) = false :=
        Nat.testBit_lt_two_pow (Nat.lt_of_lt_of_le (hf n) (Nat.pow_le_pow_right (by decide) hge))
      have h1 : ¬p / w < n := by omega
      have h2 : ¬p / w < n + 1 := by omega
      simp [hlow, h1, h2, hzero]

/-! ## Widths and codes (R91, R163) -/

/-- The width of a code is one more than the code for the last code, else the code (R163, R201). -/
theorem codeWidth_toNat (c : BitVec 3) : (codeWidth c).toNat = c.toNat + if c = 7 then 1 else 0 := by
  revert c; decide

/-- The code of a minimum width (R91, R163). -/
theorem widthCode_toNat {n : Nat} (h : n ≤ 8) : (widthCode n).toNat = n - if n = 8 then 1 else 0 := by
  interval_cases n <;> rfl

/-- No width is more than that of a byte (R134). -/
theorem widthOf_le (s : State) (j : Nat) : s.widthOf j ≤ 8 := by
  unfold State.widthOf
  split
  · exact bitLength_le _
  · omega

/-- A pad position has width 0 (R162). -/
theorem widthOf_pad {s : State} {j : Nat} (h : s.D ≤ j) : s.widthOf j = 0 :=
  if_neg (by omega)

/-- The widths of a list of codes, read at any index: a missing entry has code 0 and width 0. -/
theorem getD_map_codeWidth (codes : List (BitVec 3)) (j : Nat) :
    (codes.map codeWidth).getD j 0 = codeWidth (codes.getD j 0) :=
  List.getD_map _ 0 codeWidth

/-! ## Row sizes (R95, R165, R202) -/

theorem dimOff_succ (ws : List (BitVec 4)) (d : Nat) : dimOff ws (d + 1) = dimOff ws d + (ws.getD d 0).toNat := by
  simp only [dimOff, List.sum_range_succ]

theorem dimOff_add (ws : List (BitVec 4)) (d n : Nat) :
    dimOff ws (d + n) = dimOff ws d + ((List.range n).map fun j => (ws.getD (d + j) 0).toNat).sum := by
  induction n with
  | zero => rfl
  | succ n ih => rw [← Nat.add_assoc, dimOff_succ, ih, List.sum_range_succ, Nat.add_assoc]

/-- The stripe widths of the first `n` stripes add up to the offset of the dimension after them. -/
theorem sum_stripes_eq_dimOff (ws : List (BitVec 4)) (n : Nat) :
    ((List.range n).map fun st => ((List.range 8).map fun j => (ws.getD (8 * st + j) 0).toNat).sum).sum =
      dimOff ws (8 * n) := by
  induction n with
  | zero => rfl
  | succ n ih =>
    rw [List.sum_range_succ, ih, Nat.mul_succ, dimOff_add]

/-- Dimensions of width 0 do not move the offset. -/
theorem dimOff_of_zero_from {ws : List (BitVec 4)} {d n : Nat} (hn : d ≤ n) (h : ∀ j, d ≤ j → ws.getD j 0 = 0) :
    dimOff ws n = dimOff ws d := by
  induction n, hn using Nat.le_induction with
  | base => rfl
  | succ n hn ih => rw [dimOff_succ, ih, h n hn]; rfl

/-- Eight bits a dimension bound a row. -/
theorem dimOff_le {ws : List (BitVec 4)} (h : ∀ j, (ws.getD j 0).toNat ≤ 8) (d : Nat) : dimOff ws d ≤ 8 * d := by
  induction d with
  | zero => rfl
  | succ d ih => have := h d; rw [dimOff_succ]; omega

/-! ## The derived tables -/

/-- The stripes of `d` dimensions hold them all. -/
theorem le_stripesOf (d : Nat) : d ≤ 8 * stripesOf d := by
  unfold stripesOf; omega

/-- Eight widths of at most 8 bits fit the register of a stripe's width (R164). -/
theorem stripeWidth_toNat {ws : List (BitVec 4)} (h : ∀ j, (ws.getD j 0).toNat ≤ 8) (st : Nat) :
    (stripeWidth ws st).toNat = ((List.range 8).map fun j => (ws.getD (8 * st + j) 0).toNat).sum := by
  have hbound : ((List.range 8).map fun j => (ws.getD (8 * st + j) 0).toNat).sum ≤ 8 • 8 := by
    refine (List.sum_le_card_nsmul _ 8 fun x hx => ?_).trans_eq (by simp)
    obtain ⟨j, -, rfl⟩ := List.mem_map.1 hx
    exact h _
  rw [stripeWidth, BitVec.toNat_ofNat]
  exact Nat.mod_eq_of_lt (Nat.lt_of_le_of_lt hbound (by decide))

/-- Bit `p` of a stripe's mask is set below the width of dimension `p div 8` of the stripe (R164, R202). -/
theorem getLsbD_stripeMask (codes : List (BitVec 3)) (st : Nat) {p : Nat} (hp : p < 64) :
    (stripeMask codes st).getLsbD p = decide (p % 8 < (codeWidth (codes.getD (8 * st + p / 8) 0)).toNat) := by
  have hdiv : p / 8 < 8 := by omega
  rw [stripeMask, BitVec.getLsbD_ofNat, testBit_sum_shiftLeft (by decide) (fun j => (nbitsMask _).isLt),
    nbitsMask_eq, Nat.testBit_two_pow_sub_one]
  simp [hp, hdiv]

/-- The bits of a row fit their register, and are the offset after the last dimension (R165, R202). -/
theorem rowBits_toNat {ws : List (BitVec 4)} {d : Nat} (hd : d < 2 ^ 16) (hle : ∀ j, (ws.getD j 0).toNat ≤ 8)
    (hpad : ∀ j, d ≤ j → ws.getD j 0 = 0) :
    (rowBits ((List.range (stripesOf d)).map (stripeWidth ws))).toNat = dimOff ws d := by
  have hsum : (((List.range (stripesOf d)).map (stripeWidth ws)).map BitVec.toNat).sum = dimOff ws d := by
    rw [List.map_map, ← dimOff_of_zero_from (le_stripesOf d) hpad, ← sum_stripes_eq_dimOff]
    exact congrArg List.sum (List.map_congr_left fun st _ => stripeWidth_toNat hle st)
  have hbound := dimOff_le hle d
  rw [rowBits, hsum, BitVec.toNat_ofNat]
  exact Nat.mod_eq_of_lt (by omega)

/-- The zero flag says that the row has no bits (R165, R202). -/
theorem zeroRow_eq (rowbits : BitVec 20) : zeroRow rowbits = decide (rowbits.toNat = 0) := by
  simp [zeroRow, BitVec.toNat_eq, Bool.beq_eq_decide_eq]

/-- The tables derived from codes whose pad positions are 0 are coherent (R163 to R165, R201, R202). -/
theorem slotTables_coherent {d : Nat} (hd : d < 2 ^ 16) {codes : List (BitVec 3)}
    (hlen : codes.length = 8 * stripesOf d) (hpad : ∀ j, d ≤ j → codes.getD j 0 = 0) :
    (slotTables (stripesOf d) codes).coherent d := by
  have hle (j : Nat) : ((codes.map codeWidth).getD j 0).toNat ≤ 8 := by
    rw [getD_map_codeWidth]
    exact codeWidth_le _
  have hpadw (j : Nat) (hj : d ≤ j) : (codes.map codeWidth).getD j 0 = 0 := by
    rw [getD_map_codeWidth, hpad j hj]
    rfl
  have hrow := rowBits_toNat hd hle hpadw
  have hbound := dimOff_le hle d
  refine ⟨hlen, ?ws, ?sbw, ?mask, fun j _ => hpad j, ?width, ?stripe, ?bits, hrow, ?bytes, ?zero⟩
  case ws => simp [slotTables]
  case sbw => simp [slotTables, stripesOf]
  case mask => simp [slotTables, stripesOf]
  case width =>
    intro j _
    simp only [slotTables]
    rw [getD_map_codeWidth]
    exact codeWidth_toNat _
  case stripe =>
    intro st hst
    have hst' : st < stripesOf d := by simpa [slotTables] using hst
    simpa [slotTables, List.getD_eq_getElem?_getD, hst'] using stripeWidth_toNat hle st
  case bits =>
    intro st hst p hp
    have hst' : st < stripesOf d := by simpa [slotTables] using hst
    have hw := getLsbD_stripeMask codes st hp
    rw [← getD_map_codeWidth] at hw
    simpa [slotTables, List.getD_eq_getElem?_getD, hst'] using hw
  case bytes =>
    simp only [slotTables, rowBytes, BitVec.toNat_ofNat]
    rw [hrow]
    exact Nat.mod_eq_of_lt (by omega)
  case zero =>
    exact (zeroRow_eq _).trans (decide_eq_decide.2 (by rw [hrow]; rfl))

/-! ## The tables ANLZ computes (R161 to R165) -/

theorem D_lt (s : State) : s.D < 2 ^ 16 := s.cfgD.isLt

/-- A table of `n` entries, read at any index, when the entries past its end would be 0. -/
theorem getD_map_range {w n : Nat} {f : Nat → BitVec w} (h : ∀ j, n ≤ j → f j = 0) (j : Nat) :
    ((List.range n).map f).getD j 0 = f j := by
  by_cases hj : j < n
  · simp [List.getD_eq_getElem?_getD, hj]
  · rw [h j (by omega)]
    simp [List.getD_eq_getElem?_getD, hj]

/-- Past the stripes there is no dimension. -/
theorem widthOf_past_stripes {s : State} {j : Nat} (h : 8 * s.nstripes ≤ j) : s.widthOf j = 0 :=
  widthOf_pad (Nat.le_trans (le_stripesOf s.D) h)

theorem analysis_w_getD (s : State) (j : Nat) : s.analysis.w.getD j 0 = BitVec.ofNat 4 (s.widthOf j) := by
  simp only [State.analysis, List.map_map]
  exact getD_map_range (f := BitVec.ofNat 4 ∘ s.widthOf) (fun j hj => by simp [widthOf_past_stripes hj]) j

theorem analysis_h_getD (s : State) (j : Nat) : s.analysis.h.getD j 0 = widthCode (s.widthOf j) := by
  simp only [State.analysis, List.map_map]
  exact getD_map_range (f := widthCode ∘ s.widthOf) (fun j hj => by simp [widthOf_past_stripes hj, widthCode]) j

/-- Bit `p` of a stripe's header is a bit of the code of its dimension `p div 3`, if it has that dimension (R164). -/
theorem getLsbD_stripeHeader (codes : List (BitVec 3)) (st nd : Nat) {p : Nat} (hp : p < 24) :
    (stripeHeader codes st nd).getLsbD p =
      (decide (p / 3 < nd) && (codes.getD (8 * st + p / 3) 0).getLsbD (p % 3)) := by
  rw [stripeHeader, BitVec.getLsbD_ofNat, testBit_sum_shiftLeft (by decide) (fun j => (codes.getD _ 0).isLt)]
  simp [hp, BitVec.getLsbD]

/-- A position of a stripe is past its dimensions just when it is past all dimensions (R9). -/
theorem nd_le_iff (s : State) (st : Nat) {k : Nat} (hk : k < 8) : s.nd st ≤ k ↔ s.D ≤ 8 * st + k := by
  have hns : s.nstripes = (s.D + 7) / 8 := rfl
  unfold State.nd
  split <;> omega

/-- The tables that ANLZ computes are coherent, in every state (R163 to R165). -/
theorem analysis_coherent (s : State) : s.analysis.coherent s.D := by
  have hpad (j : Nat) (hj : s.D ≤ j) : s.analysis.h.getD j 0 = 0 := by
    rw [analysis_h_getD, widthOf_pad hj]
    rfl
  have hlen : s.analysis.h.length = 8 * stripesOf s.D := by simp [State.analysis, State.nstripes]
  refine ⟨slotTables_coherent (D_lt s) hlen hpad, ?lenw, ?lenshdr, ?widths, ?headers⟩
  case lenw => simp [State.analysis]
  case lenshdr => simp [State.analysis, State.nstripes, stripesOf]
  case widths =>
    intro j _
    have hle := widthOf_le s j
    have hw : (BitVec.ofNat 4 (s.widthOf j)).toNat = s.widthOf j := by
      rw [BitVec.toNat_ofNat]
      exact Nat.mod_eq_of_lt (by omega)
    rw [analysis_w_getD, analysis_h_getD, hw]
    exact ⟨hle, widthCode_toNat hle⟩
  case headers =>
    intro st hst p hp
    have hst' : st < s.nstripes := by simpa [State.analysis] using hst
    have hentry : s.analysis.shdr.getD st 0 = stripeHeader s.analysis.h st (s.nd st) := by
      simp [State.analysis, List.getD_eq_getElem?_getD, hst']
    rw [hentry, getLsbD_stripeHeader _ _ _ hp]
    by_cases hnd : p / 3 < s.nd st
    · simp [hnd]
    · rw [hpad _ ((nd_le_iff s st (by omega)).1 (by omega))]
      simp

/-! ## The tables HDRDEC derives (R198 to R202) -/

/-- `TILE7` has three set bits below each byte (R137). -/
theorem rank_tile7 : ∀ j < 8, ∀ k < 3, rank tile7 (8 * j + k) = 3 * j + k := by decide

/-- The field of a stripe has three bits for each dimension of it (R199). -/
theorem headerField_lt (s : State) (b st : Nat) : headerField s b st < 2 ^ (3 * s.nd st) :=
  Nat.mod_lt _ (Nat.two_pow_pos _)

/-- The deposit through `TILE7` spreads the header field: three bits to each code (R199). -/
theorem getLsbD_stripeCodes (s : State) (b st : Nat) {j k : Nat} (hj : j < 8) (hk : k < 3) :
    ((stripeCodes s b st).getD j 0).getLsbD k = (headerField s b st).testBit (3 * j + k) := by
  have htile : ∀ j < 8, ∀ k < 3, tile7.getLsbD (8 * j + k) = true := by decide
  have hbit : 3 * j + k < 64 := by omega
  have hentry : (stripeCodes s b st).getD j 0 =
      (pdep (BitVec.ofNat 64 (headerField s b st)) tile7).extractLsb' (8 * j) 3 := by
    simp [stripeCodes, List.getD_eq_getElem?_getD, hj]
  rw [hentry, BitVec.getLsbD_extractLsb', getLsbD_pdep, htile j hj k hk, rank_tile7 j hj k hk, BitVec.getLsbD_ofNat]
  simp only [hk, hbit, decide_true, Bool.true_and]

/-- The codes of a stripe past its dimensions are 0 (R199). -/
theorem stripeCodes_pad {s : State} {b st j : Nat} (hj : j < 8) (h : s.nd st ≤ j) :
    (stripeCodes s b st).getD j 0 = 0 := by
  apply BitVec.eq_of_getLsbD_eq
  intro k hk
  rw [getLsbD_stripeCodes s b st hj hk, Nat.testBit_lt_two_pow]
  · exact BitVec.getLsbD_zero.symm
  · exact Nat.lt_of_lt_of_le (headerField_lt s b st) (Nat.pow_le_pow_right (by decide) (by omega))

@[simp] theorem length_headerCodes (s : State) (b : Nat) : (headerCodes s b).length = 8 * s.nstripes := by
  simp [headerCodes, stripeCodes, List.length_flatMap, Nat.mul_comm]

/-- An entry of rows of `w` entries laid end to end. -/
theorem getD_flatMap_range {α : Type} {w : Nat} {f : Nat → List α} (hf : ∀ st, (f st).length = w) (d : α)
    {n st j : Nat} (hst : st < n) (hj : j < w) :
    ((List.range n).flatMap f).getD (w * st + j) d = (f st).getD j d := by
  induction n with
  | zero => omega
  | succ n ih =>
    have hlen : ((List.range n).flatMap f).length = w * n := by simp [List.length_flatMap, hf, Nat.mul_comm]
    rw [List.range_succ, List.flatMap_append]
    rcases Nat.lt_succ_iff_lt_or_eq.1 hst with hlt | rfl
    · have hin : w * st + j < w * n := by
        have := Nat.mul_le_mul_left w hlt
        rw [Nat.mul_succ] at this
        omega
      rw [List.getD_append _ _ _ _ (by rw [hlen]; exact hin), ih hlt]
    · rw [List.getD_append_right _ _ _ _ (by omega), hlen, Nat.add_sub_cancel_left]
      simp

/-- Code `j` of stripe `st` in the list of all codes (R198). -/
theorem headerCodes_getD (s : State) (b : Nat) {st j : Nat} (hst : st < s.nstripes) (hj : j < 8) :
    (headerCodes s b).getD (8 * st + j) 0 = (stripeCodes s b st).getD j 0 :=
  getD_flatMap_range (fun _ => by simp [stripeCodes]) 0 hst hj

/-- The codes of the pad positions are 0 (R200). -/
theorem headerCodes_pad {s : State} {b j : Nat} (h : s.D ≤ j) : (headerCodes s b).getD j 0 = 0 := by
  by_cases hj : j < 8 * s.nstripes
  · have hst : j / 8 < s.nstripes := by omega
    have hnd : s.nd (j / 8) ≤ j % 8 := (nd_le_iff s _ (Nat.mod_lt j (by decide))).2 (by omega)
    have hentry := headerCodes_getD s b hst (Nat.mod_lt j (by decide))
    rw [Nat.div_add_mod] at hentry
    rw [hentry, stripeCodes_pad (Nat.mod_lt _ (by decide)) hnd]
  · exact List.getD_eq_default _ _ (by simpa using hj)

/-- The tables that HDRDEC derives are coherent for each slot, in every state (R201, R202). -/
theorem headerTables_coherent (s : State) (b : Nat) :
    (slotTables s.nstripes (headerCodes s b)).coherent s.D :=
  slotTables_coherent (D_lt s) (length_headerCodes s b) fun _ => headerCodes_pad

/-! ## Every step keeps the tables coherent (R32, R33) -/

section
variable {i : Instr} {s : State}

/-- Only ANLZ and INIT write the encoder tables (R32). -/
theorem effectOf_an (hi : ∀ d delta rle, i ≠ .init d delta rle) (h : i ≠ .anlz) : (effectOf i s).an = s.an := by
  rw [effectOf_frame]
  cases i with
  | init => exact absurd rfl (hi _ _ _)
  | anlz => exact absurd rfl h
  | _ => rfl

/-- Only HDRDEC and INIT write the decoder tables (R33). -/
theorem effectOf_slots (hi : ∀ d delta rle, i ≠ .init d delta rle) (h : i ≠ .hdrdec) :
    (effectOf i s).g0 = s.g0 ∧ (effectOf i s).g1 = s.g1 := by
  rw [effectOf_frame]
  cases i with
  | init => exact absurd rfl (hi _ _ _)
  | hdrdec => exact absurd rfl h
  | _ => exact ⟨rfl, rfl⟩

/-- Only HDRDEC opens a decoder group (R26). -/
theorem grp_of_effectOf_dec (h : i ≠ .hdrdec) (hdec : (effectOf i s).grp = .dec) : s.grp = .dec := by
  rw [effectOf_frame] at hdec
  cases i with
  | init | grpbeg => cases hdec
  | hdrdec => exact absurd rfl h
  | _ => exact hdec

/-- The encoder tables are in use: their block is analysed, its header deposited or not (R27, R32). -/
def usesAnalysis (p : Phase) : Prop := p = .analyzed ∨ p = .headered

/-- UNPACK leaves a block to ZZDEC in the delta modes only (R178). -/
theorem unpackEffect_ph (s : State) : (unpackEffect s).ph = if s.cfgDelta then .unpacked else s.ph := by
  unfold unpackEffect
  split <;> rfl

/-- A command that leaves the encoder tables in use finds them in use, ANLZ apart (R27, R274). -/
theorem usesAnalysis_of_effectOf (hcomp : completes i s) (h : i ≠ .anlz) (huse : usesAnalysis (effectOf i s).ph) :
    usesAnalysis s.ph := by
  cases i with
  | anlz => exact absurd rfl h
  | hdrput =>
    obtain ⟨-, -, ⟨hph, -⟩, -⟩ := hcomp
    exact .inl hph
  | rle =>
    obtain ⟨-, -, ⟨hph, -⟩, -⟩ := hcomp
    exact .inl hph
  | unpack =>
    obtain ⟨-, -, ⟨-, -, hph, -⟩, -⟩ := hcomp
    rw [effectOf, unpackEffect_ph, hph] at huse
    cases hd : s.cfgDelta <;> simp [hd, usesAnalysis] at huse
  | init | zzenc | pack | zzdec => rcases huse with h | h <;> cases h
  | _ => exact huse

/-- INIT leaves no table to read: the phase is IDLE and no group is open (R38). -/
theorem tablesCoherent_of_idle (hph : s.ph = .idle) (hgrp : s.grp = .none) : tablesCoherent s := by
  constructor <;> simp [hph, hgrp]

/-- A command that completes keeps the tables coherent: ANLZ and HDRDEC write coherent ones, INIT closes the group, and
the other commands write no table and bring none into use. -/
theorem tablesCoherent_effectOf (hcomp : completes i s) (hs : tablesCoherent s) : tablesCoherent (effectOf i s) := by
  obtain ⟨henc, hdec⟩ := hs
  by_cases hi : ∀ d delta rle, i ≠ .init d delta rle
  · obtain ⟨hD, -⟩ := effectOf_config (s := s) hi
    rw [tablesCoherent, hD]
    constructor
    · intro huse
      by_cases h : i = .anlz
      · subst h
        exact analysis_coherent s
      · rw [effectOf_an hi h]
        exact henc (usesAnalysis_of_effectOf hcomp h huse)
    · intro hgrp
      by_cases h : i = .hdrdec
      · subst h
        exact ⟨headerTables_coherent s 0, headerTables_coherent s 1⟩
      · obtain ⟨hg0, hg1⟩ := effectOf_slots (s := s) hi h
        rw [hg0, hg1]
        exact hdec (grp_of_effectOf_dec h hgrp)
  · push Not at hi
    obtain ⟨d, delta, rle, rfl⟩ := hi
    exact tablesCoherent_of_idle rfl rfl

end

/-- Settles O48: neither the phase nor the group of the reset state asks for a coherent table. -/
theorem tablesCoherentAtReset : Obligations.TablesCoherentAtReset := by
  unfold Obligations.TablesCoherentAtReset
  exact tablesCoherent_of_idle rfl rfl

/-- Settles O49. A reset leaves no table to read; a fault, a host write and the bookkeeping of the host's list touch
neither the tables nor the phase nor the group; the commands are `tablesCoherent_effectOf`. -/
theorem stepKeepsTheTablesCoherent : Obligations.StepKeepsTheTablesCoherent := by
  unfold Obligations.StepKeepsTheTablesCoherent
  intro s t hs hstep
  exact step_preserves (P := tablesCoherent)
    (haccept := fun _ _ h => h) (hrst := fun _ _ => tablesCoherent_of_idle rfl rfl)
    (hsrc := fun _ _ _ _ h => h) (hdst := fun _ _ _ _ h => h) (hraise := fun _ _ h => h)
    (heffect := fun _ _ => tablesCoherent_effectOf) hs hstep

end Sys2Proof.Machine
end

section
namespace Sys2Proof.Machine

/-! ## The control invariant (R35)

The clauses about the group in hand are the ones the commands work on; they are kept apart as `GroupInv`. A state of
an encoder group or of a decoder group satisfies them by `groupInv_enc` or `groupInv_dec`. -/

/-- Whether the block in hand has its header deposited already: 1 or 0 (R27). -/
def headered (p : Phase) : Nat := if p = .headered then 1 else 0

theorem headered_of_ne {p : Phase} (h : p ≠ .headered) : headered p = 0 := if_neg h

/-- The clauses of `controlInv` on `RUN`, `PH`, `GRP`, `BLK` and `HCUR` (R35 (a) to (c), R197). -/
structure GroupInv (s : State) : Prop where
  run : s.run.toNat ≠ 0 → s.cfgRle = true ∧ s.grp = .enc ∧ s.blk.toNat < 2
  encPhase : s.ph = .loaded ∨ s.ph = .analyzed ∨ s.ph = .headered → s.grp = .enc
  headeredPhase : s.ph = .headered → s.blk.toNat < 2 ∧ s.run.toNat = 0
  unpackedPhase : s.ph = .unpacked → s.grp = .dec ∧ s.blk.toNat < 2
  cap : s.run.toNat ≤ s.maxRun.toNat
  blk : s.blk.toNat ≤ 2
  hcur : s.hcur.toNat ≤ 6 * s.D
  hcurEnc : s.grp = .enc → s.hcur.toNat = 3 * s.D * (s.blk.toNat + headered s.ph)

/-- The control invariant is the clauses about the group in hand and those about the configuration and the fault. -/
theorem controlInv_iff (s : State) :
    controlInv s ↔ GroupInv s ∧
      (s.cfgd = true → 1 ≤ s.D ∧ (s.cfgRle = true → s.cfgDelta = true ∧ s.D < 1024)) ∧
      (s.fault = false → s.ecode = 0) ∧ (s.cfgd = false → atReset s) := by
  constructor
  · rintro ⟨h1, h2, h3, h4, h5, h6, h7, h8, h⟩
    exact ⟨⟨h1, h2, h3, h4, h5, h6, h7, h8⟩, h⟩
  · rintro ⟨⟨h1, h2, h3, h4, h5, h6, h7, h8⟩, h⟩
    exact ⟨h1, h2, h3, h4, h5, h6, h7, h8, h⟩

/-- Without a fault the invariant gives the code 0 (R24). -/
theorem controlInv_ecode (s : State) (h : controlInv s) : s.fault = false → s.ecode = 0 := by
  obtain ⟨-, -, hecode, -⟩ := (controlInv_iff s).1 h
  exact hecode

/-! ### States without a group, of an encoder group, of a decoder group -/

theorem groupInv_idle {t : State} (hgrp : t.grp = .none) (hph : t.ph = .idle) (hrun : t.run = 0) (hblk : t.blk = 2)
    (hcur : t.hcur = 0) : GroupInv t := by
  constructor <;> simp [hgrp, hph, hrun, hblk, hcur]

/-- In an encoder group `HCUR` stands after the `n` slots that are closed or headered, at most two. -/
theorem groupInv_enc {t : State} {n : Nat} (hgrp : t.grp = .enc) (hph : t.ph ≠ .unpacked)
    (hn : t.blk.toNat + headered t.ph = n) (hle : n ≤ 2) (hcur : t.hcur.toNat = 3 * t.D * n)
    (hcap : t.run.toNat ≤ t.maxRun.toNat)
    (hrun : t.run.toNat ≠ 0 → t.cfgRle = true ∧ t.blk.toNat < 2 ∧ t.ph ≠ .headered) : GroupInv t where
  run h := ⟨(hrun h).1, hgrp, (hrun h).2.1⟩
  encPhase _ := hgrp
  headeredPhase h := by
    have hone : headered t.ph = 1 := if_pos h
    exact ⟨by omega, by_contra fun hne => (hrun hne).2.2 h⟩
  unpackedPhase h := absurd h hph
  cap := hcap
  blk := by omega
  hcur := by
    have := Nat.mul_le_mul_left (3 * t.D) hle
    omega
  hcurEnc _ := by rw [hn, hcur]

/-- In a decoder group no run is open and no block waits for the encoder. -/
theorem groupInv_dec {t : State} (hgrp : t.grp = .dec) (hph : t.ph = .idle ∨ t.ph = .unpacked ∧ t.blk.toNat < 2)
    (hrun : t.run.toNat = 0) (hblk : t.blk.toNat ≤ 2) (hcur : t.hcur.toNat ≤ 6 * t.D) : GroupInv t := by
  rcases hph with hph | ⟨hph, hlt⟩
  · constructor <;> simp [hgrp, hph, hrun, hblk, hcur]
  · constructor <;> simp [hgrp, hph, hrun, hblk, hcur, hlt]

/-- The cursors of the data, the fault, the memories and the ports have no part in the clauses. -/
theorem GroupInv.of_same {s t : State} (h : GroupInv s)
    (hsame : t = { s with srcp := t.srcp, dstp := t.dstp, fault := t.fault, ecode := t.ecode, src := t.src,
                          dst := t.dst, host := t.host, rsp := t.rsp, tick := t.tick }) : GroupInv t := by
  rw [hsame]
  exact ⟨h.run, h.encPhase, h.headeredPhase, h.unpackedPhase, h.cap, h.blk, h.hcur, h.hcurEnc⟩

/-! ### Each command -/

/-- Closing a slot does not wrap (R26). -/
theorem blk_succ_toNat {b : BitVec 2} (h : b.toNat < 2) : (b + 1).toNat = b.toNat + 1 := by
  revert b; decide

/-- One more block in the run does not wrap below the cap (R222). -/
theorem run_succ_toNat {r m : BitVec 15} (h : r.toNat < m.toNat) : (r + 1).toNat = r.toNat + 1 := by
  have := m.isLt
  rw [BitVec.toNat_add]
  exact Nat.mod_eq_of_lt (by simp; omega)

section
variable {s : State}

/-- Outside an encoder group no run is open. -/
theorem GroupInv.run_eq_zero (h : GroupInv s) (hgrp : s.grp = .dec ∨ s.blk.toNat = 2) : s.run.toNat = 0 := by
  by_contra hne
  obtain ⟨-, henc, hblk⟩ := h.run hne
  rcases hgrp with hdec | hfull
  · rw [henc] at hdec
    cases hdec
  · omega

/-- `HCUR` in an encoder group whose block in hand has no header yet. -/
theorem GroupInv.hcur_of_not_headered (h : GroupInv s) (hgrp : s.grp = .enc) (hph : s.ph ≠ .headered) :
    s.hcur.toNat = 3 * s.D * s.blk.toNat := by
  rw [h.hcurEnc hgrp, headered_of_ne hph, Nat.add_zero]

/-- Depositing the codes of `k` slots, or leaving them 0, moves `HCUR` past them without a wrap (R26, R197). -/
theorem advanceHcur_slots {n k : Nat} (hcur : s.hcur.toNat = 3 * s.D * n) (hk : n + k ≤ 2) :
    (s.advanceHcur (3 * s.D * k)).toNat = 3 * s.D * (n + k) := by
  have hD := D_lt s
  have hle := Nat.mul_le_mul_left (3 * s.D) hk
  rw [Nat.mul_add] at hle ⊢
  rw [advanceHcur_toNat (by omega), hcur]

theorem groupInv_zzenc (h : GroupInv s) (hruns : runs .zzenc s) : GroupInv (zzencEffect s) := by
  obtain ⟨-, -, ⟨hph, hgrp, hblk⟩, -⟩ := hruns
  have hcur := h.hcur_of_not_headered hgrp (by simp [hph])
  exact groupInv_enc hgrp nofun rfl hblk.le hcur h.cap fun hne => ⟨(h.run hne).1, hblk, nofun⟩

theorem groupInv_anlz (h : GroupInv s) (hruns : runs .anlz s) : GroupInv (anlzEffect s) := by
  obtain ⟨-, -, ⟨hgrp, hblk, hloaded, hidle⟩, -⟩ := hruns
  have hph : s.ph ≠ .headered := by
    cases hd : s.cfgDelta with
    | true => simp [hloaded hd]
    | false => simp [hidle hd]
  exact groupInv_enc hgrp nofun rfl hblk.le (h.hcur_of_not_headered hgrp hph) h.cap
    fun hne => ⟨(h.run hne).1, hblk, nofun⟩

theorem groupInv_grpbeg (h : GroupInv s) (hruns : runs .grpbeg s) : GroupInv (grpbegEffect s) := by
  obtain ⟨-, -, ⟨hblk, hph⟩, -⟩ := hruns
  have hrun : s.run.toNat = 0 := h.run_eq_zero (.inr hblk)
  have hunp : s.ph ≠ .unpacked := by rcases hph with hph | hph <;> simp [hph]
  have hhead : headered s.ph = 0 := headered_of_ne (by rcases hph with hph | hph <;> simp [hph])
  exact groupInv_enc (n := 0) rfl hunp ((Nat.zero_add _).trans hhead) (by decide) rfl h.cap fun hne => absurd hrun hne

theorem groupInv_hdrput (h : GroupInv s) (hruns : runs .hdrput s) : GroupInv (hdrputEffect s) := by
  obtain ⟨-, -, ⟨hph, hblk, hclosed⟩, -⟩ := hruns
  have hgrp : s.grp = .enc := h.encPhase (.inr (.inl hph))
  have hrun : s.run.toNat = 0 := by
    by_contra hne
    exact hne (hclosed (h.run hne).1).1
  have hcur := advanceHcur_slots (k := 1) (h.hcur_of_not_headered hgrp (by simp [hph])) hblk
  rw [Nat.mul_one] at hcur
  exact groupInv_enc hgrp nofun rfl hblk hcur h.cap fun hne => absurd hrun hne

theorem groupInv_pack (h : GroupInv s) (hruns : runs .pack s) : GroupInv (packEffect s) := by
  obtain ⟨-, -, hph, -⟩ := hruns
  obtain ⟨hblk, hrun⟩ := h.headeredPhase hph
  have hgrp : s.grp = .enc := h.encPhase (.inr (.inr hph))
  have hcur := h.hcurEnc hgrp
  rw [hph] at hcur
  exact groupInv_enc hgrp nofun (blk_succ_toNat hblk) hblk hcur h.cap fun hne => absurd hrun hne

/-- A zero block below the cap joins the run, which stays below it (R222). -/
theorem groupInv_rleAbsorb (h : GroupInv s) (hruns : runs .rle s) (habsorb : s.absorbs = true) :
    GroupInv (rleAbsorb s) := by
  obtain ⟨-, hrle, ⟨hph, hblk⟩, -⟩ := hruns
  have hgrp : s.grp = .enc := h.encPhase (.inr (.inl hph))
  have hlt : s.run.toNat < s.maxRun.toNat := of_decide_eq_true (Bool.and_eq_true_iff.1 habsorb).2
  exact groupInv_enc hgrp nofun rfl hblk.le (h.hcur_of_not_headered hgrp (by simp [hph]))
    ((run_succ_toNat hlt).trans_le hlt) fun _ => ⟨hrle, hblk, nofun⟩

/-- Closing a run fills its slot with codes 0 (R222). -/
theorem groupInv_rleClose (h : GroupInv s) (hruns : runs .rle s) : GroupInv (rleClose s) := by
  obtain ⟨-, -, ⟨hph, hblk⟩, -⟩ := hruns
  have hgrp : s.grp = .enc := h.encPhase (.inr (.inl hph))
  have hunp : s.ph ≠ .unpacked := by simp [hph]
  have hhead : headered s.ph = 0 := headered_of_ne (by simp [hph])
  have hcur := advanceHcur_slots (k := 1) (h.hcur_of_not_headered hgrp (by simp [hph])) hblk
  rw [Nat.mul_one] at hcur
  exact groupInv_enc hgrp hunp (congrArg₂ (· + ·) (blk_succ_toNat hblk) hhead) hblk hcur (Nat.zero_le _)
    fun hne => absurd rfl hne

theorem groupInv_rle (h : GroupInv s) (hruns : runs .rle s) : GroupInv (rleEffect s) := by
  unfold rleEffect
  split
  · next habsorb => exact groupInv_rleAbsorb h hruns habsorb
  split
  · exact groupInv_rleClose h hruns
  · exact h.of_same rfl

/-- RLEFLUSH fills both slots of the group (R226). -/
theorem GroupInv.flush_slots (h : GroupInv s) : s.blk.toNat + (flushRunSlots s + flushEmptySlots s) = 2 := by
  have hblk := h.blk
  unfold flushEmptySlots flushRunSlots
  split
  · next hne =>
    have hlt := (h.run fun h0 => hne (BitVec.eq_of_toNat_eq h0)).2.2
    omega
  · omega

theorem groupInv_rleflush (h : GroupInv s) (hruns : runs .rleflush s) : GroupInv (rleflushEffect s) := by
  obtain ⟨-, -, ⟨hgrp, hph⟩, -⟩ := hruns
  have hslots := h.flush_slots
  have hunp : s.ph ≠ .unpacked := by simp [hph]
  have hhead : headered s.ph = 0 := headered_of_ne (by simp [hph])
  have hcur := advanceHcur_slots (h.hcur_of_not_headered hgrp (by simp [hph])) hslots.le
  have hblk : (rleflushEffect s).blk.toNat = 2 := by
    simp only [rleflushEffect, respond_blk]
    rw [Nat.add_assoc, hslots]
    rfl
  exact groupInv_enc hgrp hunp (congrArg₂ (· + ·) hblk hhead) (by decide) (hcur.trans (by rw [hslots]; rfl))
    (Nat.zero_le _) fun hne => absurd rfl hne

theorem groupInv_hdrdec (h : GroupInv s) (hruns : runs .hdrdec s) : GroupInv (hdrdecEffect s) := by
  obtain ⟨-, -, ⟨hblk, hph⟩, -⟩ := hruns
  exact groupInv_dec rfl (.inl hph) (h.run_eq_zero (.inr hblk)) (Nat.zero_le _) h.hcur

theorem groupInv_zzdec (h : GroupInv s) (hruns : runs .zzdec s) : GroupInv (zzdecEffect s) := by
  obtain ⟨-, -, hph, -⟩ := hruns
  obtain ⟨hgrp, hblk⟩ := h.unpackedPhase hph
  exact groupInv_dec hgrp (.inl rfl) (h.run_eq_zero (.inl hgrp)) ((blk_succ_toNat hblk).trans_le hblk) h.hcur

theorem groupInv_unpack (h : GroupInv s) (hruns : runs .unpack s) : GroupInv (unpackEffect s) := by
  obtain ⟨-, -, ⟨hgrp, hblk, hph, -⟩, -⟩ := hruns
  have hrun := h.run_eq_zero (.inl hgrp)
  unfold unpackEffect
  split
  · exact groupInv_dec hgrp (.inr ⟨rfl, hblk⟩) hrun hblk.le h.hcur
  · exact groupInv_dec hgrp (.inl hph) hrun ((blk_succ_toNat hblk).trans_le hblk) h.hcur

theorem groupInv_rledec (h : GroupInv s) (hruns : runs .rledec s) : GroupInv (rledecEffect s) := by
  obtain ⟨-, -, ⟨hgrp, hblk, hph, -⟩, -⟩ := hruns
  exact groupInv_dec hgrp (.inl hph) (h.run_eq_zero (.inl hgrp)) ((blk_succ_toNat hblk).trans_le hblk) h.hcur

/-- Every command that passes the checks of R141 keeps the clauses about the group in hand. -/
theorem groupInv_effectOf {i : Instr} (h : GroupInv s) (hi : ¬alwaysAdmitted i) (hruns : runs i s) :
    GroupInv (effectOf i s) := by
  cases i with
  | init | rdreg => exact absurd trivial hi
  | setsrc | setdst => exact h.of_same rfl
  | anlz => exact groupInv_anlz h hruns
  | pack => exact groupInv_pack h hruns
  | unpack => exact groupInv_unpack h hruns
  | grpbeg => exact groupInv_grpbeg h hruns
  | hdrput => exact groupInv_hdrput h hruns
  | hdrdec => exact groupInv_hdrdec h hruns
  | zzenc => exact groupInv_zzenc h hruns
  | zzdec => exact groupInv_zzdec h hruns
  | rle => exact groupInv_rle h hruns
  | rleflush => exact groupInv_rleflush h hruns
  | rledec => exact groupInv_rledec h hruns

/-! ### Every step -/

/-- What leaves the registers alone but `FAULT` and `ECODE`, and `ECODE` 0 without a fault, keeps the invariant. -/
theorem controlInv_of_same {t : State} (hs : controlInv s)
    (hsame : t = { s with fault := t.fault, ecode := t.ecode, src := t.src, dst := t.dst, host := t.host,
                          rsp := t.rsp, tick := t.tick })
    (hecode : t.fault = false → t.ecode = 0) : controlInv t := by
  obtain ⟨hgroup, hcfg, -, hreset⟩ := (controlInv_iff s).1 hs
  refine (controlInv_iff t).2 ⟨hgroup.of_same (by rw [hsame]), ?config, hecode, ?reset⟩
  case config => rw [hsame]; exact hcfg
  case reset =>
    intro hcfgd
    have hs' : atReset s := hreset (by rw [hsame] at hcfgd; exact hcfgd)
    have hmax : t.maxRun = s.maxRun := by rw [hsame]
    refine hsame.trans ?_
    rw [hmax, hs']

/-- Reset, and the state of the machine right after it, satisfy the invariant (R38). -/
theorem controlInv_rst (s : State) : controlInv s.rst :=
  (controlInv_iff _).2 ⟨groupInv_idle rfl rfl rfl rfl rfl, nofun, fun _ => rfl, fun _ => rfl⟩

/-- INIT with a legal configuration establishes the invariant (R22, R38). -/
theorem controlInv_init {d : BitVec 16} {delta rle : Bool} (s : State) (h : legalConfig d delta rle) :
    controlInv (effectOf (.init d delta rle) s) :=
  (controlInv_iff _).2 ⟨groupInv_idle rfl rfl rfl rfl rfl, fun _ => h, fun _ => rfl, nofun⟩

/-- A command that passes the checks of R141 runs on a configured core without a fault, and keeps the invariant. -/
theorem controlInv_of_runs {i : Instr} (hs : controlInv s) (hi : ¬alwaysAdmitted i) (hruns : runs i s) :
    controlInv (effectOf i s) := by
  obtain ⟨hgroup, hcfg, hecode, -⟩ := (controlInv_iff s).1 hs
  have hcfgd : s.cfgd = true := hruns.1.2
  obtain ⟨hD, hdelta, hrle, hd, hf, he⟩ := effectOf_config (s := s) (i := i) fun _ _ _ h => hi (by rw [h]; trivial)
  refine (controlInv_iff _).2 ⟨groupInv_effectOf hgroup hi hruns, ?_⟩
  rw [hD, hdelta, hrle, hd, hf, he]
  exact ⟨hcfg, hecode, fun h => absurd (h.symm.trans hcfgd) nofun⟩

/-- A command that completes keeps the invariant. -/
theorem controlInv_effectOf {i : Instr} (hcomp : completes i s) (hs : controlInv s) : controlInv (effectOf i s) := by
  by_cases hi : alwaysAdmitted i
  · cases i with
    | init d delta rle => exact controlInv_init s hcomp
    | rdreg idx => exact controlInv_of_same hs rfl (controlInv_ecode s hs)
    | _ => exact hi.elim
  · exact controlInv_of_runs hs hi ((completes_iff_runs hi).1 hcomp)

end

/-- Settles O44. -/
theorem controlInvariantAtReset : Obligations.ControlInvariantAtReset := by
  unfold Obligations.ControlInvariantAtReset
  exact controlInv_rst State.reset

/-- Settles O45. The bookkeeping of the host's list, a host write and a fault leave the registers alone; the commands
are `controlInv_effectOf`. -/
theorem stepKeepsTheControlInvariant : Obligations.StepKeepsTheControlInvariant := by
  unfold Obligations.StepKeepsTheControlInvariant
  intro s t hs hstep
  exact step_preserves (P := controlInv)
    (haccept := fun s _ h => controlInv_of_same h rfl (controlInv_ecode s h)) (hrst := fun s _ => controlInv_rst s)
    (hsrc := fun s _ _ _ h => controlInv_of_same h rfl (controlInv_ecode s h))
    (hdst := fun s _ _ _ h => controlInv_of_same h rfl (controlInv_ecode s h))
    (hraise := fun _ _ h => controlInv_of_same h rfl nofun)
    (heffect := fun _ _ => controlInv_effectOf) hs hstep

end Sys2Proof.Machine
end

section
/-! The memory family (20_memory.md): what a footprint reaches, the writes of each command, the canonical form of the
memories, and the bytes of SRC a command depends on. -/

namespace Sys2Proof.Machine

/-! ## The addresses a footprint reaches (R68) -/

/-- An access of the footprint `fp` reaches address `a` of the space. -/
def reaches (fp : List Access) (sp : SpaceId) (a : Int) : Prop :=
  ∃ acc ∈ fp, acc.space = sp ∧ within a acc.addr acc.len

@[simp] theorem not_reaches_nil (sp : SpaceId) (a : Int) : ¬reaches [] sp a := by simp [reaches]

@[simp] theorem reaches_cons (acc : Access) (fp : List Access) (sp : SpaceId) (a : Int) :
    reaches (acc :: fp) sp a ↔ (sp = acc.space ∧ within a acc.addr acc.len) ∨ reaches fp sp a := by
  simp [reaches, eq_comm]

@[simp] theorem reaches_append (fp gp : List Access) (sp : SpaceId) (a : Int) :
    reaches (fp ++ gp) sp a ↔ reaches fp sp a ∨ reaches gp sp a := by
  simp [reaches, or_and_right, exists_or]

@[simp] theorem reaches_map_range (n : Nat) (f : Nat → Access) (sp : SpaceId) (a : Int) :
    reaches ((List.range n).map f) sp a ↔ ∃ k < n, sp = (f k).space ∧ within a (f k).addr (f k).len := by
  simp [reaches, eq_comm]

@[simp] theorem reaches_flatMap {α : Type} (l : List α) (f : α → List Access) (sp : SpaceId) (a : Int) :
    reaches (l.flatMap f) sp a ↔ ∃ x ∈ l, reaches (f x) sp a := by
  simp only [reaches, List.mem_flatMap]
  exact ⟨fun ⟨acc, ⟨x, hx, hacc⟩, h⟩ => ⟨x, hx, acc, hacc, h⟩,
    fun ⟨x, hx, acc, hacc, h⟩ => ⟨acc, ⟨x, hx, hacc⟩, h⟩⟩

@[simp] theorem reaches_ite (c : Prop) [Decidable c] (fp gp : List Access) (sp : SpaceId) (a : Int) :
    reaches (if c then fp else gp) sp a ↔ (c ∧ reaches fp sp a) ∨ (¬c ∧ reaches gp sp a) := by
  split <;> simp [*]

/-- Two accesses, the second right after the first, reach what one access of both lengths reaches. -/
theorem within_add (a : Int) (base m n : Nat) :
    within a base m ∨ within a ((base + m : Nat) : Int) n ↔ within a base (m + n) := by
  simp only [within]
  omega

/-- An access with another right after it on a condition reaches what one access reaches whose length depends on the
condition. -/
theorem within_add_ite (a : Int) (base m n : Nat) (c : Prop) [Decidable c] :
    within a base m ∨ (c ∧ within a ((base + m : Nat) : Int) n) ↔ within a base (if c then m + n else m) := by
  by_cases h : c
  · simpa only [h, true_and, if_true] using within_add a base m n
  · simp [h]

/-! ### Each command's accesses -/

section
variable (s : State) (sp : SpaceId) (a : Int)

theorem nineBytes_iff (sbw : List (BitVec 7)) (st : Nat) :
    nineBytes sbw st = true ↔ 64 < (sbw.getD st 0).toNat + bitOff sbw st % 8 := by
  simp [nineBytes, bitShift]

theorem reaches_anlzFootprint : reaches (anlzFootprint s) sp a ↔ touched .anlz s sp a := by
  cases hd : s.cfgDelta <;> simp [anlzFootprint, touched, hd, State.blockBytes]

/-- A stripe of a row that PACK touches: eight bytes of SRC in rowmajor, eight or nine of DST (R172 to R174). -/
theorem reaches_packAccess (i st : Nat) :
    reaches (packAccess s i st) sp a ↔
      (s.cfgDelta = false ∧ sp = .src ∧ within a ((s.srcp.toNat + i * s.D + 8 * st : Nat) : Int) 8) ∨
      (sp = .dst ∧ within a ((s.dstp.toNat + i * s.an.rowbytes.toNat + bitOff s.an.sbw st / 8 : Nat) : Int)
        (if 64 < (s.an.sbw.getD st 0).toNat + bitOff s.an.sbw st % 8 then 9 else 8)) := by
  rw [← within_add_ite a _ 8 1]
  simp only [packAccess, packAt, byteOff, nineBytes_iff, reaches_append, reaches_ite, reaches_cons, not_reaches_nil,
    or_false, and_false, false_or, Bool.not_eq_true, or_assoc, and_or_left, and_left_comm]

theorem reaches_packFootprint : reaches (packFootprint s) sp a ↔ touched .pack s sp a := by
  simp only [packFootprint, touched, reaches_cons, reaches_flatMap, reaches_packAccess, List.mem_range]
  constructor
  · rintro (hbody | ⟨i, hi, st, hst, ⟨hd, hsp, h⟩ | ⟨hsp, h⟩⟩)
    · exact .inr (.inl hbody)
    · exact .inl ⟨hd, hsp, i, hi, st, hst, h⟩
    · exact .inr (.inr ⟨hsp, i, hi, st, hst, h⟩)
  · rintro (⟨hd, hsp, i, hi, st, hst, h⟩ | hbody | ⟨hsp, i, hi, st, hst, h⟩)
    · exact .inr ⟨i, hi, st, hst, .inl ⟨hd, hsp, h⟩⟩
    · exact .inl hbody
    · exact .inr ⟨i, hi, st, hst, .inr ⟨hsp, h⟩⟩

/-- A stripe of a row that UNPACK touches: eight or sixteen bytes of SRC, eight of DST in rowmajor (R178 to R180). -/
theorem reaches_unpackAccess (i st : Nat) :
    reaches (unpackAccess s i st) sp a ↔
      (sp = .src ∧ within a ((s.srcp.toNat + i * s.slot.growbytes.toNat + bitOff s.slot.gsbw st / 8 : Nat) : Int)
        (if 64 < (s.slot.gsbw.getD st 0).toNat + bitOff s.slot.gsbw st % 8 then 16 else 8)) ∨
      (s.cfgDelta = false ∧ sp = .dst ∧ within a ((s.dstp.toNat + i * s.D + 8 * st : Nat) : Int) 8) := by
  rw [← within_add_ite a _ 8 8]
  simp only [unpackAccess, unpackAt, byteOff, nineBytes_iff, reaches_append, reaches_ite, reaches_cons,
    not_reaches_nil, or_false, and_false, false_or, Bool.not_eq_true, and_or_left, and_left_comm]

theorem reaches_unpackFootprint : reaches (unpackFootprint s) sp a ↔ touched .unpack s sp a := by
  simp only [unpackFootprint, touched, reaches_flatMap, reaches_unpackAccess, List.mem_range]
  constructor
  · rintro ⟨i, hi, st, hst, ⟨hsp, h⟩ | ⟨hd, hsp, h⟩⟩
    · exact .inl ⟨hsp, i, hi, st, hst, h⟩
    · exact .inr ⟨hd, hsp, i, hi, st, hst, h⟩
  · rintro (⟨hsp, i, hi, st, hst, h⟩ | ⟨hd, hsp, i, hi, st, hst, h⟩)
    · exact ⟨i, hi, st, hst, .inl ⟨hsp, h⟩⟩
    · exact ⟨i, hi, st, hst, .inr ⟨hd, hsp, h⟩⟩

theorem reaches_hdrputFootprint : reaches (hdrputFootprint s) sp a ↔ touched .hdrput s sp a := by
  simp [hdrputFootprint, touched, putAt, putCursor, and_left_comm]

theorem reaches_hdrdecFootprint : reaches (hdrdecFootprint s) sp a ↔ touched .hdrdec s sp a := by
  have hslot (b : Nat) : b ∈ [0, 1] ↔ b < 2 := by
    rw [List.mem_pair]
    omega
  simp only [hdrdecFootprint, touched, getAt, getCursor, reaches_flatMap, reaches_map_range, hslot]
  exact ⟨fun ⟨b, hb, st, hst, hsp, h⟩ => ⟨hsp, b, hb, st, hst, h⟩,
    fun ⟨hsp, b, hb, st, hst, h⟩ => ⟨b, hb, st, hst, hsp, h⟩⟩

/-- No run is open when its length is 0 (R28). -/
theorem run_eq_zero_iff : s.run = 0 ↔ s.run.toNat = 0 := BitVec.toNat_inj.symm

theorem absorbs_iff : s.absorbs = true ↔ s.an.zb = true ∧ s.run.toNat < s.maxRun.toNat := by
  simp [State.absorbs]

theorem reaches_rleFootprint : reaches (rleFootprint s) sp a ↔ touched .rle s sp a := by
  simp only [rleFootprint, touched, absorbs_iff, length_lenfield, ne_eq, run_eq_zero_iff, Nat.pos_iff_ne_zero,
    reaches_ite, reaches_cons, not_reaches_nil, and_false, or_false, false_or]

/-- The bytes RLEFLUSH writes: the field of the open run and a byte for each slot left (R226). -/
theorem length_flushBytes :
    (flushBytes s).length = (if s.run.toNat = 0 then 0 else if s.run.toNat ≤ 0x7F then 1 else 2) +
      (2 - (s.blk.toNat + if s.run.toNat = 0 then 0 else 1)) := by
  simp only [flushBytes, flushRun, flushEmptySlots, flushRunSlots, List.length_append, List.length_replicate,
    ne_eq, run_eq_zero_iff, ite_not]
  split
  · rfl
  · rw [length_lenfield]

/-- The top bit of its first byte says that a length field is long (R225). -/
theorem lenfieldLong_iff (b0 : Byte) : lenfieldLong b0 = true ↔ ¬b0.toNat < 0x80 := by
  revert b0; decide

theorem reaches_rledecFootprint : reaches (rledecFootprint s) sp a ↔ touched .rledec s sp a := by
  have hfield := within_add_ite a s.srcp.toNat 1 1 (¬(s.src.byte s.srcp.toNat).toNat < 0x80)
  rw [ite_not] at hfield
  simp only [rledecFootprint, touched, runByte0, lenfieldLong_iff, runBytes, reaches_cons, reaches_append, reaches_ite,
    not_reaches_nil, ← hfield, Nat.pos_iff_ne_zero, Bool.not_eq_true, and_false, or_false, false_or, and_or_left,
    or_assoc, and_left_comm]

/-- The accesses a command checks reach exactly the addresses of its rows of the footprint table. -/
theorem reaches_footprint (i : Instr) : reaches (footprint i s) sp a ↔ touched i s sp a := by
  cases i with
  | init | setsrc | setdst | rdreg => exact iff_of_false (not_reaches_nil sp a) id
  | anlz => exact reaches_anlzFootprint s sp a
  | pack => exact reaches_packFootprint s sp a
  | unpack => exact reaches_unpackFootprint s sp a
  | hdrput => exact reaches_hdrputFootprint s sp a
  | hdrdec => exact reaches_hdrdecFootprint s sp a
  | rle => exact reaches_rleFootprint s sp a
  | rledec => exact reaches_rledecFootprint s sp a
  | rleflush => simp [footprint, touched, length_flushBytes]
  | grpbeg | zzenc | zzdec => simp [footprint, touched, State.headerBytes, State.headerBits, State.blockBytes]

end

/-- Settles O40. -/
theorem footprintMatchesTheTable : Obligations.FootprintMatchesTheTable := by
  unfold Obligations.FootprintMatchesTheTable
  exact fun i s sp a => reaches_footprint s sp a i

end Sys2Proof.Machine
end

section
namespace Sys2Proof.Machine

/-! ## The writes of a command

Every command changes DST by writes that its footprint covers (`effectOf_dstWrites`). What such writes leave unchanged and
that they keep the canonical form is proved once for all commands. -/

/-- The `n` bytes of DST at `a` lie in one access of the footprint `fp`. -/
def coversDst (fp : List Access) (a n : Nat) : Prop :=
  ∃ acc ∈ fp, acc.space = .dst ∧ acc.addr ≤ a ∧ (a + n : Int) ≤ acc.addr + acc.len

/-- An access covers its own bytes. -/
theorem coversDst_of_mem {fp : List Access} {a n : Nat} (h : ⟨.dst, a, n⟩ ∈ fp) : coversDst fp a n :=
  ⟨_, h, rfl, Int.le_refl _, Int.le_refl _⟩

/-- The memories that come from `m` by writes to DST, each covered by an access of the footprint `fp` (R68). -/
inductive DstWrites (fp : List Access) (m : Memory) : Memory → Prop
  | refl : DstWrites fp m m
  | put {m' : Memory} {a : Nat} {bs : List Byte} :
    DstWrites fp m m' → coversDst fp a bs.length → DstWrites fp m (m'.put a bs)

namespace DstWrites

section
variable {fp : List Access} {m m' : Memory} {a n v : Nat}

theorem write (h : DstWrites fp m m') (hc : coversDst fp a n) : DstWrites fp m (m'.write a n v) :=
  h.put (by rwa [length_natToBytes])

theorem or (h : DstWrites fp m m') (hc : coversDst fp a n) : DstWrites fp m (m'.or a n v) :=
  h.write hc

theorem zero (h : DstWrites fp m m') (hc : coversDst fp a n) : DstWrites fp m (m'.zero a n) :=
  h.put (by rwa [List.length_replicate])

theorem memrep {src size : Nat} (h : DstWrites fp m m') (hc : coversDst fp a (n * size)) :
    DstWrites fp m (m'.memrep a src size n) :=
  h.put (by rwa [length_copies, length_bytes])

/-- A loop makes covered writes if each of its rounds does. -/
theorem foldl {α : Type} {f : Memory → α → Memory} {l : List α} (h : DstWrites fp m m')
    (hf : ∀ m', DstWrites fp m m' → ∀ x ∈ l, DstWrites fp m (f m' x)) : DstWrites fp m (l.foldl f m') :=
  List.foldlRecOn l f h hf

theorem size_eq (h : DstWrites fp m m') : m'.size = m.size := by
  induction h with
  | refl => rfl
  | put _ _ ih => exact ih

/-- A byte that no access of the footprint reaches keeps its value. -/
theorem byte_eq (h : DstWrites fp m m') {x : Nat} (hx : ¬reaches fp .dst x) : m'.byte x = m.byte x := by
  induction h with
  | refl => rfl
  | put _ hc ih =>
    obtain ⟨acc, hacc, hsp, hlo, hhi⟩ := hc
    have hout := mt (fun h => ⟨acc, hacc, hsp, h⟩) hx
    rw [byte_put_outside _ (by simp only [within] at hout; omega), ih]

/-- Writes that the windows cover keep the canonical form. -/
theorem wf {s : State} (h : DstWrites fp s.dst m') (hin : fp.all (Access.inWindow s) = true) (hm : s.dst.wf) :
    m'.wf := by
  induction h with
  | refl => exact hm
  | @put m' a bs hw hc ih =>
    obtain ⟨acc, hacc, hsp, hlo, hhi⟩ := hc
    refine put_wf ih ?_
    rw [hw.size_eq]
    rcases (inWindow_iff s acc).1 (List.all_eq_true.1 hin acc hacc) with hlen | ⟨-, hend, -⟩
    · exact .inl (List.eq_nil_of_length_eq_zero (by omega))
    · rw [hsp, space_dst] at hend
      exact .inr (by omega)

end

end DstWrites

/-! ### Each command's writes -/

section
variable (s : State)

theorem grpbeg_dstWrites : DstWrites (footprint .grpbeg s) s.dst (grpbegEffect s).dst :=
  DstWrites.refl.zero (coversDst_of_mem (List.mem_singleton_self _))

theorem hdrput_dstWrites : DstWrites (hdrputFootprint s) s.dst (hdrputDst s) :=
  DstWrites.refl.foldl fun _ h _ hst => h.or (coversDst_of_mem (List.mem_map_of_mem hst))

/-- The accesses of one stripe are part of PACK's footprint (R68). -/
theorem mem_packFootprint {i st : Nat} {acc : Access} (hi : i ∈ List.range 8) (hst : st ∈ List.range s.nstripes)
    (h : acc ∈ packAccess s i st) : acc ∈ packFootprint s :=
  List.mem_cons_of_mem _ (List.mem_flatMap.2 ⟨i, hi, List.mem_flatMap.2 ⟨st, hst, h⟩⟩)

theorem packStripe_dstWrites {m : Memory} {i st : Nat} (hi : i ∈ List.range 8) (hst : st ∈ List.range s.nstripes)
    (h : DstWrites (packFootprint s) s.dst m) : DstWrites (packFootprint s) s.dst (packStripe s i m st) := by
  have h8 : coversDst (packFootprint s) (packAt s i st) 8 :=
    coversDst_of_mem (mem_packFootprint s hi hst (by simp [packAccess]))
  unfold packStripe
  split
  · next hnine => exact (h.or h8).or (coversDst_of_mem (mem_packFootprint s hi hst (by simp [packAccess, hnine])))
  · exact h.or h8

theorem pack_dstWrites : DstWrites (packFootprint s) s.dst (packDst s) :=
  (DstWrites.refl.zero (coversDst_of_mem List.mem_cons_self)).foldl fun _ hrow _ hi =>
    hrow.foldl fun _ h _ hst => packStripe_dstWrites s hi hst h

/-- In rowmajor UNPACK stores each stripe of each row at its access (R178). -/
theorem unpack_dstWrites : DstWrites (unpackFootprint s) s.dst (unpackEffect s).dst := by
  unfold unpackEffect
  split
  · exact .refl
  · next hd =>
    refine DstWrites.refl.foldl fun _ hrow i hi => hrow.foldl fun _ h st hst => h.write (coversDst_of_mem ?_)
    refine List.mem_flatMap.2 ⟨i, hi, List.mem_flatMap.2 ⟨st, List.mem_reverse.1 hst, ?_⟩⟩
    simp [unpackAccess, hd]

/-- Rows as long as the record before them stand for records as long (R215). -/
theorem length_decRows {prev : List Byte} {rows : List (List Byte)} (h : ∀ row ∈ rows, row.length = prev.length) :
    (decRows prev rows).flatten.length = rows.length * prev.length := by
  induction rows generalizing prev with
  | nil => simp [decRows]
  | cons us rows ih =>
    have hlen : (decRow prev us).length = prev.length := by
      simp [decRow, h us List.mem_cons_self]
    have hrows : ∀ row ∈ rows, row.length = (decRow prev us).length := fun row hrow => by
      rw [hlen, h row (List.mem_cons_of_mem _ hrow)]
    rw [decRows, List.flatten_cons, List.length_append, ih hrows, hlen, List.length_cons, Nat.succ_mul, Nat.add_comm]

/-- ZZDEC writes a block: eight records of `D` bytes (R215, R216). -/
theorem length_zzdecRows : (zzdecRows s).flatten.length = s.blockBytes := by
  rw [zzdecRows, length_decRows (by simp [State.bufRows, State.prevRow])]
  simp [State.bufRows, State.prevRow, State.blockBytes]

theorem zzdec_dstWrites : DstWrites (footprint .zzdec s) s.dst (zzdecEffect s).dst :=
  DstWrites.refl.put (coversDst_of_mem (by rw [length_zzdecRows]; exact List.mem_singleton_self _))

/-- Only a CLOSE writes (R222). -/
theorem rle_dstWrites : DstWrites (rleFootprint s) s.dst (rleEffect s).dst := by
  unfold rleFootprint rleEffect
  split
  · exact .refl
  split
  · exact DstWrites.refl.put (coversDst_of_mem (List.mem_singleton_self _))
  · exact .refl

theorem rleflush_dstWrites : DstWrites (footprint .rleflush s) s.dst (rleflushEffect s).dst :=
  DstWrites.refl.put (coversDst_of_mem (List.mem_singleton_self _))

/-- The bytes of a run are one access, written as zeros or as copies of the last record (R228, R229). -/
theorem rledec_dstWrites : DstWrites (rledecFootprint s) s.dst (rledecDst s) := by
  unfold rledecDst
  split
  · exact .refl
  · next hn =>
    have hc : coversDst (rledecFootprint s) s.dstp.toNat (runBytes s) :=
      coversDst_of_mem (by simp [rledecFootprint, hn])
    split
    · exact DstWrites.refl.zero hc
    · exact DstWrites.refl.memrep hc

/-- A command that completes changes DST by writes that its footprint covers. -/
theorem effectOf_dstWrites (i : Instr) : DstWrites (footprint i s) s.dst (effectOf i s).dst := by
  cases i with
  | init | setsrc | setdst | rdreg | anlz | hdrdec | zzenc => exact .refl
  | pack => exact pack_dstWrites s
  | unpack => exact unpack_dstWrites s
  | grpbeg => exact grpbeg_dstWrites s
  | hdrput => exact hdrput_dstWrites s
  | zzdec => exact zzdec_dstWrites s
  | rle => exact rle_dstWrites s
  | rleflush => exact rleflush_dstWrites s
  | rledec => exact rledec_dstWrites s

/-- No command writes SRC (R60). -/
theorem effectOf_src (i : Instr) : (effectOf i s).src = s.src := by
  rw [effectOf_frame]
  cases i <;> rfl

end

/-- Settles O41: a fault leaves both memories alone; the writes of a command that completes are covered by its footprint,
which reaches no address but those of the table. -/
theorem commandsWriteOnlyTheirFootprint : Obligations.CommandsWriteOnlyTheirFootprint := by
  unfold Obligations.CommandsWriteOnlyTheirFootprint
  intro i s t hexec
  rcases exec_cases hexec with ⟨c, rfl⟩ | ⟨-, rfl⟩
  · exact ⟨rfl, rfl, fun _ _ => rfl⟩
  · have hw := effectOf_dstWrites s i
    exact ⟨effectOf_src s i, hw.size_eq, fun x hx => hw.byte_eq (mt (reaches_footprint s .dst x i).1 hx)⟩

/-! ## The canonical form of the memories (R62) -/

/-- The accesses of a command that completes lie in their windows (R141, R279). -/
theorem footprint_inWindow_of_completes {i : Instr} {s : State} (h : completes i s) :
    (footprint i s).all (Access.inWindow s) = true := by
  by_cases hi : alwaysAdmitted i
  · cases i with
    | init | rdreg => rfl
    | _ => exact hi.elim
  · obtain ⟨-, -, -, hfp⟩ := (completes_iff_runs hi).1 h
    exact hfp

/-- A command that completes keeps the canonical form: it leaves SRC alone and writes DST inside its window. -/
theorem memoryInv_effectOf {i : Instr} {s : State} (hcomp : completes i s) (hs : memoryInv s) :
    memoryInv (effectOf i s) := by
  obtain ⟨hsrc, hdst⟩ := hs
  refine ⟨?_, (effectOf_dstWrites s i).wf (footprint_inWindow_of_completes hcomp) hdst⟩
  rw [effectOf_src]
  exact hsrc

/-- Settles O46. -/
theorem memoryInvariantAtReset : Obligations.MemoryInvariantAtReset := by
  unfold Obligations.MemoryInvariantAtReset
  exact ⟨reset_src_wf, reset_dst_wf⟩

/-- Settles O47. A host write puts bytes inside the window, or stops the model; reset, a fault and the bookkeeping of the
host's list leave the memories alone; the commands are `memoryInv_effectOf`. -/
theorem stepKeepsTheMemoryInvariant : Obligations.StepKeepsTheMemoryInvariant := by
  unfold Obligations.StepKeepsTheMemoryInvariant
  intro s t hs hstep
  exact step_preserves (P := memoryInv)
    (haccept := fun _ _ h => h) (hrst := fun _ h => h)
    (hsrc := fun _ _ _ hin ⟨hsrc, hdst⟩ => ⟨put_wf hsrc (.inr hin), hdst⟩)
    (hdst := fun _ _ _ hin ⟨hsrc, hdst⟩ => ⟨hsrc, put_wf hdst (.inr hin)⟩)
    (hraise := fun _ _ h => h)
    (heffect := fun _ _ => memoryInv_effectOf) hs hstep

/-! ## The host's actions (R60, R301) -/

/-- With no action of the host the core waits (R301). -/
theorem step_of_host_nil {s : State} (h : s.host = []) : step s = .next s := by
  rw [step, h]

theorem step_of_host_writeSrc {s : State} {a : Addr} {bs : List Byte} {rest : List HostEvent}
    (h : s.host = .writeSrc a bs :: rest) : step s = (s.accept rest).hostWriteSrc a bs := by
  rw [step, h]

theorem step_of_host_writeDst {s : State} {a : Addr} {bs : List Byte} {rest : List HostEvent}
    (h : s.host = .writeDst a bs :: rest) : step s = (s.accept rest).hostWriteDst a bs := by
  rw [step, h]

/-- Settles O7. -/
theorem hostActsBetweenCommands : Obligations.HostActsBetweenCommands := by
  unfold Obligations.HostActsBetweenCommands
  refine ⟨fun s => step_of_host_nil, fun s a bs rest hhost => ?_, fun s a bs rest hhost => ?_⟩
  · rw [step_of_host_writeSrc hhost]
    rcases hostWriteSrc_cases (s.accept rest) a bs with ⟨hin, heq⟩ | ⟨hout, heq⟩
    · exact ⟨fun _ => ⟨_, heq, rfl, byte_put s.src a.toNat bs⟩, fun h => absurd h (Nat.not_lt.2 hin)⟩
    · exact ⟨fun h => absurd h (Nat.not_le.2 hout), fun _ => heq⟩
  · rw [step_of_host_writeDst hhost]
    rcases hostWriteDst_cases (s.accept rest) a bs with ⟨hin, heq⟩ | ⟨hout, heq⟩
    · exact ⟨fun _ => ⟨_, heq, rfl, byte_put s.dst a.toNat bs⟩, fun h => absurd h (Nat.not_lt.2 hin)⟩
    · exact ⟨fun h => absurd h (Nat.not_le.2 hout), fun _ => heq⟩

end Sys2Proof.Machine
end

section
namespace Sys2Proof.Machine

/-! ## Masks and the bits they select (R130, R131) -/

/-- An extract depends on the bits the mask selects. -/
theorem pext_congr {x y m : Word} (h : ∀ p < 64, m.getLsbD p = true → x.getLsbD p = y.getLsbD p) :
    pext x m = pext y m := by
  have hbits : ((maskPositions m).map fun p => x.getLsbD p) = (maskPositions m).map fun p => y.getLsbD p :=
    List.map_congr_left fun p hp =>
      have ⟨hlt, hbit⟩ := mem_maskPositions.1 hp
      h p hlt hbit
  rw [pext, pext, hbits]

/-- Below a set bit of a mask there are fewer set bits than in the whole mask. -/
theorem rank_lt_popcount {m : Word} {p : Nat} (hp : p < 64) (hbit : m.getLsbD p = true) : rank m p < popcount m := by
  have hnext : rank m (p + 1) = rank m p + 1 := by
    simp [rank, List.range_succ, hbit]
  have hle : rank m (p + 1) ≤ popcount m := ((List.range_sublist.2 hp).filter _).length_le
  omega

/-- A deposit depends on as many low bits as the mask has set bits. -/
theorem pdep_congr {x y m : Word} (h : ∀ k < popcount m, x.getLsbD k = y.getLsbD k) : pdep x m = pdep y m := by
  apply BitVec.eq_of_getLsbD_eq
  intro p hp
  rw [getLsbD_pdep, getLsbD_pdep]
  cases hbit : m.getLsbD p with
  | false => rfl
  | true => rw [h _ (rank_lt_popcount hp hbit)]

/-- A set that holds the first `w j` positions of each byte `j` has as many positions as the `w j` add up to. -/
theorem length_filter_bytes {q : Nat → Bool} {w : Nat → Nat} (hw : ∀ j, w j ≤ 8) {n : Nat}
    (h : ∀ j < n, ∀ k < 8, q (8 * j + k) = decide (k < w j)) :
    ((List.range (8 * n)).filter q).length = ((List.range n).map w).sum := by
  induction n with
  | zero => rfl
  | succ n ih =>
    have hbyte : ∀ v ≤ 8, ((List.range 8).filter fun k => decide (k < v)).length = v := by decide
    have hlast : ((List.range 8).filter (q ∘ (8 * n + ·))).length = w n := by
      rw [← hbyte _ (hw n)]
      exact congrArg _ (List.filter_congr fun k hk => h n n.lt_succ_self k (List.mem_range.1 hk))
    rw [Nat.mul_succ, List.range_add, List.filter_append, List.length_append, List.filter_map, List.length_map, hlast,
      ih fun j hj => h j (Nat.lt_succ_of_lt hj), List.sum_range_succ]

/-! ## What coherent tables say (R163 to R165, R201, R202) -/

theorem bitOff_succ (sbw : List (BitVec 7)) (n : Nat) : bitOff sbw (n + 1) = bitOff sbw n + (sbw.getD n 0).toNat := by
  simp only [bitOff, List.sum_range_succ]

section
variable {d : Nat} {h : List (BitVec 3)} {ws : List (BitVec 4)} {sbw : List (BitVec 7)} {mask : List Word}
  {rowbits : BitVec 20} {rowbytes : BitVec 16} {zb : Bool}

/-- A pad position has width 0. -/
theorem width_of_pad (hc : codesCoherent d h ws sbw mask rowbits rowbytes zb) {j : Nat} (hj : d ≤ j) :
    ws.getD j 0 = 0 := by
  obtain ⟨-, hws, -, -, hpad, hwidth, -⟩ := hc
  by_cases hlt : j < h.length
  · have hzero := hwidth j hlt
    rw [hpad j hlt hj] at hzero
    exact BitVec.eq_of_toNat_eq hzero
  · exact List.getD_eq_default _ _ (by omega)

theorem width_le (hc : codesCoherent d h ws sbw mask rowbits rowbytes zb) (j : Nat) : (ws.getD j 0).toNat ≤ 8 := by
  by_cases hpad : d ≤ j
  · rw [width_of_pad hc hpad]
    exact Nat.zero_le 8
  · obtain ⟨hlen, -, -, -, -, hwidth, -⟩ := hc
    rw [hwidth j (by omega), ← codeWidth_toNat]
    exact codeWidth_le _

variable {st : Nat}

/-- A stripe's mask selects bits of real dimensions only (R164). -/
theorem dim_lt_of_mask (hc : codesCoherent d h ws sbw mask rowbits rowbytes zb) (hst : st < stripesOf d) {p : Nat}
    (hp : p < 64) (hbit : (mask.getD st 0).getLsbD p = true) : 8 * st + p / 8 < d := by
  by_contra hpad
  have hzero := width_of_pad hc (Nat.not_lt.1 hpad)
  obtain ⟨-, -, -, hmask, -, -, -, hbits, -⟩ := hc
  rw [hbits st (by rw [hmask]; exact hst) p hp, hzero] at hbit
  simp at hbit

/-- A stripe's mask has as many set bits as the stripe is wide (R164). -/
theorem popcount_mask (hc : codesCoherent d h ws sbw mask rowbits rowbytes zb) (hst : st < stripesOf d) :
    popcount (mask.getD st 0) = (sbw.getD st 0).toNat := by
  have hle := width_le hc
  obtain ⟨-, -, hsbw, hmask, -, -, hwidth, hbits, -⟩ := hc
  rw [hwidth st (by rw [hsbw]; exact hst)]
  refine length_filter_bytes (w := fun j => (ws.getD (8 * st + j) 0).toNat) (fun j => hle _) (n := 8) fun j hj k hk => ?_
  have hmod : (8 * j + k) % 8 = k := by omega
  have hdiv : (8 * j + k) / 8 = j := by omega
  rw [hbits st (by rw [hmask]; exact hst) _ (by omega), hmod, hdiv]

/-- The stripes before stripe `n` take the bits of the dimensions before it (R171). -/
theorem bitOff_eq_dimOff (hc : codesCoherent d h ws sbw mask rowbits rowbytes zb) {n : Nat} (hn : n ≤ stripesOf d) :
    bitOff sbw n = dimOff ws (8 * n) := by
  obtain ⟨-, -, hsbw, -, -, -, hwidth, -⟩ := hc
  rw [← sum_stripes_eq_dimOff]
  refine congrArg List.sum (List.map_congr_left fun t ht => hwidth t ?_)
  rw [hsbw]
  exact Nat.lt_of_lt_of_le (List.mem_range.1 ht) hn

/-- Every stripe ends within the bytes of the row (R165, R171). -/
theorem stripe_end_le (hc : codesCoherent d h ws sbw mask rowbits rowbytes zb) (hst : st < stripesOf d) :
    bitOff sbw st + (sbw.getD st 0).toNat ≤ 8 * rowbytes.toNat := by
  have hrow : dimOff ws (8 * stripesOf d) = dimOff ws d :=
    dimOff_of_zero_from (le_stripesOf d) fun j hj => width_of_pad hc hj
  have hend := bitOff_eq_dimOff hc hst
  obtain ⟨n, hn⟩ := Nat.exists_eq_add_of_le (Nat.mul_le_mul_left 8 hst)
  rw [hn, dimOff_add, ← hend, bitOff_succ] at hrow
  obtain ⟨-, -, -, -, -, -, -, -, -, hbytes, -⟩ := hc
  omega

end

/-! ## The bits a command takes from SRC -/

section
variable (s : State)

/-- The dimensions of a stripe are dimensions of the record (R9). -/
theorem stripe_dims_le {st : Nat} (hst : st < s.nstripes) : 8 * st + s.nd st ≤ s.D ∧ s.nd st ≤ 8 := by
  have hns : s.nstripes = (s.D + 7) / 8 := rfl
  unfold State.nd
  split <;> omega

/-- The header field of a stripe holds the stream bits from the stripe's cursor on (R93, R199). -/
theorem testBit_headerField {b st p : Nat} (hst : st < s.nstripes) (hp : p < 3 * s.nd st) :
    (headerField s b st).testBit p = s.src.streamBit s.srcp.toNat (getCursor s b st + p) := by
  obtain ⟨-, hnd⟩ := stripe_dims_le s hst
  have haddr : getAt s b st + (getCursor s b st % 8 + p) / 8 = s.srcp.toNat + (getCursor s b st + p) / 8 := by
    rw [getAt]
    omega
  have hbit : (getCursor s b st % 8 + p) % 8 = (getCursor s b st + p) % 8 := by omega
  rw [headerField, Nat.testBit_mod_two_pow, Nat.testBit_shiftRight, testBit_read _ _ (by omega), haddr, hbit]
  simp [hp, Memory.streamBit]

/-- The word PACK takes for a stripe holds the bytes of the stripe's dimensions (R160, R172). -/
theorem getLsbD_packData {i st p : Nat} (hp : p < 64) :
    (packData s i st).getLsbD p = (s.val i (8 * st + p / 8)).getLsbD (p % 8) := by
  have hdim : p / 8 < 8 := by omega
  unfold packData State.val
  rw [BitVec.getLsbD_ofNat]
  cases s.cfgDelta with
  | true => simp [hp, testBit_bytesToNat, List.getD_eq_getElem?_getD, hdim]
  | false => simp [hp, testBit_read, State.srcAt, Nat.add_assoc]

/-- The word UNPACK takes for a stripe holds, below the stripe's width, the bits of the row from the stripe's offset on,
in the 8B and in the 9B variant (R179, R180). -/
theorem getLsbD_unpackBits {i st k : Nat} (hk : k < (s.slot.gsbw.getD st 0).toNat)
    (hwidth : (s.slot.gsbw.getD st 0).toNat ≤ 64) :
    (unpackBits s i st).getLsbD k =
      s.src.streamBit (s.srcp.toNat + i * s.slot.growbytes.toNat) (bitOff s.slot.gsbw st + k) := by
  have hnine := nineBytes_iff s.slot.gsbw st
  have hbit : (bitShift s.slot.gsbw st + k) % 8 = (bitOff s.slot.gsbw st + k) % 8 := by
    rw [bitShift]
    omega
  have haddr : unpackAt s i st + (bitShift s.slot.gsbw st + k) / 8 =
      s.srcp.toNat + i * s.slot.growbytes.toNat + (bitOff s.slot.gsbw st + k) / 8 := by
    rw [unpackAt, byteOff, bitShift]
    omega
  have hshift : bitShift s.slot.gsbw st < 8 := Nat.mod_lt _ (by decide)
  simp only [unpackBits, Memory.streamBit, ← haddr, ← hbit]
  rw [← bitShift] at hnine
  generalize bitShift s.slot.gsbw st = sh at *
  have hlo (hlow : sh + k < 64) : ((BitVec.ofNat 64 (s.src.read (unpackAt s i st) 8)) >>> sh).getLsbD k =
      (s.src.byte (unpackAt s i st + (sh + k) / 8)).getLsbD ((sh + k) % 8) := by
    rw [BitVec.getLsbD_ushiftRight, BitVec.getLsbD_ofNat, testBit_read _ _ (by omega)]
    simp [hlow]
  by_cases hlow : sh + k < 64
  · have hhi : k < 64 - sh := by omega
    rw [← hlo hlow]
    split <;> simp [hhi]
  · have hhi : ¬k < 64 - sh := by omega
    have hspan : nineBytes s.slot.gsbw st = true := hnine.2 (by omega)
    have hbyte : unpackAt s i st + 8 + (k - (64 - sh)) / 8 = unpackAt s i st + (sh + k) / 8 := by omega
    have hmod : (k - (64 - sh)) % 8 = (sh + k) % 8 := by omega
    rw [if_pos hspan, BitVec.getLsbD_or, BitVec.getLsbD_ushiftRight, BitVec.getLsbD_of_ge _ _ (by omega),
      BitVec.getLsbD_shiftLeft, BitVec.getLsbD_ofNat, testBit_read _ _ (by omega), hbyte, hmod]
    have hin : k < 64 := by omega
    have hoff : k - (64 - sh) < 64 := by omega
    simp [hhi, hin, hoff]

end

/-! ## Another SRC

A command in two states that differ in SRC only: what it checks is the same, and its effect is the same when what it takes
from SRC is the same. -/

section
variable {s : State} {m : Memory}

/-- The window check sees the size of SRC only (R279). -/
theorem inWindow_setSrc (hsize : m.size = s.src.size) (acc : Access) :
    acc.inWindow { s with src := m } = acc.inWindow s := by
  have hspace : (({ s with src := m } : State).space acc.space).size = (s.space acc.space).size := by
    cases acc.space with
    | src => exact hsize
    | dst => rfl
  rw [Access.inWindow, Access.inWindow, hspace]

/-- The checks see the size of SRC only (R141). -/
theorem checked_setSrc (hsize : m.size = s.src.size) {modeOk seqOk : Bool} {fp : List Access} {effect effect₂ : State}
    (heffect : s.fault = false → s.cfgd = true → modeOk = true → seqOk = true →
      fp.all (Access.inWindow s) = true → effect₂ = { effect with src := m }) :
    ({ s with src := m } : State).checked modeOk seqOk fp effect₂ =
      { s.checked modeOk seqOk fp effect with src := m } := by
  have hwin : fp.all (Access.inWindow { s with src := m }) = fp.all (Access.inWindow s) :=
    congrArg fp.all (funext (inWindow_setSrc hsize))
  unfold State.checked
  rw [hwin]
  split_ifs with hfault hcfgd hmode hseq hfp
  · rfl
  · rfl
  · rfl
  · rfl
  · rfl
  · exact heffect (by simpa using hfault) (by simpa using hcfgd) (by simpa using hmode) (by simpa using hseq)
      (by simpa using hfp)

/-- A command whose checks do not look at the bytes of SRC runs alike in both states, if its effects are alike. -/
theorem exec_setSrc {i : Instr} {t : State} (hi : ¬alwaysAdmitted i) (hsize : m.size = s.src.size)
    (hmode : modeExists i { s with src := m } ↔ modeExists i s) (hseq : admitted i { s with src := m } ↔ admitted i s)
    (hfp : footprint i { s with src := m } = footprint i s)
    (heffect : runs i s → effectOf i { s with src := m } = { effectOf i s with src := m })
    (hexec : exec i s = .next t) : exec i { s with src := m } = .next { t with src := m } := by
  obtain ⟨modeOk, seqOk, hm, hq, h⟩ := exec_eq_checked s hi
  obtain ⟨modeOk₂, seqOk₂, hm₂, hq₂, h₂⟩ := exec_eq_checked { s with src := m } hi
  obtain rfl : modeOk₂ = modeOk := Bool.eq_iff_iff.2 (by rw [hm, hm₂, hmode])
  obtain rfl : seqOk₂ = seqOk := Bool.eq_iff_iff.2 (by rw [hq, hq₂, hseq])
  obtain rfl := Host.Outcome.next.inj (hexec.symm.trans h)
  rw [h₂, hfp]
  exact congrArg _ (checked_setSrc hsize fun hfault hcfgd hmodeOk hseqOk hin =>
    heffect ⟨⟨hfault, hcfgd⟩, hm.1 hmodeOk, hq.1 hseqOk, hin⟩)

/-! ### HDRDEC (R70, R198) -/

/-- The codes of a slot come from the header bytes. -/
theorem headerCodes_setSrc (hm : ∀ x < s.srcp.toNat + (6 * s.D + 7) / 8, m.byte x = s.src.byte x) {b : Nat}
    (hb : b < 2) : headerCodes { s with src := m } b = headerCodes s b := by
  refine List.flatMap_congr fun st hst => ?_
  have hst' : st < s.nstripes := List.mem_range.1 hst
  have hfield : headerField { s with src := m } b st = headerField s b st := by
    apply Nat.eq_of_testBit_eq
    intro p
    by_cases hp : p < 3 * s.nd st
    · obtain ⟨hdims, -⟩ := stripe_dims_le s hst'
      have hcur : getCursor s b st + p < 6 * s.D := by
        have := Nat.mul_le_mul_right s.D (Nat.le_of_lt_succ hb)
        rw [getCursor, Nat.mul_assoc]
        omega
      have haddr : s.srcp.toNat + (getCursor s b st + p) / 8 < s.srcp.toNat + (6 * s.D + 7) / 8 := by omega
      refine (testBit_headerField { s with src := m } hst' hp).trans ?_
      rw [testBit_headerField s hst' hp]
      exact congrArg (BitVec.getLsbD · _) (hm _ haddr)
    · have hpow := Nat.pow_le_pow_right (n := 2) (by decide) (Nat.not_lt.1 hp)
      rw [Nat.testBit_lt_two_pow (Nat.lt_of_lt_of_le (headerField_lt s b st) hpow),
        Nat.testBit_lt_two_pow (Nat.lt_of_lt_of_le (headerField_lt { s with src := m } b st) hpow)]
  simp only [stripeCodes, hfield]

theorem hdrdecEffect_setSrc (hm : ∀ x < s.srcp.toNat + (6 * s.D + 7) / 8, m.byte x = s.src.byte x) :
    hdrdecEffect { s with src := m } = { hdrdecEffect s with src := m } := by
  simp only [hdrdecEffect, headerCodes_setSrc hm (b := 0) (by decide), headerCodes_setSrc hm (b := 1) (by decide)]
  rfl

/-! ### PACK (R70, R172) -/

/-- The bits PACK keeps of a stripe are bits of the block: the mask drops the over-read. -/
theorem packBits_setSrc (hcoh : s.an.coherent s.D) (hm : ∀ x < s.srcp.toNat + 8 * s.D, m.byte x = s.src.byte x)
    {i st : Nat} (hi : i < 8) (hst : st < s.nstripes) :
    packBits { s with src := m } i st = packBits s i st := by
  refine pext_congr fun p hp hbit => ?_
  have hdim : 8 * st + p / 8 < s.D := dim_lt_of_mask hcoh.1 hst hp hbit
  have hval : State.val { s with src := m } i (8 * st + p / 8) = s.val i (8 * st + p / 8) := by
    have hrow := Nat.mul_le_mul_right s.D (Nat.le_of_lt_succ hi)
    have haddr : s.srcp.toNat + i * s.D + (8 * st + p / 8) < s.srcp.toNat + 8 * s.D := by omega
    have hbyte : State.srcAt { s with src := m } i (8 * st + p / 8) = s.srcAt i (8 * st + p / 8) := hm _ haddr
    rw [State.val, State.val, hbyte]
    rfl
  rw [getLsbD_packData _ hp, getLsbD_packData _ hp, hval]

theorem packDst_setSrc (hcoh : s.an.coherent s.D) (hm : ∀ x < s.srcp.toNat + 8 * s.D, m.byte x = s.src.byte x) :
    packDst { s with src := m } = packDst s := by
  refine List.foldl_ext _ _ _ fun dst i hi => List.foldl_ext _ _ _ fun dst st hst => ?_
  simp only [packStripe, packBits_setSrc hcoh hm (List.mem_range.1 hi) (List.mem_range.1 hst)]
  rfl

theorem packEffect_setSrc (hcoh : s.an.coherent s.D) (hm : ∀ x < s.srcp.toNat + 8 * s.D, m.byte x = s.src.byte x) :
    packEffect { s with src := m } = { packEffect s with src := m } := by
  simp only [packEffect, packDst_setSrc hcoh hm]
  rfl

/-! ### UNPACK (R70, R178) -/

/-- The bits UNPACK deposits come from the body: the mask takes as many as the stripe is wide. -/
theorem unpackWord_setSrc (hcoh : s.slot.coherent s.D)
    (hm : ∀ x < s.srcp.toNat + 8 * s.slot.growbytes.toNat, m.byte x = s.src.byte x)
    {i st : Nat} (hi : i < 8) (hst : st < s.nstripes) :
    unpackWord { s with src := m } i st = unpackWord s i st := by
  have hcount : popcount (s.slot.gmask.getD st 0) = (s.slot.gsbw.getD st 0).toNat := popcount_mask hcoh hst
  have hend := stripe_end_le hcoh hst
  have hrow := Nat.mul_le_mul_right s.slot.growbytes.toNat (Nat.le_of_lt_succ hi)
  refine pdep_congr fun k hk => ?_
  have hk' : k < (s.slot.gsbw.getD st 0).toNat := hk.trans_eq hcount
  have hwidth : (s.slot.gsbw.getD st 0).toNat ≤ 64 := hcount ▸ popcount_le _
  have haddr : s.srcp.toNat + i * s.slot.growbytes.toNat + (bitOff s.slot.gsbw st + k) / 8 <
      s.srcp.toNat + 8 * s.slot.growbytes.toNat := by omega
  refine (getLsbD_unpackBits { s with src := m } hk' hwidth).trans ?_
  rw [getLsbD_unpackBits s hk' hwidth]
  exact congrArg (BitVec.getLsbD · _) (hm _ haddr)

theorem unpackEffect_setSrc (hcoh : s.slot.coherent s.D)
    (hm : ∀ x < s.srcp.toNat + 8 * s.slot.growbytes.toNat, m.byte x = s.src.byte x) :
    unpackEffect { s with src := m } = { unpackEffect s with src := m } := by
  have hbuf : unpackBuf { s with src := m } = unpackBuf s :=
    List.map_congr_left fun i hi => List.flatMap_congr fun st hst => by
      rw [unpackWord_setSrc hcoh hm (List.mem_range.1 hi) (List.mem_range.1 hst)]
  have hdst : unpackDst { s with src := m } = unpackDst s :=
    List.foldl_ext _ _ _ fun _ i hi => List.foldl_ext _ _ _ fun dst st hst =>
      congrArg (fun w : Word => dst.write (s.dstp.toNat + i * s.D + 8 * st) 8 w.toNat)
        (unpackWord_setSrc hcoh hm (List.mem_range.1 hi) (List.mem_range.1 (List.mem_reverse.1 hst)))
  simp only [unpackEffect, hbuf, hdst]
  split <;> rfl

end

/-- In a decoder group the tables of the slot in hand are coherent (R33). -/
theorem slot_coherent {s : State} (h : tablesCoherent s) (hgrp : s.grp = .dec) : s.slot.coherent s.D := by
  obtain ⟨h0, h1⟩ := h.2 hgrp
  unfold State.slot
  split
  · exact h0
  · exact h1

/-- Settles O42: the checks of the three commands do not look at the bytes of SRC, and the masks and the header's length
drop the bytes past the data. -/
theorem overReadBytesNeverShow : Obligations.OverReadBytesNeverShow := by
  unfold Obligations.OverReadBytesNeverShow
  intro i s s₂ t t₂ m limit htab hi hs₂ hsize hm hexec hexec₂
  subst hs₂
  suffices h : exec i { s with src := m } = .next { t with src := m } from
    Host.Outcome.next.inj (hexec₂.symm.trans h)
  rcases hi with ⟨rfl, rfl⟩ | ⟨rfl, rfl⟩ | ⟨rfl, rfl⟩
  · exact exec_setSrc not_false hsize Iff.rfl Iff.rfl rfl (fun _ => hdrdecEffect_setSrc hm) hexec
  · refine exec_setSrc not_false hsize Iff.rfl Iff.rfl rfl (fun hruns => ?_) hexec
    obtain ⟨-, -, hph, -⟩ := hruns
    exact packEffect_setSrc (htab.1 (.inr hph)) hm
  · refine exec_setSrc not_false hsize Iff.rfl Iff.rfl rfl (fun hruns => ?_) hexec
    obtain ⟨-, -, ⟨hgrp, -⟩, -⟩ := hruns
    exact unpackEffect_setSrc (slot_coherent htab hgrp) hm

end Sys2Proof.Machine
end

section
/-! The encoding family (30_encoding.md): what the fields of a command's word hold, said once, and that the decoder, the
encoder and the opcode table each agree with it. -/

namespace Sys2Proof

open Sys2Proof.Machine

/-! ## Fields of a word -/

/-- A word is two parts put together exactly when they are its upper and its lower field. -/
theorem eq_append_iff {m n : Nat} {w : BitVec (m + n)} {x : BitVec m} {y : BitVec n} :
    w = x ++ y ↔ w.extractLsb' n m = x ∧ w.extractLsb' 0 n = y := by
  constructor
  · rintro rfl
    exact ⟨BitVec.extractLsb'_append_eq_left, BitVec.extractLsb'_append_eq_right⟩
  · rintro ⟨rfl, rfl⟩
    exact BitVec.extractLsb'_append_extractLsb'.symm

/-- A mask and a pattern act on the upper and the lower field of a word separately. -/
theorem and_append_eq_iff {m n : Nat} {w : BitVec (m + n)} {a c : BitVec m} {b d : BitVec n} :
    w &&& (a ++ b) = c ++ d ↔ w.extractLsb' n m &&& a = c ∧ w.extractLsb' 0 n &&& b = d := by
  rw [eq_append_iff, BitVec.extractLsb'_and, BitVec.extractLsb'_and, BitVec.extractLsb'_append_eq_left,
    BitVec.extractLsb'_append_eq_right]

/-- A field of a field is a field of the word. -/
theorem extractLsb'_extractLsb' {l s len s' len' : Nat} (w : BitVec l) (h : s' + len' ≤ len) :
    (w.extractLsb' s len).extractLsb' s' len' = w.extractLsb' (s + s') len' := by
  apply BitVec.eq_of_getLsbD_eq
  intro k hk
  have hlt : s' + k < len := by omega
  simp [hk, hlt, Nat.add_assoc]

theorem field_eq_append_iff {l s m n : Nat} {w : BitVec l} {x : BitVec m} {y : BitVec n} :
    w.extractLsb' s (m + n) = x ++ y ↔ w.extractLsb' (s + n) m = x ∧ w.extractLsb' s n = y := by
  rw [eq_append_iff, extractLsb'_extractLsb' w (by omega), extractLsb'_extractLsb' w (by omega), Nat.add_zero]

theorem field_and_append_eq_iff {l s m n : Nat} {w : BitVec l} {a c : BitVec m} {b d : BitVec n} :
    w.extractLsb' s (m + n) &&& (a ++ b) = c ++ d ↔
      w.extractLsb' (s + n) m &&& a = c ∧ w.extractLsb' s n &&& b = d := by
  rw [and_append_eq_iff, extractLsb'_extractLsb' w (by omega), extractLsb'_extractLsb' w (by omega), Nat.add_zero]

/-- A field of one bit holds a Boolean exactly when that bit of the word is the Boolean. -/
theorem extractLsb'_one_eq_ofBool_iff {w : Word} {k : Nat} {b : Bool} :
    w.extractLsb' k 1 = BitVec.ofBool b ↔ w.getLsbD k = b := by
  rw [BitVec.getLsbD_eq_extractLsb']
  generalize w.extractLsb' k 1 = x
  revert x b
  decide

/-! ## What the word of a command holds -/

/-- The opcode of a command (R107). -/
def Instr.opcode : Instr → BitVec 8
  | .init _ _ _ => 0x01
  | .setsrc _ => 0x02
  | .setdst _ => 0x03
  | .rdreg _ => 0x04
  | .anlz => 0x10
  | .pack => 0x20
  | .unpack => 0x21
  | .grpbeg => 0x30
  | .hdrput => 0x31
  | .hdrdec => 0x32
  | .zzenc => 0x40
  | .zzdec => 0x41
  | .rle => 0x50
  | .rleflush => 0x51
  | .rledec => 0x52

/-- The fields above `op` are legal for a command: the reserved bits of its format are 0, and RDREG's index names a
register (R106, R116). -/
def Instr.legalFields (w : Word) : Instr → Prop
  | .init _ _ _ => w.extractLsb' 10 6 = 0 ∧ w.extractLsb' 32 32 = 0
  | .setsrc _ | .setdst _ => flagsField w = 0
  | .rdreg _ => (flagsField w = 0 ∧ w.extractLsb' 24 40 = 0) ∧ (w.extractLsb' 16 8).toNat ≤ maxRegIndex
  | _ => flagsField w = 0 ∧ argField w = 0

/-- The command with its operands read from a word (R106). -/
def Instr.withOperandsOf (w : Word) : Instr → Instr
  | .init _ _ _ => .init (w.extractLsb' 16 16) (w.getLsbD 8) (w.getLsbD 9)
  | .setsrc _ => .setsrc (argField w)
  | .setdst _ => .setdst (argField w)
  | .rdreg _ => .rdreg (w.extractLsb' 16 8)
  | i => i

/-- The word is a legal word of the command's row, and the command's operands are those in the word. -/
def Instr.hasWord (i : Instr) (w : Word) : Prop :=
  opField w = i.opcode ∧ i.legalFields w ∧ i.withOperandsOf w = i

/-- Which operands a command has makes no difference to whether a word of its row is legal. -/
theorem hasWord_withOperandsOf {i : Instr} {w : Word} (hop : opField w = i.opcode) (hlegal : i.legalFields w) :
    (i.withOperandsOf w).hasWord w := by
  cases i <;> exact ⟨hop, hlegal, rfl⟩

/-! ## The encoder -/

theorem eq_encodeA_iff {w : Word} {op : BitVec 8} {a : Addr} :
    w = encodeA op a ↔ opField w = op ∧ flagsField w = 0 ∧ argField w = a := by
  rw [encodeA, eq_append_iff (m := 56) (n := 8), field_eq_append_iff (m := 48) (n := 8)]
  exact ⟨fun ⟨⟨harg, hflags⟩, hop⟩ => ⟨hop, hflags, harg⟩, fun ⟨hop, hflags, harg⟩ => ⟨⟨harg, hflags⟩, hop⟩⟩

theorem eq_encodeN_iff {w : Word} {op : BitVec 8} :
    w = encodeN op ↔ opField w = op ∧ flagsField w = 0 ∧ argField w = 0 :=
  eq_encodeA_iff

theorem eq_encode_init_iff {w : Word} {d : BitVec 16} {delta rle : Bool} :
    w = encode (.init d delta rle) ↔ opField w = 0x01 ∧ (w.extractLsb' 10 6 = 0 ∧ w.extractLsb' 32 32 = 0) ∧
      w.extractLsb' 16 16 = d ∧ w.getLsbD 8 = delta ∧ w.getLsbD 9 = rle := by
  rw [encode, eq_append_iff (m := 56) (n := 8), field_eq_append_iff (m := 55) (n := 1),
    field_eq_append_iff (m := 54) (n := 1), field_eq_append_iff (m := 48) (n := 6),
    field_eq_append_iff (m := 32) (n := 16), extractLsb'_one_eq_ofBool_iff, extractLsb'_one_eq_ofBool_iff]
  exact ⟨fun ⟨⟨⟨⟨⟨hhigh, hd⟩, hlow⟩, hrle⟩, hdelta⟩, hop⟩ => ⟨hop, ⟨hlow, hhigh⟩, hd, hdelta, hrle⟩,
    fun ⟨hop, ⟨hlow, hhigh⟩, hd, hdelta, hrle⟩ => ⟨⟨⟨⟨⟨hhigh, hd⟩, hlow⟩, hrle⟩, hdelta⟩, hop⟩⟩

theorem eq_encode_rdreg_iff {w : Word} {idx : BitVec 8} :
    w = encode (.rdreg idx) ↔
      opField w = 0x04 ∧ (flagsField w = 0 ∧ w.extractLsb' 24 40 = 0) ∧ w.extractLsb' 16 8 = idx := by
  rw [encode, eq_append_iff (m := 56) (n := 8), field_eq_append_iff (m := 48) (n := 8),
    field_eq_append_iff (m := 40) (n := 8)]
  exact ⟨fun ⟨⟨⟨hhigh, hidx⟩, hflags⟩, hop⟩ => ⟨hop, ⟨hflags, hhigh⟩, hidx⟩,
    fun ⟨hop, ⟨hflags, hhigh⟩, hidx⟩ => ⟨⟨⟨hhigh, hidx⟩, hflags⟩, hop⟩⟩

/-- The encoder puts each field where R106 has it. -/
theorem hasWord_iff_encode {i : Instr} {w : Word} : i.hasWord w ↔ i.wellFormed = true ∧ w = encode i := by
  unfold Instr.hasWord
  cases i with
  | init => simp [Instr.wellFormed, eq_encode_init_iff, Instr.legalFields, Instr.withOperandsOf, Instr.opcode]
  | setsrc | setdst =>
    simp [Instr.wellFormed, encode, eq_encodeA_iff, Instr.legalFields, Instr.withOperandsOf, Instr.opcode]
  | rdreg idx =>
    rw [eq_encode_rdreg_iff]
    constructor
    · rintro ⟨hop, ⟨hzero, hle⟩, hidx⟩
      obtain rfl := Instr.rdreg.inj hidx
      exact ⟨decide_eq_true hle, hop, hzero, rfl⟩
    · rintro ⟨hle, hop, hzero, rfl⟩
      exact ⟨hop, ⟨hzero, of_decide_eq_true hle⟩, rfl⟩
  | _ => exact (and_congr_right fun _ => and_iff_left rfl).trans (eq_encodeN_iff.symm.trans (and_iff_right rfl).symm)

/-! ## The decoder -/

/-- The decoder of a command's format, for the words of its row (R106). -/
def Instr.decodeRow (w : Word) : Instr → Except DecodeError Instr
  | .init _ _ _ => decodeC w
  | .setsrc _ => decodeA w .setsrc
  | .setdst _ => decodeA w .setdst
  | .rdreg _ => decodeR w
  | i => decodeN w i

/-- A check that refuses a word lets a command through exactly when it passes and the rest does. -/
theorem check_eq_ok_iff {p : Prop} [Decidable p] {x : Except DecodeError Instr} {e : DecodeError} {j : Instr} :
    (if p then x else .error e) = .ok j ↔ p ∧ x = .ok j := by
  by_cases hp : p <;> simp [hp]

/-- Each format's decoder accepts the words with legal fields and reads the operands from them. -/
theorem decodeRow_eq_ok_iff {i j : Instr} {w : Word} :
    i.decodeRow w = .ok j ↔ i.legalFields w ∧ i.withOperandsOf w = j := by
  cases i with
  | init => simp only [Instr.decodeRow, decodeC, check_eq_ok_iff, Except.ok.injEq]; rfl
  | setsrc | setdst => simp only [Instr.decodeRow, decodeA, check_eq_ok_iff, Except.ok.injEq]; rfl
  | rdreg => simp only [Instr.decodeRow, decodeR, check_eq_ok_iff, Except.ok.injEq, ← and_assoc]; rfl
  | _ => simp only [Instr.decodeRow, decodeN, check_eq_ok_iff, Except.ok.injEq]; rfl

/-- A word with the opcode of a command is decoded by the decoder of the command's format. -/
theorem decode_of_opcode {i : Instr} {w : Word} (h : opField w = i.opcode) : decode w = i.decodeRow w := by
  unfold decode
  rw [h]
  cases i <;> rfl

/-- A word that decodes has the opcode of a command (R107). -/
theorem opcode_of_decode {i : Instr} {w : Word} (h : decode w = .ok i) : ∃ j : Instr, opField w = j.opcode := by
  unfold decode at h
  split at h
  · next hop => exact ⟨.init 0 false false, BitVec.eq_of_toNat_eq hop⟩
  · next hop => exact ⟨.setsrc 0, BitVec.eq_of_toNat_eq hop⟩
  · next hop => exact ⟨.setdst 0, BitVec.eq_of_toNat_eq hop⟩
  · next hop => exact ⟨.rdreg 0, BitVec.eq_of_toNat_eq hop⟩
  · next hop => exact ⟨.anlz, BitVec.eq_of_toNat_eq hop⟩
  · next hop => exact ⟨.pack, BitVec.eq_of_toNat_eq hop⟩
  · next hop => exact ⟨.unpack, BitVec.eq_of_toNat_eq hop⟩
  · next hop => exact ⟨.grpbeg, BitVec.eq_of_toNat_eq hop⟩
  · next hop => exact ⟨.hdrput, BitVec.eq_of_toNat_eq hop⟩
  · next hop => exact ⟨.hdrdec, BitVec.eq_of_toNat_eq hop⟩
  · next hop => exact ⟨.zzenc, BitVec.eq_of_toNat_eq hop⟩
  · next hop => exact ⟨.zzdec, BitVec.eq_of_toNat_eq hop⟩
  · next hop => exact ⟨.rle, BitVec.eq_of_toNat_eq hop⟩
  · next hop => exact ⟨.rleflush, BitVec.eq_of_toNat_eq hop⟩
  · next hop => exact ⟨.rledec, BitVec.eq_of_toNat_eq hop⟩
  · cases h

/-- The decoder answers a command exactly for its words. -/
theorem decode_eq_ok_iff {i : Instr} {w : Word} : decode w = .ok i ↔ i.hasWord w := by
  constructor
  · intro h
    obtain ⟨j, hop⟩ := opcode_of_decode h
    obtain ⟨hlegal, rfl⟩ := decodeRow_eq_ok_iff.1 ((decode_of_opcode hop).symm.trans h)
    exact hasWord_withOperandsOf hop hlegal
  · rintro ⟨hop, hfields⟩
    exact (decode_of_opcode hop).trans (decodeRow_eq_ok_iff.2 hfields)

/-- Settles O1: the word of a well-formed command holds that command's fields, and the decoder reads them. -/
theorem decodeOfEncode : Obligations.DecodeOfEncode := by
  unfold Obligations.DecodeOfEncode
  intro i hi
  exact decode_eq_ok_iff.2 (hasWord_iff_encode.2 ⟨hi, rfl⟩)

/-- Settles O2: the fields that the decoder reads and checks are the whole word. -/
theorem encodeOfDecode : Obligations.EncodeOfDecode := by
  unfold Obligations.EncodeOfDecode
  intro w i h
  obtain ⟨hi, hw⟩ := hasWord_iff_encode.1 (decode_eq_ok_iff.1 h)
  exact ⟨hi, hw.symm⟩

/-! ## The opcode table -/

/-- The name of a command's row of the opcode table. -/
def Instr.mnemonic : Instr → String
  | .init _ _ _ => "INIT"
  | .setsrc _ => "SETSRC"
  | .setdst _ => "SETDST"
  | .rdreg _ => "RDREG"
  | .anlz => "ANLZ"
  | .pack => "PACK"
  | .unpack => "UNPACK"
  | .grpbeg => "GRPBEG"
  | .hdrput => "HDRPUT"
  | .hdrdec => "HDRDEC"
  | .zzenc => "ZZENC"
  | .zzdec => "ZZDEC"
  | .rle => "RLE"
  | .rleflush => "RLEFLUSH"
  | .rledec => "RLEDEC"

/-- The bits of a command's word that hold no operand (R106). -/
def Instr.mask : Instr → Word
  | .init _ _ _ => 0xffffffff0000fcff
  | .setsrc _ | .setdst _ => 0xffff
  | .rdreg _ => 0xffffffffff00ffff
  | _ => 0xffffffffffffffff

/-- The row of the opcode table that a command belongs to. -/
def Instr.row (i : Instr) : OpcodeRow := ⟨i.mnemonic, i.mask, i.opcode.setWidth 64⟩

/-- The rows of the opcode table are the rows of the commands. -/
theorem mem_opcodeTable_iff {row : OpcodeRow} : row ∈ opcodeTable ↔ ∃ i : Instr, i.row = row := by
  constructor
  · revert row
    simp only [opcodeTable, List.forall_mem_cons]
    exact ⟨⟨.init 0 false false, rfl⟩, ⟨.setsrc 0, rfl⟩, ⟨.setdst 0, rfl⟩, ⟨.rdreg 0, rfl⟩, ⟨.anlz, rfl⟩, ⟨.pack, rfl⟩,
      ⟨.unpack, rfl⟩, ⟨.grpbeg, rfl⟩, ⟨.hdrput, rfl⟩, ⟨.hdrdec, rfl⟩, ⟨.zzenc, rfl⟩, ⟨.zzdec, rfl⟩, ⟨.rle, rfl⟩,
      ⟨.rleflush, rfl⟩, ⟨.rledec, rfl⟩, nofun⟩
  · rintro ⟨i, rfl⟩
    cases i <;> simp [opcodeTable, Instr.row, Instr.mnemonic, Instr.mask, Instr.opcode]

theorem and_maskN_iff {w : Word} {op : BitVec 8} :
    w &&& 0xffffffffffffffff = op.setWidth 64 ↔ opField w = op ∧ flagsField w = 0 ∧ argField w = 0 := by
  have hmask : w &&& 0xffffffffffffffff = w := BitVec.and_allOnes
  have hpat : op.setWidth 64 = encodeN op := BitVec.setWidth_eq_append (by decide)
  rw [hmask, hpat, eq_encodeN_iff]

theorem and_maskA_iff {w : Word} {op : BitVec 8} :
    w &&& 0xffff = op.setWidth 64 ↔ opField w = op ∧ flagsField w = 0 := by
  have hmask : (0xffff : Word) = 0#48 ++ BitVec.allOnes 8 ++ BitVec.allOnes 8 := by decide
  have hpat : op.setWidth 64 = 0#48 ++ 0#8 ++ op := BitVec.setWidth_eq_append (by decide)
  rw [hmask, hpat, and_append_eq_iff (m := 56) (n := 8), field_and_append_eq_iff (m := 48) (n := 8)]
  simp only [BitVec.and_zero, BitVec.and_allOnes, true_and]
  exact and_comm

theorem and_maskR_iff {w : Word} {op : BitVec 8} :
    w &&& 0xffffffffff00ffff = op.setWidth 64 ↔ opField w = op ∧ flagsField w = 0 ∧ w.extractLsb' 24 40 = 0 := by
  have hmask : (0xffffffffff00ffff : Word) =
      BitVec.allOnes 40 ++ 0#8 ++ BitVec.allOnes 8 ++ BitVec.allOnes 8 := by decide
  have hpat : op.setWidth 64 = 0#40 ++ 0#8 ++ 0#8 ++ op := BitVec.setWidth_eq_append (by decide)
  rw [hmask, hpat, and_append_eq_iff (m := 56) (n := 8), field_and_append_eq_iff (m := 48) (n := 8),
    field_and_append_eq_iff (m := 40) (n := 8)]
  simp only [BitVec.and_zero, BitVec.and_allOnes, and_true]
  exact ⟨fun ⟨⟨hhigh, hflags⟩, hop⟩ => ⟨hop, hflags, hhigh⟩, fun ⟨hop, hflags, hhigh⟩ => ⟨⟨hhigh, hflags⟩, hop⟩⟩

theorem and_maskC_iff {w : Word} {op : BitVec 8} :
    w &&& 0xffffffff0000fcff = op.setWidth 64 ↔
      opField w = op ∧ w.extractLsb' 10 6 = 0 ∧ w.extractLsb' 32 32 = 0 := by
  have hmask : (0xffffffff0000fcff : Word) =
      BitVec.allOnes 32 ++ 0#16 ++ BitVec.allOnes 6 ++ 0#2 ++ BitVec.allOnes 8 := by decide
  have hpat : op.setWidth 64 = 0#32 ++ 0#16 ++ 0#6 ++ 0#2 ++ op := BitVec.setWidth_eq_append (by decide)
  rw [hmask, hpat, and_append_eq_iff (m := 56) (n := 8), field_and_append_eq_iff (m := 54) (n := 2),
    field_and_append_eq_iff (m := 48) (n := 6), field_and_append_eq_iff (m := 32) (n := 16)]
  simp only [BitVec.and_zero, BitVec.and_allOnes, and_true]
  exact ⟨fun ⟨⟨hhigh, hlow⟩, hop⟩ => ⟨hop, hlow, hhigh⟩, fun ⟨hop, hlow, hhigh⟩ => ⟨⟨hhigh, hlow⟩, hop⟩⟩

/-- The index field of RDREG in plain arithmetic (R106). -/
theorem toNat_indexField (w : Word) : (w.extractLsb' 16 8).toNat = w.toNat / 65536 % 256 := by
  rw [BitVec.extractLsb'_toNat, Nat.shiftRight_eq_div_pow]

theorem mnemonic_ne_rdreg {i : Instr} (h : ∀ idx, i ≠ .rdreg idx) : i.mnemonic ≠ "RDREG" := by
  cases i with
  | rdreg idx => exact absurd rfl (h idx)
  | _ => simp [Instr.mnemonic]

/-- The words a row of the table admits are those with its opcode and legal fields (R106, R116). -/
theorem row_matches_iff {i : Instr} {w : Word} :
    (w &&& i.row.mask = i.row.pattern ∧ (i.row.mnemonic = "RDREG" → w.toNat / 65536 % 256 ≤ 10)) ↔
      opField w = i.opcode ∧ i.legalFields w := by
  have mask_only (h : ∀ idx, i ≠ .rdreg idx) :
      (w &&& i.row.mask = i.row.pattern ∧ (i.row.mnemonic = "RDREG" → w.toNat / 65536 % 256 ≤ 10)) ↔
        w &&& i.mask = i.opcode.setWidth 64 :=
    and_iff_left fun hname => absurd hname (mnemonic_ne_rdreg h)
  cases i with
  | init => exact (mask_only nofun).trans and_maskC_iff
  | setsrc | setdst => exact (mask_only nofun).trans and_maskA_iff
  | rdreg =>
    rw [← toNat_indexField]
    exact (and_congr and_maskR_iff (imp_iff_right rfl)).trans and_assoc
  | _ => exact (mask_only nofun).trans and_maskN_iff

theorem legalWord_iff {w : Word} : legalWord w ↔ ∃ i : Instr, opField w = i.opcode ∧ i.legalFields w := by
  constructor
  · rintro ⟨row, hrow, hmatch⟩
    obtain ⟨i, rfl⟩ := mem_opcodeTable_iff.1 hrow
    exact ⟨i, row_matches_iff.1 hmatch⟩
  · rintro ⟨i, hi⟩
    exact ⟨i.row, mem_opcodeTable_iff.2 ⟨i, rfl⟩, row_matches_iff.2 hi⟩

/-- Settles O3: decoder and table ask for the opcode of a command and legal fields, and for nothing else. -/
theorem decoderAcceptsExactlyTheOpcodeTable : Obligations.DecoderAcceptsExactlyTheOpcodeTable := by
  unfold Obligations.DecoderAcceptsExactlyTheOpcodeTable
  intro w
  rw [legalWord_iff]
  constructor
  · rintro ⟨i, h⟩
    obtain ⟨hop, hlegal, -⟩ := decode_eq_ok_iff.1 h
    exact ⟨i, hop, hlegal⟩
  · rintro ⟨i, hop, hlegal⟩
    exact ⟨_, decode_eq_ok_iff.2 (hasWord_withOperandsOf hop hlegal)⟩

/-- Settles O4: each word is the encoding of its command. -/
theorem sampleWordsDecode : Obligations.SampleWordsDecode := by
  unfold Obligations.SampleWordsDecode
  exact ⟨decodeOfEncode (.init 1023 true true) rfl, decodeOfEncode (.init 2 false false) rfl,
    decodeOfEncode (.init 3 true false) rfl, decodeOfEncode (.setsrc 0xffffffffffff) rfl,
    decodeOfEncode (.setdst 8) rfl, decodeOfEncode (.rdreg 10) rfl, decodeOfEncode .anlz rfl,
    decodeOfEncode .pack rfl, decodeOfEncode .unpack rfl, decodeOfEncode .grpbeg rfl, decodeOfEncode .hdrput rfl,
    decodeOfEncode .hdrdec rfl, decodeOfEncode .zzenc rfl, decodeOfEncode .zzdec rfl, decodeOfEncode .rle rfl,
    decodeOfEncode .rleflush rfl, decodeOfEncode .rledec rfl⟩

end Sys2Proof
end

section
/-! The primitives (40_primitives_control.md part 1): extract and deposit undo each other, and so do zig-zag encode and
decode. -/

namespace Sys2Proof.Machine

/-! ## Rank and position (R130, R131) -/

/-- The set position of rank `rank m p` is `p`: ranks count the set positions in order. -/
theorem maskPositions_rank {m : Word} {p : Nat} (hp : p < 64) (hbit : m.getLsbD p = true) :
    (maskPositions m)[rank m p]? = some p := by
  have hsplit : List.range 64 = List.range p ++ p :: (List.range (63 - p)).map (p + 1 + ·) := by
    rw [show 64 = p + 1 + (63 - p) by omega, List.range_add, List.range_succ, List.append_assoc]
    simp
  rw [maskPositions, hsplit, List.filter_append, List.filter_cons_of_pos hbit, rank,
    List.getElem?_append_right (Nat.le_refl _), Nat.sub_self, List.getElem?_cons_zero]

/-- Every number below the count of set bits is the rank of a set bit. -/
theorem exists_rank_eq {m : Word} {k : Nat} (hk : k < popcount m) :
    ∃ p < 64, m.getLsbD p = true ∧ rank m p = k := by
  obtain ⟨hp, hbit⟩ := mem_maskPositions.1 (List.getElem_mem hk)
  refine ⟨(maskPositions m)[k], hp, hbit, ?_⟩
  have hnodup : (maskPositions m).Nodup := List.nodup_range.filter _
  have hat := maskPositions_rank hp hbit
  obtain ⟨hlt, heq⟩ := List.getElem?_eq_some_iff.1 hat
  exact hnodup.getElem_inj_iff.1 heq

/-- An extract puts the bit at a set position of the mask at the position's rank (R130). -/
theorem getLsbD_pext_rank {x m : Word} {p : Nat} (hp : p < 64) (hbit : m.getLsbD p = true) :
    (pext x m).getLsbD (rank m p) = x.getLsbD p := by
  simp [getLsbD_pext, List.getD_eq_getElem?_getD, maskPositions_rank hp hbit]

/-- An extract has no bits past the count of the mask's set bits (R130). -/
theorem getLsbD_pext_of_popcount_le {x m : Word} {k : Nat} (hk : popcount m ≤ k) : (pext x m).getLsbD k = false := by
  rw [getLsbD_pext, List.getD_eq_default]
  rwa [List.length_map]

/-- Extracting what was deposited keeps as many low bits as the mask has set bits. -/
theorem toNat_pext_pdep (x m : Word) : (pext (pdep x m) m).toNat = x.toNat % 2 ^ popcount m := by
  apply Nat.eq_of_testBit_eq
  intro k
  rw [BitVec.testBit_toNat, Nat.testBit_mod_two_pow, BitVec.testBit_toNat]
  by_cases hk : k < popcount m
  · obtain ⟨p, hp, hbit, rfl⟩ := exists_rank_eq hk
    simp [getLsbD_pext_rank hp hbit, getLsbD_pdep, hbit, hk]
  · simp [getLsbD_pext_of_popcount_le (Nat.le_of_not_lt hk), hk]

/-- Depositing what was extracted keeps the bits the mask selects. -/
theorem pdep_pext (x m : Word) : pdep (pext x m) m = x &&& m := by
  apply BitVec.eq_of_getLsbD_eq
  intro p hp
  rw [getLsbD_pdep, BitVec.getLsbD_and]
  cases hbit : m.getLsbD p with
  | false => simp
  | true => simp [getLsbD_pext_rank hp hbit]

/-- Settles O26. -/
theorem extractDepositLaws : Obligations.ExtractDepositLaws := by
  unfold Obligations.ExtractDepositLaws
  exact fun x m => ⟨toNat_pext_pdep x m, pdep_pext x m⟩

/-! ## Zig-zag by the sign of a byte (R132, R133) -/

/-- Encode by sign: a byte below `0x80` is doubled, any other is doubled and complemented. -/
theorem zz_eq_ite (b : Byte) : zz b = if b.toNat < 0x80 then b <<< 1 else ~~~(b <<< 1) := by
  have hsign : b.sshiftRight 7 = if b.toNat < 0x80 then 0#8 else BitVec.allOnes 8 := by revert b; decide
  rw [zz, hsign]
  split
  · exact BitVec.xor_zero
  · exact BitVec.xor_allOnes

/-- Decode by parity: an even byte is halved, an odd one is halved and complemented. -/
theorem unzz_eq_ite (u : Byte) : unzz u = if u.toNat % 2 = 0 then u >>> 1 else ~~~(u >>> 1) := by
  have hparity : -(u &&& 1) = if u.toNat % 2 = 0 then 0#8 else BitVec.allOnes 8 := by revert u; decide
  rw [unzz, hparity]
  split
  · exact BitVec.xor_zero
  · exact BitVec.xor_allOnes

/-- The value of zig-zag encode (R132). -/
theorem toNat_zz (b : Byte) : (zz b).toNat = if b.toNat < 0x80 then 2 * b.toNat else 2 * (255 - b.toNat) + 1 := by
  rw [zz_eq_ite]
  split <;> bv_omega

/-- The value of zig-zag decode (R133). -/
theorem toNat_unzz (u : Byte) : (unzz u).toNat = if u.toNat % 2 = 0 then u.toNat / 2 else 255 - u.toNat / 2 := by
  rw [unzz_eq_ite]
  split <;> bv_omega

theorem unzz_zz (x : Byte) : unzz (zz x) = x := by
  apply BitVec.eq_of_toNat_eq
  rw [toNat_unzz, toNat_zz]
  split_ifs <;> omega

theorem zz_unzz (u : Byte) : zz (unzz u) = u := by
  apply BitVec.eq_of_toNat_eq
  rw [toNat_zz, toNat_unzz]
  split_ifs <;> omega

/-- Settles O27: on the values, encode doubles up to a complement and decode halves up to a complement. -/
theorem zigzagIsABijection : Obligations.ZigzagIsABijection := by
  unfold Obligations.ZigzagIsABijection
  exact ⟨toNat_zz, unzz_zz, zz_unzz⟩

end Sys2Proof.Machine
end

section
/-! The control commands and the check order (40_primitives_control.md part 2, R141). -/

namespace Sys2Proof.Machine

/-! ## The response a command leaves (R112, R276) -/

/-- A fault as the model takes it is the fault the claims speak of. -/
theorem raise_eq_faulted (s : State) (c : FaultCode) : s.raise c = faulted s c.code := by
  rw [State.raise, rspWord_fault]
  rfl

/-- A command's effect ends with the response OK. -/
theorem effectOf_respond (i : Instr) (s : State) : ∃ t o v, effectOf i s = State.respond t o v := by
  cases i with
  | rle =>
    simp only [effectOf, rleEffect]
    split
    · exact ⟨_, _, _, rfl⟩
    split
    · exact ⟨_, _, _, rfl⟩
    · exact ⟨_, _, _, rfl⟩
  | _ => exact ⟨_, _, _, rfl⟩

/-- The response of a command that completes has status 0 (R112). -/
theorem effectOf_rsp (i : Instr) (s : State) : ∃ r : Word, (effectOf i s).rsp = some r ∧ r.toNat % 256 = 0 := by
  obtain ⟨t, o, v, heq⟩ := effectOf_respond i s
  refine ⟨rspWord 0 o.code v, by rw [heq, respond_rsp], ?_⟩
  have hstatus : (0 : BitVec 8).toNat = 0 := rfl
  rw [rspWord_toNat, hstatus]
  omega

/-! ## The check order of a command that is neither INIT nor RDREG (R141) -/

/-- An access lies in its window exactly when each of its addresses does (R62, R279). -/
theorem inWindow_iff_forall (s : State) (acc : Access) :
    acc.inWindow s = true ↔ ∀ a, within a acc.addr acc.len → ¬outsideWindow s acc.space a := by
  rw [inWindow_iff]
  constructor
  · intro h a ha
    simp only [within, outsideWindow] at ha ⊢
    omega
  · intro h
    by_cases hlen : acc.len = 0
    · exact .inl hlen
    · have hfirst := h acc.addr ⟨by omega, by omega⟩
      have hlast := h (acc.addr + acc.len - 1) ⟨by omega, by omega⟩
      simp only [outsideWindow] at hfirst hlast
      omega

/-- The window check of a command fails exactly when an address of its footprint's rows lies outside its window (R68,
R279). -/
theorem footprint_outside_iff (i : Instr) (s : State) :
    (footprint i s).all (Access.inWindow s) = false ↔ ∃ sp a, touched i s sp a ∧ outsideWindow s sp a := by
  simp only [← Bool.not_eq_true, List.all_eq_true, inWindow_iff_forall, ← reaches_footprint]
  push Not
  constructor
  · rintro ⟨acc, hacc, a, ha, hout⟩
    exact ⟨acc.space, a, ⟨acc, hacc, rfl, ha⟩, hout⟩
  · rintro ⟨sp, a, ⟨acc, hacc, rfl, ha⟩, hout⟩
    exact ⟨acc, hacc, a, ha, hout⟩

section
variable {i : Instr} {s : State} (hi : ¬alwaysAdmitted i)
include hi

open Classical in
/-- The checks 2 to 5 and 7 of R141 in their order, by the tables they test, then the command's effect. -/
theorem exec_eq_ite :
    exec i s = .next
      (if s.fault = true then faulted s 2
       else if s.cfgd = false then faulted s 3
       else if ¬modeExists i s then faulted s 4
       else if ¬admitted i s then faulted s 5
       else if ∃ sp a, touched i s sp a ∧ outsideWindow s sp a then faulted s 8
       else effectOf i s) := by
  obtain ⟨modeOk, seqOk, hm, hq, hexec⟩ := exec_eq_checked s hi
  simp only [hexec, State.checked, raise_eq_faulted, FaultCode.code, Bool.not_eq_true', ← footprint_outside_iff, ← hm,
    ← hq, Bool.not_eq_true]

theorem exec_of_mode_missing (hready : ready s) (hmode : ¬modeExists i s) : exec i s = .next (faulted s 4) := by
  simp [exec_eq_ite hi, hready, hmode]

theorem exec_of_not_admitted (hready : ready s) (hmode : modeExists i s) (hseq : ¬admitted i s) :
    exec i s = .next (faulted s 5) := by
  simp [exec_eq_ite hi, hready, hmode, hseq]

theorem exec_of_outside (hready : ready s) (hmode : modeExists i s) (hseq : admitted i s)
    (hout : ∃ sp a, touched i s sp a ∧ outsideWindow s sp a) : exec i s = .next (faulted s 8) := by
  rw [exec_eq_ite hi, if_neg (by simp [hready]), if_neg (by simp [hready]), if_neg (not_not.2 hmode),
    if_neg (not_not.2 hseq), if_pos hout]

end

/-- Settles O36: the clauses are the branches of the check order, and every effect ends with the response OK. -/
theorem firstFailingCheckDecides : Obligations.FirstFailingCheckDecides := by
  unfold Obligations.FirstFailingCheckDecides
  intro i s hi
  refine ⟨fun hfault => ?faulted, fun hfault hcfgd => ?unconfigured, exec_of_mode_missing hi, exec_of_not_admitted hi,
    exec_of_outside hi, fun hready hmode hseq hin => ?pass⟩
  case faulted => simp [exec_eq_ite hi, hfault]
  case unconfigured => simp [exec_eq_ite hi, hfault, hcfgd]
  case pass =>
    have hfp : (footprint i s).all (Access.inWindow s) = true :=
      Bool.of_not_eq_false fun h =>
        have ⟨sp, a, htouched, hout⟩ := (footprint_outside_iff i s).1 h
        hin sp a htouched hout
    obtain ⟨r, hr, hstatus⟩ := effectOf_rsp i s
    exact ⟨_, r, exec_of_runs hi ⟨hready, hmode, hseq, hfp⟩, hr, hstatus⟩

/-! ## INIT (R143, R280) -/

/-- The operand checks of INIT in their order, then its effect. -/
theorem exec_init (s : State) (d : BitVec 16) (delta rle : Bool) :
    exec (.init d delta rle) s = .next
      (if rle = true ∧ delta = false then faulted s 4
       else if d.toNat = 0 then faulted s 6
       else if rle = true ∧ 1024 ≤ d.toNat then faulted s 7
       else effectOf (.init d delta rle) s) := by
  have hdim : d = 0 ↔ d.toNat = 0 := BitVec.toNat_inj.symm
  simp only [exec, execInit, hdim, raise_eq_faulted, Bool.and_eq_true, Bool.not_eq_true', decide_eq_true_eq]
  rfl

/-- Settles O10, check by check. -/
theorem initChecksThenConfigures : Obligations.InitChecksThenConfigures := by
  unfold Obligations.InitChecksThenConfigures
  intro s d delta rle
  rw [exec_init]
  split
  · rfl
  split
  · rfl
  split
  · rfl
  · exact ⟨_, rfl, registersCleared_configure s d delta rle, rfl, rfl, rfl, rfl, rfl, rfl, rfl, rfl, rfl, rfl⟩

/-! ## SETSRC and SETDST (R144, R145) -/

/-- Settles O11: both commands run every check of R141 with an empty footprint, admitted in phase IDLE. -/
theorem setCursorCommands : Obligations.SetCursorCommands := by
  unfold Obligations.SetCursorCommands
  intro s a hready
  constructor
  · intro hidle
    exact ⟨exec_of_runs id ⟨hready, trivial, hidle, rfl⟩, exec_of_runs id ⟨hready, trivial, hidle, rfl⟩⟩
  · intro hbusy
    exact ⟨exec_of_not_admitted id hready trivial hbusy, exec_of_not_admitted id hready trivial hbusy⟩

/-! ## RDREG (R37, R146) -/

/-- A concatenation as a sum. -/
theorem toNat_append_eq_add {n k : Nat} (x : BitVec n) (y : BitVec k) :
    (x ++ y).toNat = y.toNat + 2 ^ k * x.toNat := by
  rw [BitVec.toNat_append, ← Nat.shiftLeft_add_eq_or_of_lt y.isLt, Nat.shiftLeft_eq, Nat.add_comm, Nat.mul_comm]

/-- The number of STATUS by the codes that its fields `GRP` and `PH` hold (R23, R27). -/
theorem statusNat_eq_codes (s : State) :
    statusNat s = s.cfgd.toNat + 2 * s.fault.toNat + 4 * s.an.zb.toNat + 8 * s.first.toNat +
      16 * s.grp.code.toNat + 64 * s.ph.code.toNat + 512 * s.g0.zbs.toNat + 1024 * s.g1.zbs.toNat := by
  rw [statusNat]
  cases s.grp <;> cases s.ph <;> rfl

/-- STATUS as a number, field by field (R23). -/
theorem statusWord_toNat (s : State) : (statusWord s).toNat = statusNat s := by
  simp only [statusWord, statusNat_eq_codes, toNat_append_eq_add, BitVec.toNat_ofBool, BitVec.toNat_zero]
  omega

/-- CFG as a number (R22). -/
theorem cfgWord_toNat (s : State) :
    (cfgWord s).toNat = s.cfgD.toNat + 65536 * s.cfgDelta.toNat + 131072 * s.cfgRle.toNat := by
  simp only [cfgWord, toNat_append_eq_add, BitVec.toNat_ofBool, BitVec.toNat_zero]
  omega

/-- The register an index up to 10 reads is the one the register table R37 names. -/
theorem readReg_of_le {s : State} {idx : BitVec 8} (h : idx.toNat ≤ 10) :
    ∃ v, s.readReg idx = some v ∧ v.toNat = regNat s idx.toNat := by
  simp only [State.readReg]
  generalize idx.toNat = n at h ⊢
  match n, h with
  | 0, _ => exact ⟨_, rfl, statusWord_toNat s⟩
  | 1, _ => exact ⟨_, rfl, cfgWord_toNat s⟩
  | 2, _ | 3, _ | 4, _ => exact ⟨_, rfl, rfl⟩
  | 5, _ | 6, _ | 7, _ | 8, _ | 9, _ | 10, _ => exact ⟨_, rfl, BitVec.toNat_setWidth_of_le (by decide)⟩

/-- An index above 10 names no register. -/
theorem readReg_of_gt {s : State} {idx : BitVec 8} (h : 10 < idx.toNat) : s.readReg idx = none := by
  simp only [State.readReg]
  split
  case h_12 => rfl
  all_goals omega

/-- Settles O12: the response carries the register's value above a status and an outcome of 0. -/
theorem rdregReturnsTheRegister : Obligations.RdregReturnsTheRegister := by
  unfold Obligations.RdregReturnsTheRegister
  intro s idx
  split
  · next hle =>
    obtain ⟨v, hread, hval⟩ := readReg_of_le (s := s) hle
    refine ⟨rspWord 0 0 v, ?_, ?_⟩
    · simp only [exec, execRdreg, hread]
      rfl
    · rw [rspWord_toNat, hval]
      simp
  · next hgt =>
    simp only [exec, execRdreg, readReg_of_gt (Nat.not_le.1 hgt), raise_eq_faulted, FaultCode.code]

end Sys2Proof.Machine
end

section
/-! The bit-width analyzer (41_bitwidth_analyzer.md): the width of a dimension as the least that all its values fit,
the size of the packed row, and what ANLZ leaves. -/

namespace Sys2Proof.Machine

/-! ## The least width of several bytes (R134) -/

/-- A byte has a width of at most `k` bits just when it is below `2 ^ k`. -/
theorem bitLength_le_iff (m : Byte) (k : Nat) : bitLength m ≤ k ↔ m.toNat < 2 ^ k := by
  unfold bitLength
  split
  case isTrue hzero =>
    subst hzero
    exact iff_of_true (Nat.zero_le k) (Nat.two_pow_pos k)
  case isFalse hm => exact Nat.log2_lt fun h => hm (BitVec.eq_of_toNat_eq h)

/-- The OR of bytes stays below a power of two just when each of them does. -/
theorem orBytes_lt_two_pow_iff (vs : List Byte) (k : Nat) :
    (orBytes vs).toNat < 2 ^ k ↔ ∀ v ∈ vs, v.toNat < 2 ^ k := by
  induction vs with
  | nil => simp [orBytes]
  | cons b bs ih =>
    rw [orBytes, BitVec.toNat_or, List.forall_mem_cons, ← ih]
    exact ⟨fun h => ⟨Nat.lt_of_le_of_lt Nat.left_le_or h, Nat.lt_of_le_of_lt Nat.right_le_or h⟩,
      fun ⟨hb, hbs⟩ => Nat.or_lt_two_pow hb hbs⟩

/-- The width of several bytes is at most `k` just when each of them fits in `k` bits. -/
theorem neededNbits_le_iff (vs : List Byte) (k : Nat) : neededNbits vs ≤ k ↔ ∀ v ∈ vs, v.toNat < 2 ^ k :=
  (bitLength_le_iff _ k).trans (orBytes_lt_two_pow_iff vs k)

section
variable {s : State} {d : Nat}

/-- The width of a dimension is at most `k` just when its eight values fit in `k` bits (R162). -/
theorem widthOf_le_iff (hd : d < s.D) (k : Nat) : s.widthOf d ≤ k ↔ ∀ i < 8, (s.val i d).toNat < 2 ^ k := by
  rw [State.widthOf, if_pos hd, neededNbits_le_iff]
  simp only [List.forall_mem_map, List.mem_range]

/-- A dimension has width 0 just when its eight values are 0 (R162). -/
theorem widthOf_eq_zero_iff (hd : d < s.D) : s.widthOf d = 0 ↔ ∀ i < 8, s.val i d = 0 := by
  rw [← Nat.le_zero, widthOf_le_iff hd]
  refine forall₂_congr fun i _ => ?_
  rw [← BitVec.toNat_inj, Nat.pow_zero, Nat.lt_one_iff]
  rfl

end

/-- The register of a width holds the width (R32, R162). -/
theorem analysis_w_toNat (s : State) (j : Nat) : (s.analysis.w.getD j 0).toNat = s.widthOf j := by
  rw [analysis_w_getD, BitVec.toNat_ofNat]
  exact Nat.mod_eq_of_lt (Nat.lt_of_le_of_lt (widthOf_le s j) (by decide))

/-! ## The size of a row (R165) -/

/-- The offset past the last stripe is the sum of all stripe widths. -/
theorem bitOff_length (sbw : List (BitVec 7)) : bitOff sbw sbw.length = (sbw.map BitVec.toNat).sum := by
  refine congrArg List.sum (List.ext_getElem (by simp) fun st hst _ => ?_)
  have hlt : st < sbw.length := by simpa using hst
  simp [hlt]

/-- The row size of coherent tables is the sum of the stripe widths (R165, R202). -/
theorem rowbits_eq_sum {d : Nat} {h : List (BitVec 3)} {ws : List (BitVec 4)} {sbw : List (BitVec 7)}
    {mask : List Word} {rowbits : BitVec 20} {rowbytes : BitVec 16} {zb : Bool}
    (hc : codesCoherent d h ws sbw mask rowbits rowbytes zb) : rowbits.toNat = (sbw.map BitVec.toNat).sum := by
  have hstripes := bitOff_eq_dimOff hc (Nat.le_refl _)
  have hpad : dimOff ws (8 * stripesOf d) = dimOff ws d :=
    dimOff_of_zero_from (le_stripesOf d) fun j hj => width_of_pad hc hj
  obtain ⟨-, -, hsbw, -, -, -, -, -, hrow, -, -⟩ := hc
  have hlen : sbw.length = stripesOf d := hsbw
  rw [hrow, ← hpad, ← hstripes, ← hlen, bitOff_length]

/-- A row has no bits just when none of its dimensions has. -/
theorem dimOff_eq_zero_iff (ws : List (BitVec 4)) (d : Nat) :
    dimOff ws d = 0 ↔ ∀ j < d, (ws.getD j 0).toNat = 0 := by
  rw [dimOff, List.sum_eq_zero_iff]
  simp only [List.forall_mem_map, List.mem_range]

/-- A dimension packs with width 0 just when its least width is 0: the step from 7 bits to 8 is the only one
(R91, R163). -/
theorem weff_eq_zero_iff {d j : Nat} {a : Analysis} (hc : a.coherent d) (hj : j < d) :
    (a.weff.getD j 0).toNat = 0 ↔ (a.w.getD j 0).toNat = 0 := by
  obtain ⟨⟨hlen, -, -, -, -, hweff, -⟩, hlenw, -, hcode, -⟩ := hc
  have hw := hweff j (by omega)
  obtain ⟨hle, hh⟩ := hcode j (by omega)
  rw [hw]
  split
  case isTrue hlast =>
    have hseven : (a.h.getD j 0).toNat = 7 := by rw [hlast]; rfl
    omega
  case isFalse => split at hh <;> omega

/-! ## What ANLZ leaves (R161 to R165) -/

/-- Settles O13: the tables are coherent by `analysis_coherent`, and a width is the least one by `widthOf_le_iff`, which
says it of the width itself and of every smaller one. -/
theorem anlzComputesTheTables : Obligations.AnlzComputesTheTables := by
  unfold Obligations.AnlzComputesTheTables
  intro s hruns
  refine ⟨_, exec_of_runs id hruns, rfl, analysis_coherent s, fun d hd => ?_⟩
  have hwidth : ((effectOf .anlz s).an.w.getD d 0).toNat = s.widthOf d := analysis_w_toNat s d
  rw [hwidth]
  refine ⟨(widthOf_le_iff hd _).1 (Nat.le_refl _), fun w hw => ?_⟩
  have hsmall := mt (widthOf_le_iff hd w).2 (Nat.not_le.2 hw)
  simpa only [not_forall, Nat.not_lt, exists_prop] using hsmall

/-- The zero flag of ANLZ says that every byte of the analysed block is 0 (R165). -/
theorem analysis_zb_iff (s : State) : s.analysis.zb = true ↔ ∀ i < 8, ∀ d < s.D, s.val i d = 0 := by
  have hcoh := analysis_coherent s
  have hwidth (d : Nat) (hd : d < s.D) : (s.analysis.weff.getD d 0).toNat = 0 ↔ ∀ i < 8, s.val i d = 0 := by
    rw [weff_eq_zero_iff hcoh hd, analysis_w_toNat, widthOf_eq_zero_iff hd]
  obtain ⟨⟨-, -, -, -, -, -, -, -, -, -, hzb⟩, -⟩ := hcoh
  rw [hzb, decide_eq_true_iff, dimOff_eq_zero_iff]
  exact ⟨fun h i hi d hd => (hwidth d hd).1 (h d hd) i hi, fun h d hd => (hwidth d hd).2 fun i hi => h i hi d hd⟩

/-- Settles O14: the size and the flag come from the coherence of the tables, what the flag says of the block from
`analysis_zb_iff`. -/
theorem anlzRowSizeAndZeroFlag : Obligations.AnlzRowSizeAndZeroFlag := by
  unfold Obligations.AnlzRowSizeAndZeroFlag
  intro s hruns
  obtain ⟨hcodes, -⟩ := analysis_coherent s
  have hsum := rowbits_eq_sum hcodes
  obtain ⟨-, -, -, -, -, -, -, -, hrow, hbytes, hzb⟩ := hcodes
  rw [← hrow] at hbytes hzb
  have hzero : s.analysis.zb = true ↔ s.analysis.rowbits.toNat = 0 := by rw [hzb, decide_eq_true_iff]
  exact ⟨_, exec_of_runs id hruns, hsum, hbytes, hzero, analysis_zb_iff s⟩

/-- Settles O15: the masks are coherent with the stripe widths (`popcount_mask`). -/
theorem anlzMaskPopcount : Obligations.AnlzMaskPopcount := by
  unfold Obligations.AnlzMaskPopcount
  intro s hruns
  obtain ⟨hcodes, -⟩ := analysis_coherent s
  have hpop (st : Nat) (hst : st < s.nstripes) := popcount_mask hcodes hst
  obtain ⟨-, -, -, hlen, -⟩ := hcodes
  exact ⟨_, exec_of_runs id hruns, hlen, hpop⟩

end Sys2Proof.Machine
end

section
/-! The stripe packer and unpacker (42_stripe_packer.md): memory as a bit stream, the place of a dimension's bits in a
packed row, the body PACK writes, the bytes UNPACK restores, and that the two undo each other. -/

namespace Sys2Proof.Machine

/-! ## Memory as a bit stream (R94) -/

/-- A stream that starts `n` bytes later starts at bit `8 n`. -/
theorem streamBit_add (m : Memory) (a n k : Nat) : m.streamBit (a + n) k = m.streamBit a (8 * n + k) := by
  have haddr : a + n + k / 8 = a + (8 * n + k) / 8 := by omega
  have hbit : k % 8 = (8 * n + k) % 8 := by omega
  rw [Memory.streamBit, Memory.streamBit, haddr, hbit]

/-- The bits of a byte are bits of any stream that starts before it. -/
theorem getLsbD_byte_add (m : Memory) (a n : Nat) {k : Nat} (hk : k < 8) :
    (m.byte (a + n)).getLsbD k = m.streamBit a (8 * n + k) := by
  rw [← streamBit_add, Memory.streamBit, Nat.div_eq_of_lt hk, Nat.mod_eq_of_lt hk, Nat.add_zero]

/-- An OR into memory ORs the bits of the value into the stream (R65, R94). -/
theorem streamBit_or (m : Memory) (a o n v k : Nat) :
    (m.or (a + o) n v).streamBit a k =
      (m.streamBit a k || (decide (8 * o ≤ k ∧ k < 8 * (o + n)) && v.testBit (k - 8 * o))) := by
  have hin : (a + o ≤ a + k / 8 ∧ a + k / 8 < a + o + n) ↔ (8 * o ≤ k ∧ k < 8 * (o + n)) := by omega
  simp only [Memory.streamBit, byte_or, hin]
  split
  · next h =>
    have hpos : 8 * (a + k / 8 - (a + o)) + k % 8 = k - 8 * o := by omega
    have hbit : k % 8 < 8 := by omega
    simp only [h, hbit, BitVec.getLsbD_or, BitVec.getLsbD_ofNat, Nat.testBit_shiftRight, hpos, and_self, decide_true,
      Bool.true_and]
  · next h => simp [h]

/-- A zero fill clears the bits of the stream up to its end. -/
theorem streamBit_zero (m : Memory) (a n k : Nat) :
    (m.zero a n).streamBit a k = (decide (8 * n ≤ k) && m.streamBit a k) := by
  have hin : (a ≤ a + k / 8 ∧ a + k / 8 < a + n) ↔ ¬8 * n ≤ k := by omega
  simp only [Memory.streamBit, byte_zero, hin]
  by_cases h : 8 * n ≤ k <;> simp [h]

/-- A word shifted up by less than a byte and ORed into memory, with a ninth byte for the bits that the shift drops
unless there are none, puts the word's bits into the stream from the shift on (R173, R174). -/
theorem streamBit_or_shifted (m : Memory) (a o : Nat) {sh : Nat} {w : Word} {nine : Bool} (hsh : sh < 8)
    (hnine : nine = false → ∀ k, 64 - sh ≤ k → w.getLsbD k = false) (k : Nat) :
    (if nine then (m.or (a + o) 8 (w <<< sh).toNat).or (a + o + 8) 1 (w >>> (64 - sh)).toNat
      else m.or (a + o) 8 (w <<< sh).toNat).streamBit a k =
      (m.streamBit a k || (decide (8 * o + sh ≤ k) && w.getLsbD (k - (8 * o + sh)))) := by
  have hlow : (m.or (a + o) 8 (w <<< sh).toNat).streamBit a k = (m.streamBit a k ||
      (decide (8 * o + sh ≤ k ∧ k < 8 * o + 64) && w.getLsbD (k - (8 * o + sh)))) := by
    rw [streamBit_or, BitVec.testBit_toNat, BitVec.getLsbD_shiftLeft, Nat.sub_sub]
    congr 1
    rw [Bool.eq_iff_iff]
    simp only [Bool.and_eq_true, decide_eq_true_eq, Bool.not_eq_true', decide_eq_false_iff_not]
    constructor
    · rintro ⟨hin, ⟨hlt, hge⟩, hbit⟩
      exact ⟨by omega, hbit⟩
    · rintro ⟨hin, hbit⟩
      exact ⟨by omega, ⟨by omega, by omega⟩, hbit⟩
  cases nine with
  | false =>
    rw [if_neg Bool.false_ne_true, hlow]
    by_cases hin : k < 8 * o + 64
    · simp [hin]
    · simp [hin, hnine rfl (k - (8 * o + sh)) (by omega)]
  | true =>
    rw [if_pos rfl, Nat.add_assoc a o 8, streamBit_or, hlow, Bool.or_assoc, BitVec.testBit_toNat,
      BitVec.getLsbD_ushiftRight]
    congr 1
    by_cases hin : k < 8 * o + 64
    · have hout : ¬8 * (o + 8) ≤ k := by omega
      simp [hin, hout]
    · have hpos : 64 - sh + (k - 8 * (o + 8)) = k - (8 * o + sh) := by omega
      have hge : 8 * o + sh ≤ k := by omega
      have hge' : 8 * (o + 8) ≤ k := by omega
      by_cases hend : k < 8 * (o + 8 + 1)
      · simp [hin, hge, hge', hend, hpos]
      · simp [hin, hend, BitVec.getLsbD_of_ge w (k - (8 * o + sh)) (by omega)]

/-- A loop each of whose rounds ORs its own bit into the stream ORs all of them. -/
theorem streamBit_foldl_or {α : Type} {f : Memory → α → Memory} {g : α → Bool} {l : List α} {a k : Nat}
    (h : ∀ m, ∀ x ∈ l, (f m x).streamBit a k = (m.streamBit a k || g x)) (m : Memory) :
    (l.foldl f m).streamBit a k = (m.streamBit a k || l.any g) := by
  induction l generalizing m with
  | nil => simp
  | cons x l ih =>
    rw [List.foldl_cons, ih (fun m y hy => h m y (List.mem_cons_of_mem _ hy)), h m x List.mem_cons_self,
      List.any_cons, Bool.or_assoc]

/-! ## The place of a dimension's bits in a row (R95) -/

/-- Bit `k` of an extract comes from the mask's position of rank `k` (R130). -/
theorem getLsbD_pext_iff (x m : Word) (k : Nat) :
    (pext x m).getLsbD k = true ↔ ∃ p < 64, m.getLsbD p = true ∧ rank m p = k ∧ x.getLsbD p = true := by
  constructor
  · intro hbit
    have hk : k < popcount m := by
      by_contra hge
      rw [getLsbD_pext_of_popcount_le (Nat.not_lt.1 hge)] at hbit
      cases hbit
    obtain ⟨p, hp, hset, rfl⟩ := exists_rank_eq hk
    rw [getLsbD_pext_rank hp hset] at hbit
    exact ⟨p, hp, hset, rfl, hbit⟩
  · rintro ⟨p, hp, hset, rfl, hbit⟩
    rwa [getLsbD_pext_rank hp hset]

/-- The offset after some dimensions is no smaller than the offset after fewer. -/
theorem dimOff_mono (ws : List (BitVec 4)) {d n : Nat} (h : d ≤ n) : dimOff ws d ≤ dimOff ws n := by
  obtain ⟨c, rfl⟩ := Nat.exists_eq_add_of_le h
  rw [dimOff_add]
  omega

/-- The bits of a dimension end before those of the next begin. -/
theorem dimOff_add_lt {ws : List (BitVec 4)} {d n k : Nat} (hd : d < n) (hk : k < (ws.getD d 0).toNat) :
    dimOff ws d + k < dimOff ws n := by
  have hnext := dimOff_mono ws hd
  rw [dimOff_succ] at hnext
  omega

/-- A bit of a row belongs to one dimension only. -/
theorem dimOff_add_inj {ws : List (BitVec 4)} {d d' k k' : Nat} (hk : k < (ws.getD d 0).toNat)
    (hk' : k' < (ws.getD d' 0).toNat) (h : dimOff ws d + k = dimOff ws d' + k') : d = d' ∧ k = k' := by
  rcases Nat.lt_trichotomy d d' with hlt | rfl | hlt
  · have := dimOff_add_lt hlt hk
    omega
  · exact ⟨rfl, by omega⟩
  · have := dimOff_add_lt hlt hk'
    omega

/-- In a mask that holds the first `w j` positions of each byte `j`, the rank of a position it holds counts the positions
of the bytes before, and those before it in its own byte. -/
theorem rank_of_low_bits {m : Word} {w : Nat → Nat} (hw : ∀ j, w j ≤ 8)
    (h : ∀ q < 64, m.getLsbD q = decide (q % 8 < w (q / 8))) {p : Nat} (hp : p < 64) (hset : p % 8 < w (p / 8)) :
    rank m p = ((List.range (p / 8)).map w).sum + p % 8 := by
  have hbyte (j k : Nat) (hj : j < 8) (hk : k < 8) : m.getLsbD (8 * j + k) = decide (k < w j) := by
    have hdiv : (8 * j + k) / 8 = j := by omega
    have hmod : (8 * j + k) % 8 = k := by omega
    rw [h _ (by omega), hdiv, hmod]
  have hbefore : ((List.range (8 * (p / 8))).filter fun q => m.getLsbD q).length = ((List.range (p / 8)).map w).sum :=
    length_filter_bytes hw fun j hj k hk => hbyte j k (by omega) hk
  have hwithin : ((List.range (p % 8)).filter ((fun q => m.getLsbD q) ∘ (8 * (p / 8) + ·))).length = p % 8 := by
    rw [List.filter_eq_self.2, List.length_range]
    intro k hk
    have hk' := List.mem_range.1 hk
    rw [Function.comp_apply, hbyte (p / 8) k (by omega) (by omega), decide_eq_true_eq]
    exact hk'.trans hset
  conv_lhs => rw [← Nat.div_add_mod p 8]
  rw [rank, List.range_add, List.filter_append, List.length_append, List.filter_map, List.length_map, hbefore, hwithin]

section
variable {d : Nat} {h : List (BitVec 3)} {ws : List (BitVec 4)} {sbw : List (BitVec 7)} {mask : List Word}
  {rowbits : BitVec 20} {rowbytes : BitVec 16} {zb : Bool}

/-- A stripe's mask selects the low bits of each of its dimensions, as many as the dimension is wide (R164). -/
theorem getLsbD_mask (hc : codesCoherent d h ws sbw mask rowbits rowbytes zb) {st p : Nat} (hst : st < stripesOf d)
    (hp : p < 64) :
    (mask.getD st 0).getLsbD p = decide (p % 8 < (ws.getD (8 * st + p / 8) 0).toNat) := by
  obtain ⟨-, -, -, hmask, -, -, -, hbits, -⟩ := hc
  exact hbits st (by rw [hmask]; exact hst) p hp

/-- A bit that a stripe's mask selects has its place in the row at the offset of its dimension (R95, R171). -/
theorem bitOff_add_rank (hc : codesCoherent d h ws sbw mask rowbits rowbytes zb) {st p : Nat} (hst : st < stripesOf d)
    (hp : p < 64) (hset : (mask.getD st 0).getLsbD p = true) :
    bitOff sbw st + rank (mask.getD st 0) p = dimOff ws (8 * st + p / 8) + p % 8 := by
  have hmask (q : Nat) (hq : q < 64) := getLsbD_mask hc hst hq
  rw [hmask p hp, decide_eq_true_eq] at hset
  rw [rank_of_low_bits (w := fun j => (ws.getD (8 * st + j) 0).toNat) (fun j => width_le hc _) hmask hp hset,
    bitOff_eq_dimOff hc (Nat.le_of_lt hst), dimOff_add, Nat.add_assoc]

/-- The bits of a row fit its bytes (R165). -/
theorem dimOff_le_rowbytes (hc : codesCoherent d h ws sbw mask rowbits rowbytes zb) :
    dimOff ws d ≤ 8 * rowbytes.toNat := by
  obtain ⟨-, -, -, -, -, -, -, -, -, hbytes, -⟩ := hc
  omega

end

/-! ## The body PACK writes (R172 to R177) -/

section
variable {s : State}

/-- Where the bits of stripe `st` of row `i` start in the stream at `DSTP` (R171). -/
def packStart (s : State) (i st : Nat) : Nat := 8 * (i * s.an.rowbytes.toNat) + bitOff s.an.sbw st

/-- Bit `q` of the stream at `DSTP`, as stripe `st` of row `i` sets it. -/
def packedBit (s : State) (q i st : Nat) : Bool :=
  decide (packStart s i st ≤ q) && (packBits s i st).getLsbD (q - packStart s i st)

/-- A stripe ORs its bits into the stream, in the 8B and in the 9B variant (R173, R174). -/
theorem streamBit_packStripe (hcoh : s.an.coherent s.D) (i : Nat) {st : Nat} (hst : st < s.nstripes) (m : Memory)
    (q : Nat) :
    (packStripe s i m st).streamBit s.dstp.toNat q = (m.streamBit s.dstp.toNat q || packedBit s q i st) := by
  obtain ⟨hcodes, -⟩ := hcoh
  have hcount : popcount (s.an.smask.getD st 0) = (s.an.sbw.getD st 0).toNat := popcount_mask hcodes hst
  have hshift : bitShift s.an.sbw st < 8 := Nat.mod_lt _ (by decide)
  have hdrop (hnine : nineBytes s.an.sbw st = false) (k : Nat) (hk : 64 - bitShift s.an.sbw st ≤ k) :
      (packBits s i st).getLsbD k = false := by
    have hfits := mt (nineBytes_iff s.an.sbw st).2 (Bool.eq_false_iff.1 hnine)
    rw [← bitShift] at hfits
    exact getLsbD_pext_of_popcount_le (by omega)
  have hstart : packStart s i st =
      8 * (i * s.an.rowbytes.toNat + byteOff s.an.sbw st) + bitShift s.an.sbw st := by
    rw [packStart, byteOff, bitShift]
    omega
  rw [packStripe, packAt, Nat.add_assoc s.dstp.toNat, packedBit, hstart]
  exact streamBit_or_shifted m _ _ hshift hdrop q

/-- The bits a stripe sets are the set bits of its values, each at the place of its dimension (R95, R176). -/
theorem packedBit_iff (hcoh : s.an.coherent s.D) {q i st : Nat} (hst : st < s.nstripes) :
    packedBit s q i st = true ↔ ∃ p < 64, p % 8 < (s.an.weff.getD (8 * st + p / 8) 0).toNat ∧
      q = 8 * (i * s.an.rowbytes.toNat) + (dimOff s.an.weff (8 * st + p / 8) + p % 8) ∧
      (s.val i (8 * st + p / 8)).getLsbD (p % 8) = true := by
  obtain ⟨hcodes, -⟩ := hcoh
  rw [packedBit, Bool.and_eq_true, decide_eq_true_eq, packBits, getLsbD_pext_iff, packStart]
  constructor
  · rintro ⟨hle, p, hp, hset, hrank, hbit⟩
    have hplace := bitOff_add_rank hcodes hst hp hset
    rw [getLsbD_mask hcodes hst hp, decide_eq_true_eq] at hset
    rw [getLsbD_packData _ hp] at hbit
    exact ⟨p, hp, hset, by omega, hbit⟩
  · rintro ⟨p, hp, hwidth, rfl, hbit⟩
    have hset : (s.an.smask.getD st 0).getLsbD p = true := by
      rw [getLsbD_mask hcodes hst hp, decide_eq_true_eq]
      exact hwidth
    have hplace := bitOff_add_rank hcodes hst hp hset
    rw [← getLsbD_packData _ hp] at hbit
    exact ⟨by omega, p, hp, hset, by omega, hbit⟩

/-- The stream at `DSTP` after PACK: the body holds the bits of the block's values, each at its place, and no other bit;
past the body the stream is as before (R176, R177). -/
theorem streamBit_packDst (hcoh : s.an.coherent s.D) (q : Nat) :
    (packDst s).streamBit s.dstp.toNat q = true ↔
      (8 * (8 * s.an.rowbytes.toNat) ≤ q ∧ s.dst.streamBit s.dstp.toNat q = true) ∨
      ∃ i < 8, ∃ d < s.D, ∃ k < (s.an.weff.getD d 0).toNat,
        q = 8 * (i * s.an.rowbytes.toNat) + (dimOff s.an.weff d + k) ∧ (s.val i d).getLsbD k = true := by
  have hrow (m : Memory) (i : Nat) : (packRow s m i).streamBit s.dstp.toNat q =
      (m.streamBit s.dstp.toNat q || (List.range s.nstripes).any (packedBit s q i)) :=
    streamBit_foldl_or (fun m st hst => streamBit_packStripe hcoh i (List.mem_range.1 hst) m q) m
  have hns : s.nstripes = (s.D + 7) / 8 := rfl
  rw [packDst, streamBit_foldl_or (fun m i _ => hrow m i), streamBit_zero, Bool.or_eq_true, Bool.and_eq_true,
    decide_eq_true_eq]
  refine or_congr_right ?_
  simp only [List.any_eq_true, List.mem_range]
  constructor
  · rintro ⟨i, hi, st, hst, hbit⟩
    obtain ⟨p, hp, hwidth, hq, hval⟩ := (packedBit_iff hcoh hst).1 hbit
    have hdim : 8 * st + p / 8 < s.D := by
      by_contra hpad
      rw [width_of_pad hcoh.1 (Nat.not_lt.1 hpad)] at hwidth
      exact absurd hwidth (Nat.not_lt_zero _)
    exact ⟨i, hi, _, hdim, _, hwidth, hq, hval⟩
  · rintro ⟨i, hi, d, hd, k, hk, hq, hval⟩
    have hle := width_le hcoh.1 d
    have hst : d / 8 < s.nstripes := by omega
    have hdiv : 8 * (d / 8) + (8 * (d % 8) + k) / 8 = d := by omega
    have hmod : (8 * (d % 8) + k) % 8 = k := by omega
    refine ⟨i, hi, d / 8, hst, (packedBit_iff hcoh hst).2 ⟨8 * (d % 8) + k, by omega, ?_⟩⟩
    rw [hdiv, hmod]
    exact ⟨hk, hq, hval⟩

/-- A position in the rows of a body names its row and its place in the row. -/
theorem row_position_inj {r i i' k k' : Nat} (hk : k < 8 * r) (hk' : k' < 8 * r)
    (h : 8 * (i * r) + k = 8 * (i' * r) + k') : i = i' ∧ k = k' := by
  rcases Nat.lt_trichotomy i i' with hlt | rfl | hlt
  · have := Nat.mul_le_mul_right r hlt
    rw [Nat.succ_mul] at this
    omega
  · exact ⟨rfl, by omega⟩
  · have := Nat.mul_le_mul_right r hlt
    rw [Nat.succ_mul] at this
    omega

/-- A row of the body holds the bits of its record's values, each at its place, and no other bit (R95, R176). -/
theorem streamBit_packDst_row (hcoh : s.an.coherent s.D) {i k : Nat} (hi : i < 8) (hk : k < 8 * s.an.rowbytes.toNat) :
    (packDst s).streamBit (s.dstp.toNat + i * s.an.rowbytes.toNat) k = true ↔
      ∃ d < s.D, ∃ j < (s.an.weff.getD d 0).toNat,
        k = dimOff s.an.weff d + j ∧ (s.val i d).getLsbD j = true := by
  have hrow := Nat.mul_le_mul_right s.an.rowbytes.toNat (Nat.le_of_lt_succ hi)
  have hbytes := dimOff_le_rowbytes hcoh.1
  rw [streamBit_add, streamBit_packDst hcoh]
  constructor
  · rintro (⟨hpast, -⟩ | ⟨i', -, d, hd, j, hj, hq, hbit⟩)
    · omega
    · have hlt := dimOff_add_lt hd hj
      obtain ⟨rfl, rfl⟩ := row_position_inj hk (by omega) hq
      exact ⟨d, hd, j, hj, rfl, hbit⟩
  · rintro ⟨d, hd, j, hj, rfl, hbit⟩
    exact .inr ⟨i, hi, d, hd, j, hj, rfl, hbit⟩

/-- In the body the bits of a dimension are the low bits of its value (R176). -/
theorem streamBit_packDst_dim (hcoh : s.an.coherent s.D) {i d k : Nat} (hi : i < 8) (hd : d < s.D)
    (hk : k < (s.an.weff.getD d 0).toNat) :
    (packDst s).streamBit (s.dstp.toNat + i * s.an.rowbytes.toNat) (dimOff s.an.weff d + k) =
      (s.val i d).getLsbD k := by
  have hin := Nat.lt_of_lt_of_le (dimOff_add_lt hd hk) (dimOff_le_rowbytes hcoh.1)
  rw [Bool.eq_iff_iff, streamBit_packDst_row hcoh hi hin]
  constructor
  · rintro ⟨d', -, k', hk', hplace, hbit⟩
    obtain ⟨rfl, rfl⟩ := dimOff_add_inj hk hk' hplace
    exact hbit
  · exact fun hbit => ⟨d, hd, k, hk, rfl, hbit⟩

/-- The pad bits of a row are 0 (R176). -/
theorem streamBit_packDst_pad (hcoh : s.an.coherent s.D) {i k : Nat} (hi : i < 8) (hk : k < 8 * s.an.rowbytes.toNat)
    (hpad : dimOff s.an.weff s.D ≤ k) :
    (packDst s).streamBit (s.dstp.toNat + i * s.an.rowbytes.toNat) k = false := by
  rw [Bool.eq_false_iff, Ne, streamBit_packDst_row hcoh hi hk]
  rintro ⟨d, hd, j, hj, rfl, -⟩
  exact absurd (dimOff_add_lt hd hj) (Nat.not_lt.2 hpad)

/-- Before `DSTP` PACK touches nothing (R68). -/
theorem packDst_byte_before {x : Nat} (hx : x < s.dstp.toNat) : (packDst s).byte x = s.dst.byte x := by
  refine (pack_dstWrites s).byte_eq (mt (reaches_packFootprint s .dst x).1 ?_)
  rintro (⟨-, hsp, -⟩ | ⟨-, hlo, -⟩ | ⟨-, i, -, st, -, hlo, -⟩)
  · cases hsp
  · omega
  · omega

/-- Past the body PACK writes back what it reads (R176). -/
theorem packDst_byte_past (hcoh : s.an.coherent s.D) {x : Nat} (hx : s.dstp.toNat + 8 * s.an.rowbytes.toNat ≤ x) :
    (packDst s).byte x = s.dst.byte x := by
  obtain ⟨n, rfl⟩ := Nat.exists_eq_add_of_le hx
  apply BitVec.eq_of_getLsbD_eq
  intro k hk
  rw [Nat.add_assoc, getLsbD_byte_add _ _ _ hk, getLsbD_byte_add _ _ _ hk, Bool.eq_iff_iff, streamBit_packDst hcoh]
  constructor
  · rintro (⟨-, hbit⟩ | ⟨i, hi, d, hd, j, hj, hq, -⟩)
    · exact hbit
    · have hrow := Nat.mul_le_mul_right s.an.rowbytes.toNat (Nat.le_of_lt_succ hi)
      have hplace := dimOff_add_lt hd hj
      have hbytes := dimOff_le_rowbytes hcoh.1
      omega
  · exact fun hbit => .inl ⟨by omega, hbit⟩

end

/-- Settles O20: the frame is that of `packEffect`, the memory clause that of every command. -/
theorem packCompletes : Obligations.PackCompletes := by
  unfold Obligations.PackCompletes
  intro s hruns
  have hexec := exec_of_runs id hruns
  obtain ⟨-, -, hdst⟩ := commandsWriteOnlyTheirFootprint .pack s _ hexec
  exact ⟨_, hexec, rfl, advanceSrcp_toNat, advanceDstp_toNat, hdst⟩

/-- Settles O21: the bits of the body by `streamBit_packDst_dim` and `streamBit_packDst_pad`, the bytes around it by
`packDst_byte_before` and `packDst_byte_past`. -/
theorem packWritesTheBlockBody : Obligations.PackWritesTheBlockBody := by
  unfold Obligations.PackWritesTheBlockBody
  intro s hruns hcoh
  exact ⟨_, exec_of_runs id hruns,
    fun i hi => ⟨fun d hd k hk => streamBit_packDst_dim hcoh hi hd hk, fun k hk => streamBit_packDst_pad hcoh hi hk⟩,
    fun x hx => hx.elim packDst_byte_before (packDst_byte_past hcoh)⟩

/-! ## The bytes UNPACK restores (R178 to R182) -/

section
variable {s : State}

/-- The byte UNPACK restores for record `i` and dimension `d` (R178). -/
def unpackedByte (s : State) (i d : Nat) : Byte :=
  BitVec.ofNat 8 ((unpackWord s i (d / 8)).toNat >>> (8 * (d % 8)))

/-- The bytes of a stripe's word are the restored bytes of its dimensions. -/
theorem unpackedByte_stripe (s : State) (i st : Nat) {j : Nat} (hj : j < 8) :
    unpackedByte s i (8 * st + j) = BitVec.ofNat 8 ((unpackWord s i st).toNat >>> (8 * j)) := by
  have hdiv : (8 * st + j) / 8 = st := by omega
  have hmod : (8 * st + j) % 8 = j := by omega
  rw [unpackedByte, hdiv, hmod]

/-- The word UNPACK deposits for a stripe: below the width of each dimension the dimension's bits of the row, 0 above
(R95, R178 to R180). -/
theorem getLsbD_unpackWord (hcoh : s.slot.coherent s.D) (i : Nat) {st p : Nat} (hst : st < s.nstripes) (hp : p < 64) :
    (unpackWord s i st).getLsbD p = (decide (p % 8 < (s.slot.gw.getD (8 * st + p / 8) 0).toNat) &&
      s.src.streamBit (s.srcp.toNat + i * s.slot.growbytes.toNat)
        (dimOff s.slot.gw (8 * st + p / 8) + p % 8)) := by
  have hcount : popcount (s.slot.gmask.getD st 0) = (s.slot.gsbw.getD st 0).toNat := popcount_mask hcoh hst
  rw [unpackWord, getLsbD_pdep, ← getLsbD_mask hcoh hst hp]
  cases hset : (s.slot.gmask.getD st 0).getLsbD p with
  | false => rfl
  | true =>
    have hrank := rank_lt_popcount hp hset
    rw [getLsbD_unpackBits s (hrank.trans_eq hcount) (hcount ▸ popcount_le _), bitOff_add_rank hcoh hst hp hset]

/-- A restored byte holds its dimension's bits of the row, zeros above the dimension's width (R95, R178). -/
theorem getLsbD_unpackedByte (hcoh : s.slot.coherent s.D) (i : Nat) {d k : Nat} (hd : d < 8 * s.nstripes)
    (hk : k < 8) :
    (unpackedByte s i d).getLsbD k = (decide (k < (s.slot.gw.getD d 0).toNat) &&
      s.src.streamBit (s.srcp.toNat + i * s.slot.growbytes.toNat) (dimOff s.slot.gw d + k)) := by
  have hdiv : 8 * (d / 8) + (8 * (d % 8) + k) / 8 = d := by omega
  have hmod : (8 * (d % 8) + k) % 8 = k := by omega
  have hword := getLsbD_unpackWord hcoh i (st := d / 8) (p := 8 * (d % 8) + k) (by omega) (by omega)
  rw [hdiv, hmod] at hword
  rw [unpackedByte, BitVec.getLsbD_ofNat, Nat.testBit_shiftRight, BitVec.testBit_toNat, hword]
  simp [hk]

/-- The restored bytes of the pad columns are 0 (R178). -/
theorem unpackedByte_pad (hcoh : s.slot.coherent s.D) (i : Nat) {d : Nat} (hd : d < 8 * s.nstripes) (hpad : s.D ≤ d) :
    unpackedByte s i d = 0 := by
  apply BitVec.eq_of_getLsbD_eq
  intro k hk
  rw [getLsbD_unpackedByte hcoh i hd hk, width_of_pad hcoh hpad]
  simp

/-! ### The state UNPACK leaves, mode by mode -/

theorem unpackEffect_of_delta (hdelta : s.cfgDelta = true) :
    unpackEffect s =
      ({ s with
          blkbuf := unpackBuf s, srcp := s.advanceSrcp (8 * s.slot.growbytes.toNat), ph := .unpacked } : State).respond
        .none 0 := by
  rw [unpackEffect, if_pos hdelta]

theorem unpackEffect_of_rowmajor (hdelta : s.cfgDelta = false) :
    unpackEffect s =
      ({ s with
          dst := unpackDst s, srcp := s.advanceSrcp (8 * s.slot.growbytes.toNat), dstp := s.advanceDstp s.blockBytes,
          blk := s.blk + 1, first := false } : State).respond .none 0 := by
  rw [unpackEffect, if_neg (by simp [hdelta])]

theorem unpackEffect_srcp (s : State) : (unpackEffect s).srcp = s.advanceSrcp (8 * s.slot.growbytes.toNat) := by
  unfold unpackEffect
  split <;> rfl

/-! ### The delta modes: `BLKBUF` -/

/-- The rows of the new `BLKBUF` are the stripes' words laid end to end, byte by byte (R178). -/
theorem unpackBuf_getD {i j : Nat} (hi : i < 8) (hj : j < 8 * s.nstripes) :
    ((unpackBuf s).getD i []).getD j 0 = unpackedByte s i j := by
  have hrow : (unpackBuf s).getD i [] =
      (List.range s.nstripes).flatMap fun st => natToBytes 8 (unpackWord s i st).toNat := by
    simp [unpackBuf, List.getD_eq_getElem?_getD, hi]
  have hstripe : j / 8 < s.nstripes := by omega
  have hcol : j % 8 < 8 := Nat.mod_lt j (by decide)
  rw [hrow, ← Nat.div_add_mod j 8, getD_flatMap_range (fun _ => length_natToBytes 8 _) 0 hstripe hcol,
    getD_natToBytes _ hcol, unpackedByte_stripe s i _ hcol]

/-- After UNPACK in the delta modes `BLKBUF` holds the restored bytes (R178). -/
theorem blkAt_unpackEffect (hdelta : s.cfgDelta = true) {i j : Nat} (hi : i < 8) (hj : j < 8 * s.nstripes) :
    (unpackEffect s).blkAt i j = unpackedByte s i j := by
  rw [unpackEffect_of_delta hdelta]
  exact unpackBuf_getD hi hj

/-! ### Rowmajor: DST -/

/-- One row of stores puts the restored bytes of its dimensions and of the pad columns at the record's place, whatever
the order of the stripes (R178, R182). -/
theorem byte_unpackRow (m : Memory) (i x : Nat) :
    (unpackRow s m i).byte x =
      if s.dstp.toNat + i * s.D ≤ x ∧ x < s.dstp.toNat + i * s.D + 8 * s.nstripes then
        unpackedByte s i (x - (s.dstp.toNat + i * s.D))
      else m.byte x := by
  rw [unpackRow, List.foldl_reverse]
  generalize s.dstp.toNat + i * s.D = a
  induction s.nstripes generalizing m with
  | zero =>
    rw [if_neg (by omega)]
    rfl
  | succ n ih =>
    rw [List.range_succ, List.foldr_append, List.foldr_cons, List.foldr_nil, ih, byte_write]
    by_cases hbelow : a ≤ x ∧ x < a + 8 * n
    · rw [if_pos hbelow, if_pos (by omega)]
    rw [if_neg hbelow]
    by_cases hlast : a + 8 * n ≤ x ∧ x < a + 8 * n + 8
    · obtain ⟨j, rfl⟩ := Nat.exists_eq_add_of_le hlast.1
      have hcol : a + 8 * n + j - a = 8 * n + j := by omega
      rw [if_pos hlast, if_pos (by omega), hcol, unpackedByte_stripe s i n (by omega), Nat.add_sub_cancel_left]
    · rw [if_neg hlast, if_neg (by omega)]

/-- After `n` rows each of their records stands in its place: a row's slack falls on the records after it, and those are
stored later (R70, R178). -/
theorem byte_unpackRows {n i d : Nat} (hi : i < n) (hd : d < s.D) (m : Memory) :
    ((List.range n).foldl (unpackRow s) m).byte (s.dstp.toNat + i * s.D + d) = unpackedByte s i d := by
  have hcols : s.D ≤ 8 * s.nstripes := le_stripesOf s.D
  induction n with
  | zero => omega
  | succ n ih =>
    rw [List.range_succ, List.foldl_append, List.foldl_cons, List.foldl_nil, byte_unpackRow]
    rcases Nat.lt_succ_iff_lt_or_eq.1 hi with hlt | rfl
    · have hrow := Nat.mul_le_mul_right s.D hlt
      rw [Nat.succ_mul] at hrow
      rw [if_neg (by omega), ih hlt]
    · rw [if_pos (by omega), Nat.add_sub_cancel_left]

/-- Past the block stand the pad columns of the last row (R70, R178). -/
theorem byte_unpackDst_slack (hcoh : s.slot.coherent s.D) {j : Nat} (hj : j < 8 * s.nstripes - s.D) :
    (unpackDst s).byte (s.dstp.toNat + 8 * s.D + j) = 0 := by
  have hcol : s.dstp.toNat + 8 * s.D + j - (s.dstp.toNat + 7 * s.D) = s.D + j := by omega
  have hlast : List.range 8 = List.range 7 ++ [7] := List.range_succ
  rw [unpackDst, hlast, List.foldl_append, List.foldl_cons, List.foldl_nil, byte_unpackRow, if_pos (by omega), hcol]
  exact unpackedByte_pad hcoh 7 (by omega) (by omega)

/-- UNPACK touches no byte of DST before the records, and none past the last row's pad columns (R68). -/
theorem byte_unpackEffect_outside {x : Nat}
    (hx : x < s.dstp.toNat ∨ s.dstp.toNat + 7 * s.D + 8 * s.nstripes ≤ x) :
    (unpackEffect s).dst.byte x = s.dst.byte x := by
  refine (unpack_dstWrites s).byte_eq (mt (reaches_unpackFootprint s .dst x).1 ?_)
  rintro (⟨hsp, -⟩ | ⟨-, -, i, hi, st, hst, hlo, hhi⟩)
  · cases hsp
  · have hrow := Nat.mul_le_mul_right s.D (Nat.le_of_lt_succ hi)
    omega

end

/-- Settles O22, mode by mode: the frame is that of `unpackEffect`, the memory clause that of every command. -/
theorem unpackCompletes : Obligations.UnpackCompletes := by
  unfold Obligations.UnpackCompletes
  intro s hruns
  have hexec := exec_of_runs id hruns
  obtain ⟨-, -, hdst⟩ := commandsWriteOnlyTheirFootprint .unpack s _ hexec
  have hsrcp : (effectOf .unpack s).srcp = s.advanceSrcp (8 * s.slot.growbytes.toNat) := unpackEffect_srcp s
  refine ⟨_, hexec, fun hfit => hsrcp ▸ advanceSrcp_toNat hfit, fun hdelta => ?delta, fun hdelta => ?rowmajor⟩
  case delta =>
    simp only [effectOf, unpackEffect_of_delta hdelta]
    rfl
  case rowmajor =>
    simp only [effectOf, unpackEffect_of_rowmajor hdelta] at hdst ⊢
    exact ⟨rfl, advanceDstp_toNat, hdst⟩

/-- Settles O23: `BLKBUF` holds the restored bytes, whose bits `getLsbD_unpackedByte` gives. -/
theorem unpackFillsTheBlockBuffer : Obligations.UnpackFillsTheBlockBuffer := by
  unfold Obligations.UnpackFillsTheBlockBuffer
  intro s hruns hcoh hdelta
  have hcols : s.D ≤ 8 * s.nstripes := le_stripesOf s.D
  refine ⟨_, exec_of_runs id hruns, fun i hi => ⟨fun d hd k hk => ?dim, fun j hj hpad => ?pad⟩⟩
  case dim =>
    have hd' := Nat.lt_of_lt_of_le hd hcols
    exact (congrArg (BitVec.getLsbD · k) (blkAt_unpackEffect hdelta hi hd')).trans
      (getLsbD_unpackedByte hcoh i hd' hk)
  case pad => exact (blkAt_unpackEffect hdelta hi hj).trans (unpackedByte_pad hcoh i hj hpad)

/-- Settles O24: the records are the restored bytes, the slack is the last row's pad columns. -/
theorem unpackStoresTheRecords : Obligations.UnpackStoresTheRecords := by
  unfold Obligations.UnpackStoresTheRecords
  intro s hruns hcoh hdelta
  have hdst : (effectOf .unpack s).dst = unpackDst s := congrArg State.dst (unpackEffect_of_rowmajor hdelta)
  refine ⟨_, exec_of_runs id hruns, fun i hi d hd k hk => ?_, fun j hj => ?_, fun x hx => byte_unpackEffect_outside hx⟩
  · rw [hdst, unpackDst, byte_unpackRows hi hd]
    exact getLsbD_unpackedByte hcoh i (Nat.lt_of_lt_of_le hd (le_stripesOf s.D)) hk
  · rw [hdst]
    exact byte_unpackDst_slack hcoh hj

/-! ## UNPACK undoes PACK (R183) -/

section
variable {d : Nat} {h : List (BitVec 3)} {ws ws' : List (BitVec 4)} {sbw sbw' : List (BitVec 7)}
  {mask mask' : List Word} {rowbits rowbits' : BitVec 20} {rowbytes rowbytes' : BitVec 16} {zb zb' : Bool}

/-- The codes determine the widths and the size of a row (R163, R165, R201, R202). -/
theorem codesCoherent_unique (hc : codesCoherent d h ws sbw mask rowbits rowbytes zb)
    (hc' : codesCoherent d h ws' sbw' mask' rowbits' rowbytes' zb') :
    ws = ws' ∧ rowbytes.toNat = rowbytes'.toNat := by
  obtain ⟨-, hlen, -, -, -, hwidth, -, -, -, hbytes, -⟩ := hc
  obtain ⟨-, hlen', -, -, -, hwidth', -, -, -, hbytes', -⟩ := hc'
  obtain rfl : ws = ws' := by
    refine List.ext_getElem (hlen.trans hlen'.symm) fun j hj hj' => BitVec.eq_of_toNat_eq ?_
    have heq := (hwidth j (by omega)).trans (hwidth' j (by omega)).symm
    rwa [List.getD_eq_getElem _ _ hj, List.getD_eq_getElem _ _ hj'] at heq
  exact ⟨rfl, hbytes.trans hbytes'.symm⟩

end

/-- UNPACK restores a value whose low bits, as many as its dimension is wide, stand in the row, if the value has no bit
above them (R183). -/
theorem unpackedByte_eq {s : State} (hcoh : s.slot.coherent s.D) {i d : Nat} {v : Byte} (hd : d < s.D)
    (hv : v.toNat < 2 ^ (s.slot.gw.getD d 0).toNat)
    (hbits : ∀ k < (s.slot.gw.getD d 0).toNat,
      s.src.streamBit (s.srcp.toNat + i * s.slot.growbytes.toNat) (dimOff s.slot.gw d + k) = v.getLsbD k) :
    unpackedByte s i d = v := by
  apply BitVec.eq_of_getLsbD_eq
  intro k hk
  rw [getLsbD_unpackedByte hcoh i (Nat.lt_of_lt_of_le hd (le_stripesOf s.D)) hk]
  by_cases hin : k < (s.slot.gw.getD d 0).toNat
  · simp only [hin, decide_true, Bool.true_and, hbits k hin]
  · have hpow := Nat.pow_le_pow_right (n := 2) (by decide) (Nat.not_lt.1 hin)
    simp only [hin, decide_false, Bool.false_and]
    exact (Nat.testBit_lt_two_pow (Nat.lt_of_lt_of_le hv hpow)).symm

/-- What UNPACK leaves for record `i` and dimension `d`: in `BLKBUF` in the delta modes, in DST in rowmajor (R178). -/
theorem unpackEffect_restores (s : State) {i d : Nat} (hi : i < 8) (hd : d < s.D) :
    (if s.cfgDelta = true then (unpackEffect s).blkAt i d
      else (unpackEffect s).dst.byte (s.dstp.toNat + i * s.D + d)) = unpackedByte s i d := by
  split
  · next hdelta => exact blkAt_unpackEffect hdelta hi (Nat.lt_of_lt_of_le hd (le_stripesOf s.D))
  · next hdelta =>
    rw [unpackEffect_of_rowmajor (Bool.eq_false_iff.2 hdelta)]
    exact byte_unpackRows hi hd s.dst

/-- Settles O25: equal codes give both cores the same widths, so each dimension has its bits at the same place of the
row, and PACK left the value's low bits there. -/
theorem unpackInvertsPack : Obligations.UnpackInvertsPack := by
  unfold Obligations.UnpackInvertsPack
  intro e e' r hpack hcoh hexec hfit hunpack hD hslot hcodes hbody
  obtain rfl := Host.Outcome.next.inj ((exec_of_runs id hpack).symm.trans hexec)
  have hpacked := hcoh.1
  have hsame := hslot
  rw [SlotTables.coherent, hcodes, hD] at hsame
  obtain ⟨hwidths, hbytes⟩ := codesCoherent_unique hsame hpacked
  refine ⟨_, exec_of_runs id hunpack, fun i hi d hd => (unpackEffect_restores r hi (hD ▸ hd)).trans ?_⟩
  refine unpackedByte_eq hslot (hD ▸ hd) (hwidths ▸ hfit i hi d hd) fun k hk => ?_
  rw [hwidths] at hk ⊢
  rw [hbytes, ← streamBit_packDst_dim hcoh hi hd hk]
  have hin := Nat.lt_of_lt_of_le (dimOff_add_lt hd hk) (dimOff_le_rowbytes hpacked)
  have hrow := Nat.mul_le_mul_right e.an.rowbytes.toNat (Nat.le_of_lt_succ hi)
  have hbyte := hbody (i * e.an.rowbytes.toNat + (dimOff e.an.weff d + k) / 8) (by omega)
  rw [← Nat.add_assoc, ← Nat.add_assoc] at hbyte
  exact congrArg (BitVec.getLsbD · ((dimOff e.an.weff d + k) % 8)) hbyte

end Sys2Proof.Machine
end

section
/-! The header codec (43_header_codec.md): the bits HDRPUT ORs into the header stream, the codes HDRDEC reads from it,
and that the second undoes the first. -/

namespace Sys2Proof.Machine

/-! ## The group GRPBEG opens (R192) -/

/-- Settles O16: the frame is that of `grpbegEffect`, the memory clause that of a zero fill. -/
theorem grpbegOpensAGroup : Obligations.GrpbegOpensAGroup := by
  unfold Obligations.GrpbegOpensAGroup
  intro s hruns
  exact ⟨_, exec_of_runs id hruns, rfl, advanceDstp_toNat, byte_zero s.dst _ _⟩

/-! ## The bits HDRPUT deposits (R93, R194, R195) -/

/-- A pad position has code 0. -/
theorem code_of_pad {d j : Nat} {h : List (BitVec 3)} {ws : List (BitVec 4)} {sbw : List (BitVec 7)}
    {mask : List Word} {rowbits : BitVec 20} {rowbytes : BitVec 16} {zb : Bool}
    (hc : codesCoherent d h ws sbw mask rowbits rowbytes zb) (hj : d ≤ j) : h.getD j 0 = 0 := by
  obtain ⟨-, -, -, -, hpad, -⟩ := hc
  by_cases hlt : j < h.length
  · exact hpad j hlt hj
  · exact List.getD_eq_default _ _ (by omega)

section
variable {s : State}

/-- Bit `k` of the stream at `HDRP`, as the header of stripe `st` sets it (R194). -/
def depositedBit (s : State) (k st : Nat) : Bool :=
  decide (putCursor s st ≤ k) && (s.an.shdr.getD st 0).getLsbD (k - putCursor s st)

/-- A stripe ORs its header into the stream from its cursor on: the four bytes hold the shifted header (R195). -/
theorem streamBit_putStripe (m : Memory) (k st : Nat) :
    (putStripe s m st).streamBit s.hdrp.toNat k = (m.streamBit s.hdrp.toNat k || depositedBit s k st) := by
  rw [putStripe, putAt, streamBit_or, Nat.testBit_shiftLeft, BitVec.testBit_toNat, depositedBit]
  congr 1
  have hpos : k - 8 * (putCursor s st / 8) - putCursor s st % 8 = k - putCursor s st := by omega
  rw [hpos]
  by_cases hfield : k - putCursor s st < 24
  · have hin : (8 * (putCursor s st / 8) ≤ k ∧ k < 8 * (putCursor s st / 8 + 4)) ∧
        k - 8 * (putCursor s st / 8) ≥ putCursor s st % 8 ↔ putCursor s st ≤ k := by omega
    rw [← Bool.and_assoc, ← Bool.decide_and, decide_eq_decide.2 hin]
  · simp only [BitVec.getLsbD_of_ge _ _ (Nat.not_lt.1 hfield), Bool.and_false]

/-- The bits a stripe sets are the set bits of the codes of its dimensions (R164, R194). -/
theorem depositedBit_iff (hcoh : s.an.coherent s.D) {k st : Nat} (hst : st < s.nstripes) :
    depositedBit s k st = true ↔ s.hcur.toNat ≤ k ∧ st = (k - s.hcur.toNat) / 24 ∧
      (s.an.h.getD ((k - s.hcur.toNat) / 3) 0).getLsbD ((k - s.hcur.toNat) % 3) = true := by
  obtain ⟨-, -, hlen, -, hheaders⟩ := hcoh
  have hst' : st < s.an.shdr.length := by rw [hlen]; exact hst
  have hbit (p : Nat) (hp : p < 24) := hheaders st hst' p hp
  rw [depositedBit, putCursor, Bool.and_eq_true, decide_eq_true_eq]
  have hplace (hle : s.hcur.toNat + 24 * st ≤ k) :
      8 * st + (k - (s.hcur.toNat + 24 * st)) / 3 = (k - s.hcur.toNat) / 3 ∧
      (k - (s.hcur.toNat + 24 * st)) % 3 = (k - s.hcur.toNat) % 3 := by omega
  constructor
  · rintro ⟨hle, hset⟩
    have hp := BitVec.lt_of_getLsbD hset
    obtain ⟨hdim, hpos⟩ := hplace hle
    rw [hbit _ hp, hdim, hpos] at hset
    exact ⟨by omega, by omega, hset⟩
  · rintro ⟨hle, rfl, hset⟩
    have hcur : s.hcur.toNat + 24 * ((k - s.hcur.toNat) / 24) ≤ k := by omega
    obtain ⟨hdim, hpos⟩ := hplace hcur
    rw [hbit _ (by omega), hdim, hpos]
    exact ⟨hcur, hset⟩

/-- The header stream after HDRPUT: the codes of all dimensions, three bits each from `HCUR` on, ORed into what was
there (R93, R195). -/
theorem streamBit_hdrputDst (hcoh : s.an.coherent s.D) (k : Nat) :
    (hdrputDst s).streamBit s.hdrp.toNat k = (s.dst.streamBit s.hdrp.toNat k ||
      (decide (s.hcur.toNat ≤ k ∧ k < s.hcur.toNat + 3 * s.D) &&
        (s.an.h.getD ((k - s.hcur.toNat) / 3) 0).getLsbD ((k - s.hcur.toNat) % 3))) := by
  have hns : s.nstripes = (s.D + 7) / 8 := rfl
  rw [hdrputDst, streamBit_foldl_or (fun m st _ => streamBit_putStripe m k st)]
  congr 1
  rw [Bool.eq_iff_iff, Bool.and_eq_true, decide_eq_true_eq, List.any_eq_true]
  constructor
  · rintro ⟨st, hst, hset⟩
    obtain ⟨hle, -, hbit⟩ := (depositedBit_iff hcoh (List.mem_range.1 hst)).1 hset
    have hdim : (k - s.hcur.toNat) / 3 < s.D := by
      by_contra hpad
      rw [code_of_pad hcoh.1 (Nat.not_lt.1 hpad)] at hbit
      exact absurd hbit (by simp)
    exact ⟨⟨hle, by omega⟩, hbit⟩
  · rintro ⟨⟨hle, hlt⟩, hbit⟩
    have hst : (k - s.hcur.toNat) / 24 < s.nstripes := by omega
    exact ⟨_, List.mem_range.2 hst, (depositedBit_iff hcoh hst).2 ⟨hle, rfl, hbit⟩⟩

/-- Before `HDRP` HDRPUT touches nothing (R196). -/
theorem hdrputDst_byte_before {x : Nat} (hx : x < s.hdrp.toNat) : (hdrputDst s).byte x = s.dst.byte x := by
  refine (hdrput_dstWrites s).byte_eq (mt (reaches_hdrputFootprint s .dst x).1 ?_)
  rintro ⟨-, st, -, hlo, -⟩
  omega

end

/-- Settles O17: the frame is that of `hdrputEffect`, the header stream is `streamBit_hdrputDst`. -/
theorem hdrputDepositsTheCodes : Obligations.HdrputDepositsTheCodes := by
  unfold Obligations.HdrputDepositsTheCodes
  intro s hruns hcoh
  exact ⟨_, exec_of_runs id hruns, rfl, advanceHcur_toNat, streamBit_hdrputDst hcoh, fun _ => hdrputDst_byte_before⟩

/-! ## The codes HDRDEC reads (R93, R198, R199) -/

/-- Bit `k` of the code of dimension `d` of slot `b` is the stream bit that the format gives it (R93, R199). -/
theorem getLsbD_headerCodes (s : State) (b : Nat) {d k : Nat} (hd : d < s.D) (hk : k < 3) :
    ((headerCodes s b).getD d 0).getLsbD k = s.src.streamBit s.srcp.toNat (3 * (b * s.D + d) + k) := by
  have hns : s.nstripes = (s.D + 7) / 8 := rfl
  have hst : d / 8 < s.nstripes := by omega
  have hj : d % 8 < 8 := Nat.mod_lt d (by decide)
  have hnd : d % 8 < s.nd (d / 8) := by
    rw [← Nat.not_le, nd_le_iff s _ hj]
    omega
  have hentry := headerCodes_getD s b hst hj
  rw [Nat.div_add_mod] at hentry
  have hcur : getCursor s b (d / 8) + (3 * (d % 8) + k) = 3 * (b * s.D + d) + k := by
    rw [getCursor, Nat.mul_assoc]
    omega
  rw [hentry, getLsbD_stripeCodes s b _ hj hk, testBit_headerField s hst (by omega), hcur]

/-- The codes HDRDEC leaves for a slot (R198). -/
theorem hdrdecEffect_codes (s : State) {b : Nat} (hb : b < 2) :
    (if b = 0 then (hdrdecEffect s).g0.gh else (hdrdecEffect s).g1.gh) = headerCodes s b := by
  interval_cases b <;> rfl

/-- Settles O18: the frame is that of `hdrdecEffect`, the tables are `headerTables_coherent`, and the codes of each slot
`getLsbD_headerCodes`. -/
theorem hdrdecReadsTheCodes : Obligations.HdrdecReadsTheCodes := by
  unfold Obligations.HdrdecReadsTheCodes
  intro s hruns
  refine ⟨_, exec_of_runs id hruns, rfl, advanceSrcp_toNat, headerTables_coherent s 0, headerTables_coherent s 1,
    fun d hd k hk => ?_⟩
  have hslot0 := getLsbD_headerCodes s 0 hd hk
  have hslot1 := getLsbD_headerCodes s 1 hd hk
  rw [Nat.zero_mul, Nat.zero_add] at hslot0
  rw [Nat.one_mul] at hslot1
  exact ⟨hslot0, hslot1⟩

/-! ## HDRDEC undoes HDRPUT (R204) -/

/-- The codes of a slot are a coherent table's codes if each dimension's three bits stand in the header stream: the pad
positions are 0 on both sides. -/
theorem headerCodes_eq {s : State} {b : Nat} {h : List (BitVec 3)} {ws : List (BitVec 4)} {sbw : List (BitVec 7)}
    {mask : List Word} {rowbits : BitVec 20} {rowbytes : BitVec 16} {zb : Bool}
    (hc : codesCoherent s.D h ws sbw mask rowbits rowbytes zb)
    (hbits : ∀ d < s.D, ∀ k < 3,
      s.src.streamBit s.srcp.toNat (3 * (b * s.D + d) + k) = (h.getD d 0).getLsbD k) :
    headerCodes s b = h := by
  have hentry (d : Nat) : (headerCodes s b).getD d 0 = h.getD d 0 := by
    by_cases hd : d < s.D
    · exact BitVec.eq_of_getLsbD_eq fun k hk => (getLsbD_headerCodes s b hd hk).trans (hbits d hd k hk)
    · rw [headerCodes_pad (Nat.not_lt.1 hd), code_of_pad hc (Nat.not_lt.1 hd)]
  obtain ⟨hlen, -⟩ := hc
  refine List.ext_getElem ((length_headerCodes s b).trans hlen.symm) fun d hd hd' => ?_
  rw [← List.getD_eq_getElem _ 0 hd, ← List.getD_eq_getElem _ 0 hd']
  exact hentry d

/-- Into header bits that are 0 HDRPUT deposits exactly the codes (R195). -/
theorem streamBit_hdrputDst_dim {s : State} (hcoh : s.an.coherent s.D) {d k : Nat} (hd : d < s.D) (hk : k < 3)
    (hzero : s.dst.streamBit s.hdrp.toNat (s.hcur.toNat + (3 * d + k)) = false) :
    (hdrputDst s).streamBit s.hdrp.toNat (s.hcur.toNat + (3 * d + k)) = (s.an.h.getD d 0).getLsbD k := by
  have hdim : (3 * d + k) / 3 = d := by omega
  have hbit : (3 * d + k) % 3 = k := by omega
  have hin : s.hcur.toNat ≤ s.hcur.toNat + (3 * d + k) ∧
      s.hcur.toNat + (3 * d + k) < s.hcur.toNat + 3 * s.D := by omega
  rw [streamBit_hdrputDst hcoh, hzero, Nat.add_sub_cancel_left, hdim, hbit, decide_eq_true hin, Bool.true_and,
    Bool.false_or]

/-- Settles O19: HDRPUT left each code's bits where HDRDEC reads them, and the header bytes are the same in both
cores. -/
theorem hdrdecInvertsHdrput : Obligations.HdrdecInvertsHdrput := by
  unfold Obligations.HdrdecInvertsHdrput
  intro e e' r b hb hput hcoh hcur hzero hexec hdec hD hbytes
  obtain rfl := Host.Outcome.next.inj ((exec_of_runs id hput).symm.trans hexec)
  have hcodes : headerCodes r b = e.an.h := by
    refine headerCodes_eq (hD ▸ hcoh.1) fun d hd k hk => ?_
    rw [hD] at hd ⊢
    have hpos : 3 * (b * e.D + d) + k = e.hcur.toNat + (3 * d + k) := by
      rw [hcur, Nat.mul_assoc]
      omega
    have hslot := Nat.mul_le_mul_right e.D (Nat.le_of_lt_succ hb)
    have hbyte := hbytes ((3 * (b * e.D + d) + k) / 8) (by omega)
    have hdeposit := streamBit_hdrputDst_dim hcoh hd hk (by rw [hcur]; exact hzero _ (by omega))
    rw [← hpos] at hdeposit
    exact (congrArg (BitVec.getLsbD · _) hbyte).trans hdeposit
  exact ⟨_, exec_of_runs id hdec, (hdrdecEffect_codes r hb).trans hcodes⟩

end Sys2Proof.Machine
end

section
/-! The delta and zig-zag stage (44_delta_zigzag.md): each row of differences against the record before it, the state
ZZENC and ZZDEC leave, and that the second undoes the first. -/

namespace Sys2Proof.Machine

/-! ## Rows and the record before each (R212, R215) -/

section
variable {prev row us : List Byte} {rows : List (List Byte)} {i d : Nat}

/-- Row `i` of the differences: record `i` against the one before it, `prev` before the first (R212). -/
theorem encRows_getD (hi : i < rows.length) :
    (encRows prev rows).getD i [] = encRow ((prev :: rows).getD i []) (rows.getD i []) := by
  induction rows generalizing prev i with
  | nil => exact absurd hi (Nat.not_lt_zero i)
  | cons row rows ih =>
    cases i with
    | zero => rfl
    | succ i => exact ih (Nat.lt_of_succ_lt_succ hi)

/-- Record `i` of the running sums: row `i` of the differences on top of the record before it, `prev` before the first
(R215). -/
theorem decRows_getD (hi : i < rows.length) :
    (decRows prev rows).getD i [] = decRow ((prev :: decRows prev rows).getD i []) (rows.getD i []) := by
  induction rows generalizing prev i with
  | nil => exact absurd hi (Nat.not_lt_zero i)
  | cons us rows ih =>
    cases i with
    | zero => rfl
    | succ i => exact ih (Nat.lt_of_succ_lt_succ hi)

@[simp] theorem numRows_encRows (prev : List Byte) (rows : List (List Byte)) :
    (encRows prev rows).length = rows.length := by
  induction rows generalizing prev with
  | nil => rfl
  | cons row rows ih => exact congrArg Nat.succ (ih row)

@[simp] theorem numRows_decRows (prev : List Byte) (rows : List (List Byte)) :
    (decRows prev rows).length = rows.length := by
  induction rows generalizing prev with
  | nil => rfl
  | cons us rows ih => exact congrArg Nat.succ (ih (decRow prev us))

/-- Rows as long as the record before them stand for records each as long (R215). -/
theorem length_of_mem_decRows (h : ∀ us ∈ rows, us.length = prev.length) (hrow : row ∈ decRows prev rows) :
    row.length = prev.length := by
  induction rows generalizing prev with
  | nil => cases hrow
  | cons us rows ih =>
    have hfirst : (decRow prev us).length = prev.length := by simp [decRow, h us List.mem_cons_self]
    rcases List.mem_cons.1 hrow with rfl | hlater
    · exact hfirst
    · exact (ih (fun us hus => (h us (List.mem_cons_of_mem _ hus)).trans hfirst.symm) hlater).trans hfirst

theorem encRow_getD (hprev : d < prev.length) (hrow : d < row.length) :
    (encRow prev row).getD d 0 = zz (row.getD d 0 - prev.getD d 0) := by
  simp [encRow, List.getD_eq_getElem?_getD, hprev, hrow]

theorem decRow_getD (hprev : d < prev.length) (hus : d < us.length) :
    (decRow prev us).getD d 0 = prev.getD d 0 + unzz (us.getD d 0) := by
  simp [decRow, List.getD_eq_getElem?_getD, hprev, hus]

/-- An entry of a row given column by column. -/
theorem columns_getD {n : Nat} (f : Nat → Byte) (hd : d < n) : ((List.range n).map f).getD d 0 = f d := by
  simp [List.getD_eq_getElem?_getD, hd]

/-- The pad columns read as the entries past a row's end do (R30). -/
theorem padRow_getD (n : Nat) (row : List Byte) (j : Nat) : (padRow n row).getD j 0 = row.getD j 0 := by
  rcases Nat.lt_or_ge j row.length with hj | hj
  · exact List.getD_append row _ 0 j hj
  · rw [padRow, List.getD_append_right _ _ _ _ hj, List.getD_eq_default _ _ hj]
    simp

/-- An entry of rows of `w` entries laid end to end. -/
theorem getD_flatten {w : Nat} (hw : ∀ row ∈ rows, row.length = w) (hi : i < rows.length) (hd : d < w) :
    rows.flatten.getD (i * w + d) 0 = (rows.getD i []).getD d 0 := by
  induction rows generalizing i with
  | nil => exact absurd hi (Nat.not_lt_zero i)
  | cons row rows ih =>
    have hlen : row.length = w := hw row List.mem_cons_self
    rw [List.flatten_cons]
    cases i with
    | zero => rw [Nat.zero_mul, Nat.zero_add, List.getD_append _ _ _ _ (hlen ▸ hd), List.getD_cons_zero]
    | succ i =>
      have hplace : (i + 1) * w + d - w = i * w + d := by rw [Nat.succ_mul]; omega
      rw [List.getD_append_right _ _ _ _ (by rw [hlen, Nat.succ_mul]; omega), hlen, hplace, List.getD_cons_succ]
      exact ih (fun row hrow => hw row (List.mem_cons_of_mem _ hrow)) (Nat.lt_of_succ_lt_succ hi)

/-- The last of eight records. -/
theorem getLastD_of_length_eight (h : rows.length = 8) : rows.getLastD prev = rows.getD 7 [] := by
  rw [List.getLastD_eq_getLast?, List.getLast?_eq_getElem?, List.getD_eq_getElem?_getD, h,
    List.getElem?_eq_getElem (by omega)]
  rfl

end

section
variable (s : State) {i d : Nat}

@[simp] theorem length_prevRow : s.prevRow.length = s.D := by simp [State.prevRow]

theorem prevRow_getD (hd : d < s.D) : s.prevRow.getD d 0 = s.prevAt d :=
  columns_getD s.prevAt hd

theorem srcRows_getD (hi : i < 8) : s.srcRows.getD i [] = (List.range s.D).map (s.srcAt i) := by
  simp [State.srcRows, List.getD_eq_getElem?_getD, hi]

theorem bufRows_getD (hi : i < 8) : s.bufRows.getD i [] = (List.range s.D).map (s.blkAt i) := by
  simp [State.bufRows, List.getD_eq_getElem?_getD, hi]

/-! ## ZZENC (R212) -/

/-- Row `i` of the new `BLKBUF`, its pad columns included: record `i` against the one before it (R212). -/
theorem blkAt_zzencEffect (hi : i < 8) (j : Nat) :
    (zzencEffect s).blkAt i j =
      (encRow ((s.prevRow :: s.srcRows).getD i []) ((List.range s.D).map (s.srcAt i))).getD j 0 := by
  have hlen : i < s.srcRows.length := by simpa [State.srcRows] using hi
  have hrow : (zzencEffect s).blkbuf.getD i [] =
      padRow (8 * s.nstripes) ((encRows s.prevRow s.srcRows).getD i []) := by
    simp [zzencEffect, State.respond, List.getD_eq_getElem?_getD, hlen]
  rw [State.blkAt, hrow, padRow_getD, encRows_getD hlen, srcRows_getD s hi]

theorem blkAt_zzencEffect_zero (hd : d < s.D) :
    (zzencEffect s).blkAt 0 d = zz (s.srcAt 0 d - s.prevAt d) := by
  rw [blkAt_zzencEffect s (by decide), List.getD_cons_zero, encRow_getD (by simpa) (by simpa), columns_getD _ hd,
    prevRow_getD s hd]

theorem blkAt_zzencEffect_succ (hi : i < 7) (hd : d < s.D) :
    (zzencEffect s).blkAt (i + 1) d = zz (s.srcAt (i + 1) d - s.srcAt i d) := by
  rw [blkAt_zzencEffect s (Nat.succ_lt_succ hi), List.getD_cons_succ, srcRows_getD s (by omega),
    encRow_getD (by simpa) (by simpa), columns_getD _ hd, columns_getD _ hd]

/-- The pad columns are 0 (R30, R212). -/
theorem blkAt_zzencEffect_pad (hi : i < 8) {j : Nat} (hpad : s.D ≤ j) : (zzencEffect s).blkAt i j = 0 := by
  rw [blkAt_zzencEffect s hi]
  exact List.getD_eq_default _ _ (by simp [encRow, hpad])

/-- `PREV` keeps the last record (R212). -/
theorem prevAt_zzencEffect (hd : d < s.D) : (zzencEffect s).prevAt d = s.srcAt 7 d := by
  have hlast : (zzencEffect s).prev = (List.range s.D).map (s.srcAt 7) := rfl
  rw [State.prevAt, hlast, columns_getD _ hd]

end

/-- Settles O28: the frame is that of `zzencEffect`, its rows are `blkAt_zzencEffect_zero`, `blkAt_zzencEffect_succ` and
`blkAt_zzencEffect_pad`. -/
theorem zzencComputesDeltas : Obligations.ZzencComputesDeltas := by
  unfold Obligations.ZzencComputesDeltas
  intro s hruns
  exact ⟨_, exec_of_runs id hruns, rfl,
    fun d hd => ⟨blkAt_zzencEffect_zero s hd, prevAt_zzencEffect s hd, fun i hi => blkAt_zzencEffect_succ s hi hd⟩,
    fun i hi j _ hpad => blkAt_zzencEffect_pad s hi hpad⟩

/-! ## ZZDEC (R215, R216) -/

section
variable (s : State) {i d : Nat}

/-- The byte ZZDEC reconstructs for record `i` and dimension `d` (R215). -/
def decodedByte (s : State) (i d : Nat) : Byte := ((zzdecRows s).getD i []).getD d 0

@[simp] theorem numRows_zzdecRows : (zzdecRows s).length = 8 := by simp [zzdecRows, State.bufRows]

theorem length_of_mem_zzdecRows {row : List Byte} (hrow : row ∈ zzdecRows s) : row.length = s.D :=
  (length_of_mem_decRows (by simp [State.bufRows]) hrow).trans (length_prevRow s)

/-- Record `i` on top of the one before it (R215). -/
theorem zzdecRows_getD (hi : i < 8) :
    (zzdecRows s).getD i [] = decRow ((s.prevRow :: zzdecRows s).getD i []) ((List.range s.D).map (s.blkAt i)) := by
  rw [← bufRows_getD s hi]
  exact decRows_getD (by simpa [State.bufRows] using hi)

theorem decodedByte_zero (hd : d < s.D) : decodedByte s 0 d = s.prevAt d + unzz (s.blkAt 0 d) := by
  rw [decodedByte, zzdecRows_getD s (by decide), List.getD_cons_zero, decRow_getD (by simpa) (by simpa),
    prevRow_getD s hd, columns_getD _ hd]

theorem decodedByte_succ (hi : i < 7) (hd : d < s.D) :
    decodedByte s (i + 1) d = decodedByte s i d + unzz (s.blkAt (i + 1) d) := by
  have hin : i < (zzdecRows s).length := by rw [numRows_zzdecRows]; omega
  have hbefore : ((zzdecRows s).getD i []).length = s.D := by
    rw [List.getD_eq_getElem _ _ hin]
    exact length_of_mem_zzdecRows s (List.getElem_mem hin)
  rw [decodedByte, zzdecRows_getD s (Nat.succ_lt_succ hi), List.getD_cons_succ,
    decRow_getD (by rwa [hbefore]) (by simpa), columns_getD _ hd, decodedByte]

/-- The records stand in DST one after the other from `DSTP` on (R215). -/
theorem byte_zzdecEffect (hi : i < 8) (hd : d < s.D) :
    (zzdecEffect s).dst.byte (s.dstp.toNat + i * s.D + d) = decodedByte s i d := by
  have hdst : (zzdecEffect s).dst = s.dst.put s.dstp.toNat (zzdecRows s).flatten := rfl
  have hblock : i * s.D + d < s.blockBytes := by
    have hrow := Nat.mul_le_mul_right s.D (Nat.le_of_lt_succ hi)
    rw [State.blockBytes]
    omega
  rw [hdst, Nat.add_assoc, byte_put, length_zzdecRows, if_pos (by omega), Nat.add_sub_cancel_left,
    getD_flatten (fun _ => length_of_mem_zzdecRows s) (by rwa [numRows_zzdecRows]) hd, decodedByte]

/-- No byte of DST outside the block changes (R216). -/
theorem byte_zzdecEffect_outside {x : Nat} (hx : x < s.dstp.toNat ∨ s.dstp.toNat + 8 * s.D ≤ x) :
    (zzdecEffect s).dst.byte x = s.dst.byte x :=
  byte_put_outside s.dst (by rwa [length_zzdecRows])

/-- `PREV` keeps the last record (R215). -/
theorem prevAt_zzdecEffect (d : Nat) : (zzdecEffect s).prevAt d = decodedByte s 7 d :=
  congrArg (List.getD · d 0) (getLastD_of_length_eight (prev := s.prevRow) (numRows_zzdecRows s))

end

/-- Settles O29: the frame is that of `zzdecEffect`; the bytes of the block are `decodedByte`, which sums the
differences up record by record. -/
theorem zzdecAccumulatesDeltas : Obligations.ZzdecAccumulatesDeltas := by
  unfold Obligations.ZzdecAccumulatesDeltas
  intro s hruns
  refine ⟨_, exec_of_runs id hruns, rfl, advanceDstp_toNat, fun d hd => ⟨?first, ?last, fun i hi => ?next⟩,
    fun x => byte_zzdecEffect_outside s⟩
  case first =>
    have hbyte := byte_zzdecEffect s (i := 0) (by decide) hd
    rw [Nat.zero_mul, Nat.add_zero] at hbyte
    exact hbyte.trans (decodedByte_zero s hd)
  case last => exact (prevAt_zzdecEffect s d).trans (byte_zzdecEffect s (by decide) hd).symm
  case next =>
    calc (zzdecEffect s).dst.byte (s.dstp.toNat + (i + 1) * s.D + d)
      _ = decodedByte s (i + 1) d := byte_zzdecEffect s (Nat.succ_lt_succ hi) hd
      _ = decodedByte s i d + unzz (s.blkAt (i + 1) d) := decodedByte_succ s hi hd
      _ = _ := by rw [← byte_zzdecEffect s (by omega) hd]; rfl

/-! ## ZZDEC undoes ZZENC (R217) -/

/-- The decoded difference of two bytes, added to the first, gives the second: zig-zag loses nothing, and the sum undoes
the difference mod 256 (R132, R133). -/
theorem add_unzz_zz_sub (p x : Byte) : p + unzz (zz (x - p)) = x := by
  rw [unzz_zz, BitVec.add_comm, BitVec.sub_add_cancel]

/-- Settles O30: record by record, from the same `PREV` on, ZZDEC adds up again what ZZENC took apart. -/
theorem zzdecInvertsZzenc : Obligations.ZzdecInvertsZzenc := by
  unfold Obligations.ZzdecInvertsZzenc
  intro e e' r henc hexec hdec hD hbuf hprev
  obtain rfl := Host.Outcome.next.inj ((exec_of_runs id henc).symm.trans hexec)
  have hrecord (i : Nat) (hi : i < 8) (d : Nat) (hd : d < e.D) : decodedByte r i d = e.srcAt i d := by
    induction i with
    | zero =>
      rw [decodedByte_zero r (hD ▸ hd), hprev d hd, hbuf 0 hi d hd]
      exact (congrArg (e.prevAt d + unzz ·) (blkAt_zzencEffect_zero e hd)).trans (add_unzz_zz_sub _ _)
    | succ i ih =>
      have hi' : i < 7 := Nat.lt_of_succ_lt_succ hi
      rw [decodedByte_succ r hi' (hD ▸ hd), ih (by omega), hbuf (i + 1) hi d hd]
      exact (congrArg (e.srcAt i d + unzz ·) (blkAt_zzencEffect_succ e hi' hd)).trans (add_unzz_zz_sub _ _)
  refine ⟨_, exec_of_runs id hdec, fun i hi d hd => ?block, fun d hd => ?prev⟩
  case block =>
    rw [← hD] at hd ⊢
    exact (byte_zzdecEffect r hi hd).trans (hrecord i hi d (hD ▸ hd))
  case prev =>
    calc (zzdecEffect r).prevAt d
      _ = decodedByte r 7 d := prevAt_zzdecEffect r d
      _ = e.srcAt 7 d := hrecord 7 (by decide) d hd
      _ = (zzencEffect e).prevAt d := (prevAt_zzencEffect e hd).symm

end Sys2Proof.Machine
end

section
/-! The RLE block detector (45_rle.md): the bytes of a length field and their parse, the three outcomes of RLE, the fields
RLEFLUSH writes, the run RLEDEC expands. -/

namespace Sys2Proof.Machine

/-! ## Length fields (R97, R221, R225) -/

/-- A byte string stands in memory where it was written, whatever else the same write put after it (R64). -/
theorem bytes_put_append (m : Memory) (a : Nat) (bs rest : List Byte) :
    (m.put a (bs ++ rest)).bytes a bs.length = bs := by
  apply List.ext_getElem (length_bytes _ _ _)
  intro k hk hk'
  have hin : a ≤ a + k ∧ a + k < a + (bs ++ rest).length := by
    rw [List.length_append]
    omega
  rw [← List.getD_eq_getElem _ 0 hk, getD_bytes _ _ hk', byte_put, if_pos hin, Nat.add_sub_cancel_left,
    List.getD_append _ _ _ _ hk', List.getD_eq_getElem _ 0 hk']

/-- A length up to `7F` is its own field (R97). -/
theorem toNat_byte_of_short {m : Memory} {a n : Nat} (hn : n ≤ 0x7F)
    (hfield : m.bytes a (lenfield n).length = lenfield n) : (m.byte a).toNat = n := by
  have hbyte : m.byte a = BitVec.ofNat 8 n := by simpa [lenfield, hn, Memory.bytes] using hfield
  rw [hbyte, BitVec.toNat_ofNat, Nat.mod_eq_of_lt (by omega)]

/-- A longer length has its low seven bits in the first byte, below a set bit 7, and the others in the second (R97). -/
theorem toNat_byte_of_long {m : Memory} {a n : Nat} (hn : 0x7F < n) (hmax : n ≤ 0x7FFF)
    (hfield : m.bytes a (lenfield n).length = lenfield n) :
    (m.byte a).toNat = 0x80 + n % 0x80 ∧ (m.byte (a + 1)).toNat = n / 0x80 := by
  have hlow : n &&& 0x7F = n % 0x80 := Nat.and_two_pow_sub_one_eq_mod n 7
  have hhead : 0x80 ||| n % 0x80 = 0x80 + n % 0x80 :=
    (Nat.two_pow_add_eq_or_of_lt (i := 7) (Nat.mod_lt n (by decide)) 1).symm
  obtain ⟨h0, h1⟩ : m.byte a = BitVec.ofNat 8 (0x80 ||| (n &&& 0x7F)) ∧ m.byte (a + 1) = BitVec.ofNat 8 (n >>> 7) := by
    simpa [lenfield, Nat.not_le.2 hn, Memory.bytes, List.range_succ] using hfield
  rw [h0, h1, hlow, hhead, BitVec.toNat_ofNat, BitVec.toNat_ofNat, Nat.shiftRight_eq_div_pow]
  omega

/-- The length a field stands for, in plain arithmetic (R225). -/
theorem lenfieldValue_eq_ite (b0 b1 : Byte) :
    lenfieldValue b0 b1 = if b0.toNat < 0x80 then b0.toNat else b0.toNat - 0x80 + 0x80 * b1.toNat := by
  have hlow : (b0 &&& 0x7F).toNat = b0.toNat % 0x80 :=
    (BitVec.toNat_and b0 0x7F).trans (Nat.and_two_pow_sub_one_eq_mod b0.toNat 7)
  have hor : b0.toNat % 0x80 ||| b1.toNat <<< 7 = b1.toNat <<< 7 + b0.toNat % 0x80 := by
    rw [Nat.or_comm, Nat.shiftLeft_add_eq_or_of_lt (Nat.mod_lt _ (by decide))]
  have hb0 := b0.isLt
  simp only [lenfieldValue, lenfieldLong_iff, ite_not, hlow]
  rw [hor, Nat.shiftLeft_eq]
  split <;> omega

section
variable (s : State)

/-- The run length at `SRCP`, in plain arithmetic (R225). -/
theorem runLength_eq_ite :
    runLength s = if (s.src.byte s.srcp.toNat).toNat < 0x80 then (s.src.byte s.srcp.toNat).toNat
      else (s.src.byte s.srcp.toNat).toNat - 0x80 + 0x80 * (s.src.byte (s.srcp.toNat + 1)).toNat :=
  lenfieldValue_eq_ite _ _

/-- A field has a second byte when its first is at least `80` (R225). -/
theorem runFieldLen_eq_ite : runFieldLen s = if (s.src.byte s.srcp.toNat).toNat < 0x80 then 1 else 2 := by
  simp only [runFieldLen, runByte0, lenfieldLong_iff, ite_not]

end

/-- Settles O35, for the short and the long form of the field. -/
theorem lengthFieldParses : Obligations.LengthFieldParses := by
  unfold Obligations.LengthFieldParses
  intro s n hmax hfield
  rw [runLength_eq_ite, runFieldLen_eq_ite]
  rcases Nat.lt_or_ge 0x7F n with hn | hn
  · obtain ⟨h0, h1⟩ := toNat_byte_of_long hn hmax hfield
    rw [length_lenfield, h0, h1, if_neg (by omega), if_neg (by omega), if_neg (by omega)]
    exact ⟨by omega, rfl, rfl⟩
  · have h0 := toNat_byte_of_short hn hfield
    rw [length_lenfield, h0, if_pos (by omega), if_pos (by omega), if_pos hn]
    exact ⟨rfl, rfl, rfl⟩

/-! ## The outcomes of RLE (R222) -/

section
variable {s : State}

theorem rleEffect_of_absorbs (h : s.an.zb = true ∧ s.run.toNat < s.maxRun.toNat) : rleEffect s = rleAbsorb s :=
  if_pos ((absorbs_iff s).2 h)

theorem rleEffect_of_open_run (h : ¬(s.an.zb = true ∧ s.run.toNat < s.maxRun.toNat)) (hrun : 0 < s.run.toNat) :
    rleEffect s = rleClose s := by
  rw [rleEffect, if_neg (mt (absorbs_iff s).1 h), if_pos (mt (run_eq_zero_iff s).1 hrun.ne')]

theorem rleEffect_of_no_run (h : ¬(s.an.zb = true ∧ s.run.toNat < s.maxRun.toNat)) (hrun : ¬0 < s.run.toNat) :
    rleEffect s = s.respond .pass 0 := by
  rw [rleEffect, if_neg (mt (absorbs_iff s).1 h),
    if_neg (not_not.2 ((run_eq_zero_iff s).2 (Nat.eq_zero_of_not_pos hrun)))]

variable (s)

/-- A run fits the longest field (R28). -/
theorem run_le : s.run.toNat ≤ 0x7FFF := Nat.le_of_lt_succ s.run.isLt

/-- CLOSE leaves the field of the run at `DSTP`. -/
theorem bytes_rleClose :
    (rleClose s).dst.bytes s.dstp.toNat (lenfield s.run.toNat).length = lenfield s.run.toNat := by
  have h := bytes_put_append s.dst s.dstp.toNat (lenfield s.run.toNat) []
  rwa [List.append_nil] at h

/-- CLOSE changes no byte outside the field. -/
theorem byte_rleClose_outside {x : Nat}
    (hx : x < s.dstp.toNat ∨ s.dstp.toNat + (if s.run.toNat ≤ 0x7F then 1 else 2) ≤ x) :
    (rleClose s).dst.byte x = s.dst.byte x :=
  byte_put_outside s.dst (by rwa [length_lenfield])

/-- The response of a CLOSE carries the run (R113, R222). -/
theorem rspWord_close_toNat :
    (rspWord 0 RspOutcome.close.code (s.run.setWidth 48)).toNat = 0x200 + 65536 * s.run.toNat := by
  have hrun := run_le s
  rw [rspWord_toNat, BitVec.toNat_setWidth, Nat.mod_eq_of_lt (by omega)]
  rfl

end

/-- Settles O31, outcome by outcome. -/
theorem rleTakesOneOfThreeOutcomes : Obligations.RleTakesOneOfThreeOutcomes := by
  unfold Obligations.RleTakesOneOfThreeOutcomes
  intro s hruns
  have hexec : exec .rle s = .next (rleEffect s) := exec_of_runs id hruns
  split
  case isTrue habsorb =>
    rw [rleEffect_of_absorbs habsorb] at hexec
    exact ⟨_, hexec, rfl, advanceSrcp_toNat⟩
  case isFalse hkeep =>
    split
    case isTrue hrun =>
      rw [rleEffect_of_open_run hkeep hrun] at hexec
      have hfield := bytes_rleClose s
      refine ⟨_, _, hexec, rfl, rspWord_close_toNat s, ?moved, advanceHcur_toNat, fun hshort => ?short,
        fun hlong => ?long⟩
      case moved =>
        rw [← length_lenfield]
        exact advanceDstp_toNat
      case short =>
        exact ⟨toNat_byte_of_short hshort hfield, fun x hx => byte_rleClose_outside s (by rw [if_pos hshort]; omega)⟩
      case long =>
        obtain ⟨h0, h1⟩ := toNat_byte_of_long hlong (run_le s) hfield
        exact ⟨h0, h1, fun x hx hx1 => byte_rleClose_outside s (by rw [if_neg (by omega)]; omega)⟩
    case isFalse hrun =>
      rw [rleEffect_of_no_run hkeep hrun] at hexec
      exact hexec

/-- Settles O32: of the three outcomes only PASS answers `300`, and with a cap of at least 1 a zero block without an open
run would be absorbed. -/
theorem rlePassesOnlyNonzeroBlocks : Obligations.RlePassesOnlyNonzeroBlocks := by
  unfold Obligations.RlePassesOnlyNonzeroBlocks
  intro s t hruns hcap hexec hpass
  have houtcome := rleTakesOneOfThreeOutcomes s hruns
  split at houtcome
  case isTrue =>
    obtain ⟨t', hexec', ht, -⟩ := houtcome
    obtain rfl := Host.Outcome.next.inj (hexec.symm.trans hexec')
    have hrsp := hpass.symm.trans (congrArg State.rsp ht)
    exact absurd (Option.some.inj hrsp) (by decide)
  case isFalse hkeep =>
    split at houtcome
    case isTrue =>
      obtain ⟨t', r, hexec', ht, hr, -⟩ := houtcome
      obtain rfl := Host.Outcome.next.inj (hexec.symm.trans hexec')
      obtain rfl : 0x300 = r := Option.some.inj (hpass.symm.trans (congrArg State.rsp ht))
      have hvalue : (0x300 : Word).toNat = 0x300 := rfl
      omega
    case isFalse hrun =>
      have hzb : s.an.zb ≠ true := fun hzb => hkeep ⟨hzb, by omega⟩
      exact ⟨Bool.eq_false_of_not_eq_true hzb, Nat.eq_zero_of_not_pos hrun,
        Host.Outcome.next.inj (hexec.symm.trans houtcome)⟩

/-! ## The fields of RLEFLUSH (R226) -/

section
variable (s : State)

theorem flushRun_of_pos (hrun : s.run.toNat ≠ 0) : flushRun s = lenfield s.run.toNat :=
  if_pos (mt (run_eq_zero_iff s).1 hrun)

theorem length_flushRun :
    (flushRun s).length = if s.run.toNat = 0 then 0 else if s.run.toNat ≤ 0x7F then 1 else 2 := by
  rw [← length_lenfield, ← List.length_nil (α := Byte), ← apply_ite List.length]
  simp only [flushRun, ne_eq, run_eq_zero_iff, ite_not, List.length_nil]

theorem flushRunSlots_eq_ite : flushRunSlots s = if s.run.toNat = 0 then 0 else 1 := by
  simp only [flushRunSlots, ne_eq, run_eq_zero_iff, ite_not]

theorem flushEmptySlots_eq : flushEmptySlots s = 2 - s.blk.toNat - if s.run.toNat = 0 then 0 else 1 := by
  rw [flushEmptySlots, flushRunSlots_eq_ite, Nat.sub_sub]

/-- The fields of a flush take the slots that are open (R226). -/
theorem flushSlots_eq (hblk : s.blk.toNat ≤ 2) (hrun : 0 < s.run.toNat → s.blk.toNat < 2) :
    flushRunSlots s + flushEmptySlots s = 2 - s.blk.toNat := by
  rw [flushEmptySlots_eq, flushRunSlots_eq_ite]
  split <;> omega

/-- The field of the open run stands at `DSTP` after the flush. -/
theorem bytes_rleflushEffect (hrun : s.run.toNat ≠ 0) :
    (rleflushEffect s).dst.bytes s.dstp.toNat (lenfield s.run.toNat).length = lenfield s.run.toNat := by
  rw [← flushRun_of_pos s hrun]
  exact bytes_put_append s.dst s.dstp.toNat (flushRun s) _

/-- The fields after it hold 0. -/
theorem byte_rleflushEffect_empty {k : Nat} (hk : k < flushEmptySlots s) :
    (rleflushEffect s).dst.byte (s.dstp.toNat + (flushRun s).length + k) = 0 := by
  have hin : (flushRun s).length + k < (flushBytes s).length := by
    rw [flushBytes, List.length_append, List.length_replicate]
    omega
  have hdst : (rleflushEffect s).dst = s.dst.put s.dstp.toNat (flushBytes s) := rfl
  rw [hdst, Nat.add_assoc, byte_put, if_pos (by omega), Nat.add_sub_cancel_left, flushBytes,
    List.getD_append_right _ _ _ _ (by omega), Nat.add_sub_cancel_left, List.getD_replicate _ hk]

end

/-- Settles O33: the frame is that of `rleflushEffect`, whose slots fill the group; the bytes are those of a write of the
run's field and the zero fields after it. -/
theorem rleflushFillsTheGroup : Obligations.RleflushFillsTheGroup := by
  unfold Obligations.RleflushFillsTheGroup
  intro s hruns hblk hopen f z
  have hexec : exec .rleflush s = .next (rleflushEffect s) := exec_of_runs id hruns
  have hf : (flushRun s).length = f := length_flushRun s
  have hz : flushEmptySlots s = z := flushEmptySlots_eq s
  have hlen : (flushBytes s).length = f + z := by
    rw [flushBytes, List.length_append, List.length_replicate, hf, hz]
  have hslots := flushSlots_eq s hblk hopen
  have hfull : (rleflushEffect s).blk = 2 := by
    simp only [rleflushEffect, respond_blk]
    rw [Nat.add_assoc, hslots, Nat.add_sub_cancel' hblk]
    rfl
  refine ⟨_, hexec, ?frame, ?dstp, ?hcur, fun hshort => ?short, fun hlong => ?long, fun k hk => ?empty,
    fun x hx => ?outside⟩
  case frame => exact congrArg (fun b => { rleflushEffect s with blk := b }) hfull
  case dstp =>
    rw [← hlen]
    exact advanceDstp_toNat
  case hcur =>
    rw [← hslots]
    exact advanceHcur_toNat
  case short =>
    obtain ⟨hrun, hle⟩ : s.run.toNat ≠ 0 ∧ s.run.toNat ≤ 0x7F := by grind
    exact toNat_byte_of_short hle (bytes_rleflushEffect s hrun)
  case long =>
    have hrun : 0x7F < s.run.toNat := by grind
    exact toNat_byte_of_long hrun (run_le s) (bytes_rleflushEffect s (by omega))
  case empty =>
    rw [← hf]
    exact byte_rleflushEffect_empty s (hz ▸ hk)
  case outside => exact byte_put_outside s.dst (by rw [hlen]; omega)

/-! ## The run RLEDEC expands (R228, R229) -/

/-- The run is zeros at the first block of the stream, copies of the last record later; no other byte changes. -/
theorem byte_rledecDst (s : State) (x : Nat) :
    (rledecDst s).byte x =
      if s.dstp.toNat ≤ x ∧ x < s.dstp.toNat + runBytes s then
        if s.first = true then 0 else s.dst.byte (s.dstp.toNat - s.D + (x - s.dstp.toNat) % s.D)
      else s.dst.byte x := by
  unfold rledecDst
  split
  case isTrue hzero =>
    have hnone : runBytes s = 0 := by rw [runBytes, hzero, Nat.mul_zero, Nat.zero_mul]
    rw [hnone, if_neg (by omega)]
  case isFalse =>
    split
    · exact byte_zero s.dst _ _ _
    · exact byte_memrep s.dst _ _ _ _ _

/-- The response of an RLEDEC carries the run length (R228). -/
theorem rspWord_run_toNat (s : State) :
    (rspWord 0 RspOutcome.none.code (BitVec.ofNat 48 (runLength s))).toNat = 65536 * runLength s := by
  have hfits : runLength s < 2 ^ 48 := by
    have h0 := (s.src.byte s.srcp.toNat).isLt
    have h1 := (s.src.byte (s.srcp.toNat + 1)).isLt
    rw [runLength_eq_ite]
    split <;> omega
  rw [rspWord_toNat, BitVec.toNat_ofNat, Nat.mod_eq_of_lt hfits]
  exact Nat.zero_add _

/-- Settles O34: the frame is that of `rledecEffect`, the field is parsed in plain arithmetic, the bytes are those of
`byte_rledecDst`. -/
theorem rledecExpandsTheRun : Obligations.RledecExpandsTheRun := by
  unfold Obligations.RledecExpandsTheRun
  intro s hruns b0 b1 n
  have hn : runLength s = n := runLength_eq_ite s
  have hfield : runFieldLen s = if b0 < 0x80 then 1 else 2 := runFieldLen_eq_ite s
  rw [← hn, ← hfield]
  refine ⟨_, _, exec_of_runs id hruns, rfl, rspWord_run_toNat s, advanceSrcp_toNat, advanceDstp_toNat,
    fun k hk => (byte_rledecDst s _).trans ?run, fun x hx => (byte_rledecDst s x).trans ?rest⟩
  case run =>
    rw [if_pos (by rw [runBytes]; omega), Nat.add_sub_cancel_left]
  case rest =>
    rw [if_neg (by rw [runBytes]; omega)]

end Sys2Proof.Machine
end

section
/-! The faults (60_exceptions.md): what raises one, what one changes, and what leads out of it. -/

namespace Sys2Proof.Machine

/-! ## A command that faults (R276) -/

/-- Every command answers: the model has no other outcome of one (R270). -/
theorem exec_answers (i : Instr) (s : State) : ∃ t, exec i s = .next t := by
  cases i with
  | rdreg idx => exact (exec_rdreg_cases idx s).elim (⟨_, ·⟩) (⟨_, ·⟩)
  | _ => exact ⟨_, rfl⟩

/-- Settles O37: a command takes a fault, or completes and answers OK. -/
theorem faultsAreAllOrNothing : Obligations.FaultsAreAllOrNothing := by
  unfold Obligations.FaultsAreAllOrNothing
  intro i s
  obtain ⟨t, hexec⟩ := exec_answers i s
  rcases exec_cases hexec with ⟨c, rfl⟩ | ⟨-, rfl⟩
  · obtain ⟨hlow, hhigh⟩ := c.code_range
    exact ⟨_, _, hexec, raise_rsp s c, .inr ⟨c.code, hlow, hhigh, raise_eq_faulted s c⟩⟩
  · obtain ⟨r, hr, hok⟩ := effectOf_rsp i s
    exact ⟨_, r, hexec, hr, .inl hok⟩

/-! ## A core that is faulted or not configured (R273) -/

section
variable {s : State} (code : BitVec 8)

/-- A further fault leaves only its response (R276). -/
theorem faulted_of_fault (h : s.fault = true) : faulted s code = { s with rsp := some (code.setWidth 64) } := by
  simp [faulted, h]

/-- The first fault is the one that `ECODE` keeps (R276). -/
theorem faulted_of_no_fault (h : s.fault = false) :
    faulted s code = { s with fault := true, ecode := code, rsp := some (code.setWidth 64) } := by
  simp [faulted, h]

end

/-- Settles O38: the first two clauses of the check order, with the fault they take written out. -/
theorem faultedAndUnconfiguredRefuse : Obligations.FaultedAndUnconfiguredRefuse := by
  unfold Obligations.FaultedAndUnconfiguredRefuse
  intro i s hi
  obtain ⟨hfaulted, hnotcfg, -⟩ := firstFailingCheckDecides i s hi
  constructor
  · intro hfault
    rw [hfaulted hfault, faulted_of_fault 2 hfault]
    rfl
  · intro hfault hcfgd
    rw [hnotcfg hfault hcfgd, faulted_of_no_fault 3 hfault]
    rfl

/-! ## An illegal word (R116, R272) -/

theorem step_of_host_command {s : State} {w : Word} {rest : List HostEvent} (h : s.host = .command w :: rest) :
    step s = runCommand w (s.accept rest) := by
  rw [step, h]

theorem runCommand_of_ok {w : Word} {i : Instr} (s : State) (h : decode w = .ok i) : runCommand w s = exec i s := by
  rw [runCommand, h]

theorem runCommand_of_error {w : Word} {e : DecodeError} (s : State) (h : decode w = .error e) :
    runCommand w s = .next (s.raise .illcmd) := by
  rw [runCommand, h]

/-- Settles O6: the decoder refuses a word that no row of the opcode table matches, and the refusal is the fault 1. -/
theorem illegalWordRaisesIllcmd : Obligations.IllegalWordRaisesIllcmd := by
  unfold Obligations.IllegalWordRaisesIllcmd
  intro s w rest hhost hillegal
  rw [step_of_host_command hhost]
  cases hdecode : decode w with
  | ok i => exact absurd ((decoderAcceptsExactlyTheOpcodeTable w).1 ⟨i, hdecode⟩) hillegal
  | error e =>
    rw [runCommand_of_error _ hdecode, raise_eq_faulted]
    rfl

/-! ## The ways out of a fault (R281) -/

section
variable {s t : State} (hfault : s.fault = true)
include hfault

/-- No command but INIT clears `FAULT` (R23). -/
theorem exec_keeps_fault {i : Instr} (hi : ∀ d delta rle, i ≠ .init d delta rle) (h : exec i s = .next t) :
    t.fault = true := by
  rcases exec_cases h with ⟨c, rfl⟩ | ⟨-, rfl⟩
  · exact raise_fault s c
  · obtain ⟨-, -, -, -, hkeep, -⟩ := effectOf_config (s := s) hi
    exact hkeep.trans hfault

/-- A command word that clears `FAULT` is an INIT: an illegal one sets it (R272, R281). -/
theorem init_of_runCommand_clears_fault {w : Word} (h : runCommand w s = .next t) (hclear : t.fault = false) :
    ∃ d delta rle, decode w = .ok (.init d delta rle) := by
  cases hdecode : decode w with
  | error e =>
    rw [runCommand_of_error s hdecode] at h
    obtain rfl := Host.Outcome.next.inj h
    cases hclear
  | ok i =>
    rw [runCommand_of_ok s hdecode] at h
    by_contra hnot
    have hkeep := exec_keeps_fault hfault (fun d delta rle hi => hnot ⟨d, delta, rle, by rw [hi]⟩) h
    cases hkeep.symm.trans hclear

theorem hostWriteSrc_keeps_fault {a : Addr} {bs : List Byte} (h : s.hostWriteSrc a bs = .next t) :
    t.fault = true := by
  rcases hostWriteSrc_cases s a bs with ⟨-, heq⟩ | ⟨-, heq⟩
  · obtain rfl := Host.Outcome.next.inj (h.symm.trans heq)
    exact hfault
  · cases h.symm.trans heq

theorem hostWriteDst_keeps_fault {a : Addr} {bs : List Byte} (h : s.hostWriteDst a bs = .next t) :
    t.fault = true := by
  rcases hostWriteDst_cases s a bs with ⟨-, heq⟩ | ⟨-, heq⟩
  · obtain rfl := Host.Outcome.next.inj (h.symm.trans heq)
    exact hfault
  · cases h.symm.trans heq

end

/-- Settles O39, by the host's action: waiting and the host's writes keep `FAULT`, a command word that clears it is an
INIT. -/
theorem onlyInitOrResetClearsAFault : Obligations.OnlyInitOrResetClearsAFault := by
  unfold Obligations.OnlyInitOrResetClearsAFault
  intro s t hstep hfault hclear
  have not_kept : t.fault ≠ true := by simp [hclear]
  match hhost : s.host with
  | [] =>
    rw [step_of_host_nil hhost] at hstep
    obtain rfl := Host.Outcome.next.inj hstep
    exact absurd hfault not_kept
  | .reset :: rest => exact .inl ⟨rest, rfl⟩
  | .command w :: rest =>
    rw [step_of_host_command hhost] at hstep
    obtain ⟨d, delta, rle, hdecode⟩ :=
      init_of_runCommand_clears_fault (s := s.accept rest) hfault hstep hclear
    exact .inr ⟨w, rest, d, delta, rle, rfl, hdecode⟩
  | .writeSrc a bs :: rest =>
    rw [step_of_host_writeSrc hhost] at hstep
    exact absurd (hostWriteSrc_keeps_fault (s := s.accept rest) hfault hstep) not_kept
  | .writeDst a bs :: rest =>
    rw [step_of_host_writeDst hhost] at hstep
    exact absurd (hostWriteDst_keeps_fault (s := s.accept rest) hfault hstep) not_kept

end Sys2Proof.Machine
end

section
/-! Reset between commands (70_reset_and_hazards.md). -/

namespace Sys2Proof.Machine

/-! ## A reset of the host (R300) -/

theorem step_of_host_reset {s : State} {rest : List HostEvent} (h : s.host = .reset :: rest) :
    step s = .next (s.accept rest).rst := by
  rw [step, h]

/-- The table R38 reads registers only, and in each of them a core reset between commands agrees with
`State.reset`. -/
theorem registersCleared_rst (s : State) : registersCleared s.rst :=
  registersCleared_reset

/-- Settles O8: the step is `State.rst`, which keeps the memories, the cap and what is left of the host's list. -/
theorem rstRestoresTheResetState : Obligations.RstRestoresTheResetState := by
  unfold Obligations.RstRestoresTheResetState
  intro s rest hhost
  refine ⟨(s.accept rest).rst, step_of_host_reset hhost, registersCleared_rst _, ?cfgD, ?cfgDelta, ?cfgRle, ?cfgd,
    ?rsp, ?src, ?dst, ?maxRun, ?host⟩
  case cfgD | cfgDelta | cfgRle | cfgd | rsp => rfl
  case src | dst | maxRun | host => simp

end Sys2Proof.Machine
end
